-- ==== Sys2Proof/Word.lean ====
section
/-! DEFINITION. The words, levels and identifiers of the block (00_scope.md rule R7, 10_state.md rules R21, R26, R28). -/

namespace Sys2Proof

/-- A byte: 8 bits, numbered from 0, the least significant (rule R7). -/
abbrev Byte := BitVec 8

/-- A delay count: the 16-bit unsigned unit of the Timing Profile fields (rule R21, decision D3). -/
abbrev Count := BitVec 16

/-- A 40-bit command word (rule R71). -/
abbrev CommandWord := BitVec 40

/-- A line frame of ten cells, written as its pattern string is read: cell 0 (start) is bit 9, cell 9 (stop) is
bit 0 (rule R60). -/
abbrev FrameWord := BitVec 10

/-- A pin identifier: pins are abstract names (rules R26, R46). -/
abbrev Pin := Nat

/-- An electrical level, low or high (rule R7). -/
inductive Level where
  | L
  | H
  deriving DecidableEq, Repr

/-- `!v` of rule R7: the other level. -/
def Level.flip : Level → Level
  | .L => .H
  | .H => .L

/-- A level written as the bit the pattern strings use: `0 = L`, `1 = H` (rules R7, R60). -/
def Level.toBool : Level → Bool
  | .L => false
  | .H => true

/-- The level a pattern bit stands for (rules R7, R60). -/
def Level.ofBool : Bool → Level
  | false => .L
  | true => .H

/-- The two external-interrupt sources, 0 and 1 (rule R28). -/
inductive SourceId where
  | s0
  | s1
  deriving DecidableEq, Repr

end Sys2Proof
end

