-- ==== Sys2Proof/Config.lean ====
section
/-! DEFINITION. The implementation parameters of the block (00_scope.md rule R6), each OPEN in the spec: a claim about
every `Config` and every list of `Strap` is a claim for every value of the parameter. `line_in` is an input of the
environment and stands in the state (Machine/State.lean), where it may be the free value `Config.freeLine`; `NINST` is
the number of instances the state holds. -/

namespace Sys2Proof

/-- The four delay counts of one instance, or of one table row (rules R21, R85). -/
structure Profile where
  rxCentering : Count
  rxIntrabit  : Count
  rxStopbit   : Count
  txDelay     : Count
  deriving DecidableEq, Repr

/-- The all-zero profile: the "invalid baud" sentinel (rule R87). -/
def Profile.zero : Profile := ⟨0, 0, 0, 0⟩

/-- One row of the Timing Table: a baud rate and its four counts (rule R85, decision D4). -/
structure Row where
  baud    : BitVec 32
  profile : Profile
  deriving DecidableEq, Repr

/-- The values fixed when an instance is built: `RX_SRC(i)`, `TX_PIN(i)`, `INVERSE(i)` (rule R22). -/
structure Strap where
  rxSrc   : SourceId
  txPin   : Pin
  inverse : Bool
  deriving DecidableEq, Repr

/-- The block-wide parameters of rule R6. `startAdj` is the 16-bit pattern of the signed `START_ADJ`. -/
structure Config where
  srcPin0    : Pin
  srcPin1    : Pin
  cap        : Nat
  table      : List Row
  startAdj   : BitVec 16
  delayScale : Nat
  delayZero  : Nat
  latEntry   : Nat
  gieReset   : Bool
  deriving DecidableEq, Repr

/-- `SRC_PIN(s)`: the input pin wired to source `s` (rule R6). -/
def Config.srcPin (c : Config) : SourceId → Pin
  | .s0 => c.srcPin0
  | .s1 => c.srcPin1

/-- What a line may do that no finite description of ours says: the level (high when true) of line number `n` at each
instant. It has no body, so a claim about it holds for every function (rule R6; assumption 4). -/
opaque Config.freeLine : Nat → Nat → Bool

end Sys2Proof
end

