-- ==== Sys2Proof/Syntax.lean ====
section
/-! DEFINITION. The twelve rows of the opcode table (30_encoding.md rules R70, R72, R60). Ten operations are issued as
command words to one instance; `RXISR` is started by hardware and its encoding is the line frame, one row per polarity. -/

namespace Sys2Proof

/-- One constructor per row of `spec/opcode_table.json`. `n` is the instance index of the command word. The operand
of `rxisr` and `rxisrInv` is the levels of the eight data cells: bit `k` is 1 when data cell `k` is high. -/
inductive Instr where
  /-- `configure(baud)`, `begin` (rule R124). -/
  | configure (n : Nat) (baud : BitVec 32)
  /-- `shutdown()`, `end` (rule R128). -/
  | shutdown (n : Nat)
  /-- `startListening()`, `listen` (rule R120). -/
  | listen (n : Nat)
  /-- `isListening()` (rule R123). -/
  | islisten (n : Nat)
  /-- `readByte()` (rule R161). -/
  | read (n : Nat)
  /-- `peekByte()` (rule R162). -/
  | peek (n : Nat)
  /-- `availableCount()` (rule R163). -/
  | avail (n : Nat)
  /-- `writeByte(b)` (rule R140). -/
  | write (n : Nat) (b : Byte)
  /-- `discardBuffered()` (rule R164). -/
  | flush (n : Nat)
  /-- `STATUS` (rule R168). -/
  | status (n : Nat)
  /-- One handler run on the frame `0abcdefgh1` (rules R100, R60). -/
  | rxisr (cells : Byte)
  /-- One handler run on the frame `1abcdefgh0` (rules R100, R60). -/
  | rxisrInv (cells : Byte)
  deriving DecidableEq, Repr

end Sys2Proof
end

