-- ==== Sys2Proof/WellFormed.lean ====
section
/-! DEFINITION. What makes an instruction and a configuration well formed (30_encoding.md rules R71, R77; 00_scope.md
rule R6; 10_state.md rule R22; 93_implementation_defined.md U11). -/

namespace Sys2Proof

/-- The instance a command is addressed to; the handler is addressed to none (rule R70). -/
def Instr.target : Instr → Option Nat
  | .configure n _ => some n
  | .shutdown n => some n
  | .listen n => some n
  | .islisten n => some n
  | .read n => some n
  | .peek n => some n
  | .avail n => some n
  | .write n _ => some n
  | .flush n => some n
  | .status n => some n
  | .rxisr _ => none
  | .rxisrInv _ => none

/-- The `inst` field is four bits wide (rule R71). -/
def Instr.encodable (i : Instr) : Bool :=
  match i.target with
  | some n => decide (n < 16)
  | none => true

/-- A command word names an instance that exists, `inst < NINST` (rules R71, R77). -/
def Instr.addressed (ninst : Nat) (i : Instr) : Bool :=
  match i.target with
  | some n => decide (n < ninst)
  | none => true

/-- A well-formed instruction of a block with `ninst` instances. -/
def Instr.wellFormed (ninst : Nat) (i : Instr) : Bool :=
  i.encodable && i.addressed ninst

/-- `NINST >= 1` (rule R6). -/
def hasInstance (straps : List Strap) : Bool := decide (1 ≤ straps.length)

/-- `CAP >= 2` (rule R6). -/
def capOk (c : Config) : Bool := decide (2 ≤ c.cap)

/-- `DELAY_SCALE >= 1` (rule R6). -/
def scaleOk (c : Config) : Bool := decide (1 ≤ c.delayScale)

/-- No two instances have the same `TX_PIN` (rule R22, U11). -/
def txPinsDistinct (straps : List Strap) : Bool := decide (straps.map Strap.txPin).Nodup

/-- No `TX_PIN` is a `SRC_PIN` (rule R22, U11). -/
def txPinsNotReceive (c : Config) (straps : List Strap) : Bool :=
  straps.all fun t => t.txPin != c.srcPin0 && t.txPin != c.srcPin1

/-- A configuration of the block; the model refuses any other (rules R6, R22, R183; U6, U11). DESIGN CHOICE: `NINST` may
be above 16, as rule R6 allows, though a block driven through the command port has at most 16 (rule R71); instances 16
and up exist but no command word names them (assumption 27). -/
def configOk (c : Config) (straps : List Strap) : Bool :=
  hasInstance straps && capOk c && scaleOk c && txPinsDistinct straps && txPinsNotReceive c straps

end Sys2Proof
end

