-- ==== Sys2Proof/Decode.lean ====
section
/-! DEFINITION. The decoder of command words and line frames, total, rejecting by name, and after it the encoder
(30_encoding.md rules R60, R71 to R73, R77, R78). -/

namespace Sys2Proof

/-- Why a word is no instruction. -/
inductive DecodeError where
  /-- The command word's opcode is `0x0` or `0xB` to `0xF` (rule R77). -/
  | reservedOpcode (op : BitVec 4)
  /-- The ten levels are no frame of either polarity: start and stop cell are at the same level (rule R60). -/
  | notAFrame (w : FrameWord)
  deriving DecidableEq, Repr

/-- The two encodings of the block: a command word and a line frame (30_encoding.md). -/
inductive Encoded where
  | command (w : CommandWord)
  | frame (w : FrameWord)
  deriving DecidableEq, Repr

/-- `bits[39:36]` of a command word (rule R71). -/
def opcodeField (w : CommandWord) : BitVec 4 := w.extractLsb' 36 4

/-- `bits[35:32]` of a command word, the instance index (rule R71). -/
def instField (w : CommandWord) : Nat := (w.extractLsb' 32 4).toNat

/-- `bits[31:0]` of a command word: the baud of `CONFIGURE` (rules R71, R73). -/
def operandField (w : CommandWord) : BitVec 32 := w.extractLsb' 0 32

/-- `bits[7:0]` of a command word: the byte of `WRITE` (rules R73, R78). -/
def byteField (w : CommandWord) : Byte := w.extractLsb' 0 8

/-- The opcode map of rule R72; reserved opcodes are rejected (rule R77); bits no operation uses are ignored (R78). -/
def decodeCommand (w : CommandWord) : Except DecodeError Instr :=
  match (opcodeField w).toNat with
  | 1 => .ok (.configure (instField w) (operandField w))
  | 2 => .ok (.shutdown (instField w))
  | 3 => .ok (.listen (instField w))
  | 4 => .ok (.islisten (instField w))
  | 5 => .ok (.read (instField w))
  | 6 => .ok (.peek (instField w))
  | 7 => .ok (.avail (instField w))
  | 8 => .ok (.write (instField w) (byteField w))
  | 9 => .ok (.flush (instField w))
  | 10 => .ok (.status (instField w))
  | _ => .error (.reservedOpcode (opcodeField w))

/-- The data cells of a frame as a byte whose bit `k` is the level of data cell `k`: cell `k + 1` of the frame, bit
`8 - k` of the frame word (rule R60). -/
def dataCells (w : FrameWord) : Byte :=
  BitVec.ofBool (w.getLsbD 1) ++ BitVec.ofBool (w.getLsbD 2) ++ BitVec.ofBool (w.getLsbD 3) ++
  BitVec.ofBool (w.getLsbD 4) ++ BitVec.ofBool (w.getLsbD 5) ++ BitVec.ofBool (w.getLsbD 6) ++
  BitVec.ofBool (w.getLsbD 7) ++ BitVec.ofBool (w.getLsbD 8)

/-- A frame `0abcdefgh1` is `RXISR`, a frame `1abcdefgh0` is `RXISR_INV` (rule R60). -/
def decodeFrame (w : FrameWord) : Except DecodeError Instr :=
  match w.getLsbD 9, w.getLsbD 0 with
  | false, true => .ok (.rxisr (dataCells w))
  | true, false => .ok (.rxisrInv (dataCells w))
  | _, _ => .error (.notAFrame w)

/-- The decoder of both encodings. -/
def decode : Encoded → Except DecodeError Instr
  | .command w => decodeCommand w
  | .frame w => decodeFrame w

/-- The opcode-table word `w` of `nbits` bits. A row of 40 bits is a command word; the ten cells of a line-frame row
take two bytes (assumption 3), and a number that does not fit in ten bits is no frame. -/
def decodeTableWord (nbits w : Nat) : Option Instr :=
  if nbits ≤ 16 then
    if w < 1024 then (decodeFrame (BitVec.ofNat 10 w)).toOption else none
  else
    if w < 2 ^ 40 then (decodeCommand (BitVec.ofNat 40 w)).toOption else none

/-- A command word from its three fields (rule R71). -/
def commandWord (op : BitVec 4) (n : Nat) (operand : BitVec 32) : CommandWord :=
  op ++ BitVec.ofNat 4 n ++ operand

/-- The ten cells of a frame in time order, the start cell first (rule R60). -/
def frameWord (start : Level) (cells : Byte) (stop : Level) : FrameWord :=
  BitVec.ofBool start.toBool ++
  BitVec.ofBool (cells.getLsbD 0) ++ BitVec.ofBool (cells.getLsbD 1) ++ BitVec.ofBool (cells.getLsbD 2) ++
  BitVec.ofBool (cells.getLsbD 3) ++ BitVec.ofBool (cells.getLsbD 4) ++ BitVec.ofBool (cells.getLsbD 5) ++
  BitVec.ofBool (cells.getLsbD 6) ++ BitVec.ofBool (cells.getLsbD 7) ++ BitVec.ofBool stop.toBool

/-- The word of an instruction: the opcode map of rule R72 with unused operand bits 0 (rule R78), or the line frame of
rule R60. -/
def encode : Instr → Encoded
  | .configure n baud => .command (commandWord 0x1#4 n baud)
  | .shutdown n => .command (commandWord 0x2#4 n 0)
  | .listen n => .command (commandWord 0x3#4 n 0)
  | .islisten n => .command (commandWord 0x4#4 n 0)
  | .read n => .command (commandWord 0x5#4 n 0)
  | .peek n => .command (commandWord 0x6#4 n 0)
  | .avail n => .command (commandWord 0x7#4 n 0)
  | .write n b => .command (commandWord 0x8#4 n (b.setWidth 32))
  | .flush n => .command (commandWord 0x9#4 n 0)
  | .status n => .command (commandWord 0xA#4 n 0)
  | .rxisr cells => .frame (frameWord .L cells .H)
  | .rxisrInv cells => .frame (frameWord .H cells .L)

end Sys2Proof
end

