-- ==== Sys2Proof/Machine/Operands.lean ====
section
/-! DEFINITION. The values the block assembles or takes apart, and the arithmetic on them: levels, bits, the start-bit
count, the baud lookup, the duration of a delay, the level of a waveform (30_encoding.md rules R61 to R63;
40_timing_and_delay.md rules R86, R90, R94; 45_laws_and_transfers.md rule R170; 60_exceptions.md rule R187). -/

namespace Sys2Proof.Machine

open Sys2Proof

/-- How a waveform goes on for ever (rule R6 lets `line_in` be any function of time; assumption 4). -/
inductive Tail where
  /-- As the last listed change left it. -/
  | steady
  /-- From `start` on the levels `levels`, one a cycle, over and over: an endless train of edges. -/
  | cyclic (start : Nat) (levels : List Level)
  /-- From `start` on any levels at all: those of the free line `n`. -/
  | free (start n : Nat)
  deriving DecidableEq, Repr

/-- A waveform as plain data: the level before the first change, the changes in time order, each an instant and the
level from that instant on, and how it goes on (`line_in` of rule R6 for one pin; half-open cells, decision D31). -/
structure Wave where
  rest    : Level
  changes : List (Nat × Level)
  tail    : Tail
  deriving DecidableEq, Repr

/-- The instant a tail begins at. -/
def Tail.start : Tail → Option Nat
  | .steady => none
  | .cyclic start _ => some start
  | .free start _ => some start

/-- The level a tail gives at `t`, none where it gives none. -/
def Tail.levelAt (w : Tail) (t : Nat) : Option Level :=
  match w with
  | .steady => none
  | .cyclic start levels => if start ≤ t then levels[(t - start) % levels.length]? else none
  | .free start n => if start ≤ t then some (Level.ofBool (Config.freeLine n t)) else none

/-- The level the listed changes give at `t`. -/
def Wave.listedAt (w : Wave) (t : Nat) : Level :=
  w.changes.foldl (fun v c => if c.1 ≤ t then c.2 else v) w.rest

/-- `Level(p, t)` of a waveform (rule R26). -/
def Wave.levelAt (w : Wave) (t : Nat) : Level := (w.tail.levelAt t).getD (w.listedAt t)

/-- The instants `t` with `a < t <= b` at which the level may differ from that of the cycle before: the listed changes,
and every instant of the tail. -/
def Wave.changesWithin (w : Wave) (a b : Nat) : List Nat :=
  (w.changes.map Prod.fst).filter (fun t => decide (a < t) && decide (t ≤ b)) ++
    match w.tail.start with
    | none => []
    | some start =>
      let first := max (a + 1) start
      (List.range (b + 1 - first)).map (first + ·)

/-- `Edge(s, t)` of rule R187: for `t >= 1` the level at `t` differs from the level at `t - 1`. -/
def Wave.edgeAt (w : Wave) (t : Nat) : Bool :=
  decide (1 ≤ t) && w.levelAt t != w.levelAt (t - 1)

/-- The edges at instants `t` with `a < t <= b`. -/
def Wave.edgesWithin (w : Wave) (a b : Nat) : List Nat := (w.changesWithin a b).filter w.edgeAt

/-- Some edge lies at an instant `t` with `a < t <= b`. -/
def Wave.edgeWithin (w : Wave) (a b : Nat) : Bool := (w.changesWithin a b).any w.edgeAt

/-- `start_level(i)` (rule R61). -/
def startLevel (t : Strap) : Level := if t.inverse then .H else .L

/-- `idle_level(i) = !start_level(i)` (rule R61). -/
def idleLevel (t : Strap) : Level := (startLevel t).flip

/-- `bit_level(i, v)` (rule R62). -/
def bitLevel (t : Strap) (v : Bool) : Level :=
  if t.inverse then Level.ofBool (!v) else Level.ofBool v

/-- `StartCount(i) = U16(tx_delay + START_ADJ)`: the exact integer sum of an unsigned and a signed value, kept to 16
bits (rules R94, R170 e). -/
def startCount (c : Config) (p : Profile) : Count :=
  BitVec.ofInt 16 ((p.txDelay.toNat : Int) + c.startAdj.toInt)

/-- `D(n)`: the cycles a delay of count `n` lasts (rule R90). -/
def delayCycles (c : Config) (n : Count) : Nat :=
  if n = 0 then c.delayZero else c.delayScale * n.toNat

/-- `LookupBaud`: the counts of the first row with exactly this baud, else all zero (rules R86, R87). -/
def lookupBaud (c : Config) (baud : BitVec 32) : Profile :=
  match c.table.find? (fun r => r.baud == baud) with
  | some r => r.profile
  | none => Profile.zero

/-- Reception is viable: `rx_delay_stopbit != 0`, that field alone (rules R88, R125). -/
def rxViable (p : Profile) : Bool := p.rxStopbit != 0

/-- Set or clear bit `k` of a byte by the sampled level (rules R105, R170 f). -/
def sampleBit (d : Byte) (k : Fin 8) (v : Level) : Byte :=
  if v = .H then d ||| (1#8 <<< k.val) else d &&& ~~~(1#8 <<< k.val)

/-- `rx_d <- ~rx_d` under inverse logic (rules R107, R170 g). -/
def polarity (t : Strap) (d : Byte) : Byte := if t.inverse then ~~~d else d

/-- `(x + 1) mod CAP` (rule R170 a). -/
def nextIndex (c : Config) (x : Nat) : Nat := (x + 1) % c.cap

/-- Bit `k` of the eight data cells as a level (rule R60). -/
def cellLevel (cells : Byte) (k : Nat) : Level := Level.ofBool (cells.getLsbD k)

end Sys2Proof.Machine
end

