-- ==== Sys2Proof/Machine/State.lean ====
section
/-! DEFINITION. The state of the block (10_state.md rules R10 to R29), the reasons a step can stop, and the state after
reset (rule R34, 70_reset_and_hazards.md rule R210). INVENTORY.md lists every field. -/

namespace Sys2Proof.Machine

open Sys2Proof

/-- `rx_phase` (rule R12). -/
inductive RxPhase where
  | idle
  | check
  | center
  | bit (k : Fin 8)
  | stop
  | store
  deriving DecidableEq, Repr

/-- `tx_phase` (rule R12). -/
inductive TxPhase where
  | idle
  | start
  | bit (k : Fin 8)
  | stop
  deriving DecidableEq, Repr

/-- `cfg_phase` (rule R12). -/
inductive CfgPhase where
  | idle
  | settle
  deriving DecidableEq, Repr

/-- `int_sense[s]` (rule R28): `ANY_EDGE` is the only value the block writes; what other values exist is outside it
(decision D30, assumption 15). -/
inductive Sense where
  | anyEdge
  | other
  deriving DecidableEq, Repr

/-- The interrupt bits of one source (rule R28). -/
structure IntSource where
  enable  : Bool
  sense   : Sense
  pending : Bool
  deriving DecidableEq, Repr

/-- One instance: its straps, its Timing Profile and its two sticky flags (rules R15, R20 to R22). -/
structure Inst where
  strap      : Strap
  profile    : Profile
  overflow   : Bool
  writeError : Bool
  deriving DecidableEq, Repr

/-- The Circular Receive Buffer's slots, each an index and a byte, indices strictly rising. A slot that is not listed
holds `Memory.blank` (rules R25, R40; assumption 10). -/
abbrev Memory := List Host.Cell

/-- What an operation returns on the response port (rule R74); `Response.word` in Machine/Flags.lean is its 32 bits. -/
inductive Response where
  /-- `CONFIGURE`, `SHUTDOWN`, `FLUSH`: they return nothing. -/
  | done
  /-- `LISTEN`, `ISLISTEN`. -/
  | flag (b : Bool)
  /-- `READ`, `PEEK` with a byte. -/
  | byte (v : Byte)
  /-- `READ`, `PEEK` without one: the sentinel `NoData`. -/
  | noData
  /-- `AVAIL`'s count, `WRITE`'s bytes written. -/
  | count (n : Nat)
  /-- `STATUS`'s status word. -/
  | status (w : BitVec 32)
  deriving DecidableEq, Repr

/-- A command word the host will present, at the first instant not before `notBefore` at which the block takes one
(rules R8, R71; assumption 5). -/
structure HostCommand where
  notBefore : Nat
  word      : CommandWord
  deriving DecidableEq, Repr

/-- One `PinWrite` as the outside world sees it: when, which pin, which level (rule R7; assumption 14). -/
structure PinEvent where
  time  : Nat
  pin   : Pin
  level : Level
  deriving DecidableEq, Repr

/-- The whole state (rule R10), the parameters of rule R6 (assumption 1), and what the environment and the host will
do and have seen (assumptions 4, 5, 13, 14). -/
structure State where
  /-- The block-wide parameters of rule R6; no step writes them. -/
  cfg        : Config
  /-- The instances, `NINST` of them (rule R20). -/
  insts      : List Inst
  /-- The Active-Listener Registry (rule R23). -/
  active     : Option Nat
  /-- Next byte to consume (rule R24). -/
  head       : Nat
  /-- Next slot to write (rule R24). -/
  tail       : Nat
  /-- The buffer array (rule R25). -/
  buf        : Memory
  /-- `pin_out[p]`, one level per output pin (rule R26). -/
  pinOut     : List (Pin × Level)
  /-- The global interrupt enable (rule R27). -/
  gie        : Bool
  /-- `int_enable[0]`, `int_sense[0]`, `int_pending[0]` (rule R28). -/
  src0       : IntSource
  /-- `int_enable[1]`, `int_sense[1]`, `int_pending[1]` (rule R28). -/
  src1       : IntSource
  /-- CPU cycles since reset (rule R29). -/
  now        : Nat
  /-- The instance the handler runs as (rule R11). -/
  rxInst     : Nat
  /-- The byte being assembled (rule R11). -/
  rxD        : Byte
  /-- The data bit being received (rule R11). -/
  rxK        : Fin 8
  /-- The instance whose `WRITE` is in progress (rule R11). -/
  txInst     : Nat
  /-- The byte being transmitted (rule R11). -/
  txB        : Byte
  /-- The data bit being transmitted (rule R11). -/
  txK        : Fin 8
  /-- The interrupt-enable state `WRITE` saved (rule R11). -/
  txSavedGie : Bool
  /-- The instance whose `CONFIGURE` is in its settle delay (rule R11). -/
  cfgInst    : Nat
  /-- The receive sequencer's phase (rule R12). -/
  rxPhase    : RxPhase
  /-- The transmit sequencer's phase (rule R12). -/
  txPhase    : TxPhase
  /-- The configuration sequencer's phase (rule R12). -/
  cfgPhase   : CfgPhase
  /-- Cycles the current delay of the handler still has to run (rule R13). -/
  rxWait     : Nat
  /-- Cycles the current foreground delay still has to run (rule R13). -/
  fgWait     : Nat
  /-- `line_in`: the waveform the environment drives on each input pin (rule R6). -/
  lineIn     : List (Pin × Wave)
  /-- The commands the host will present, the next one first (rule R8). -/
  script     : List HostCommand
  /-- The response port: the response of the last command, none while one is in progress (rule R74). -/
  rsp        : Option Response
  /-- Every `PinWrite` since reset, newest first (rule R26). -/
  wire       : List PinEvent
  /-- Bytes stored since the indices were last 0; byte number `p` of them went to slot `p mod CAP` (rule R35 I-3;
  assumption 26). -/
  stored     : Nat
  deriving DecidableEq, Repr

/-- A fault. The spec gives the block none (rule R182); each of these is raised only in a state no run of a well-formed
configuration reaches, and each is safe: the machine stops where the spec has no state at all (assumption 11). -/
inductive Fault where
  /-- Raised by an engine step or a takeover of the buffer when a working register or `active` names an instance that
  does not exist. Safe. -/
  | noSuchInstance (n : Nat)
  /-- Raised by a buffer access when an index register holds a value that is not below `CAP`. Safe. -/
  | noSuchSlot (idx : Nat)
  deriving DecidableEq, Repr

/-- A refusal: the word or the configuration is none of the block's. -/
inductive Refusal where
  /-- Raised by `exec` for an instruction that has no meaning yet. Safe. No instruction is left so. -/
  | notModelled (mnemonic : String)
  /-- Raised by the command port: reserved opcode (rule R77). Safe. -/
  | undecodable (e : DecodeError)
  /-- Raised by every command operation: `inst >= NINST` (rule R77). Safe. -/
  | noSuchPort (n : Nat)
  /-- Raised by the step: the parameters are no configuration of the block (rules R6, R22, R183). Safe. -/
  | badConfiguration
  deriving DecidableEq, Repr

/-- A block as built: its parameters and the straps of its instances (rules R6, R22). -/
structure Build where
  cfg    : Config
  straps : List Strap
  deriving DecidableEq, Repr

/-- What rule R34 leaves unspecified at reset, and what the environment and the host bring. -/
structure PowerOn where
  buf        : Memory
  sense0     : Sense
  sense1     : Sense
  pending0   : Bool
  pending1   : Bool
  rxInst     : Nat
  rxD        : Byte
  rxK        : Fin 8
  txInst     : Nat
  txB        : Byte
  txK        : Fin 8
  txSavedGie : Bool
  cfgInst    : Nat
  lineIn     : List (Pin × Wave)
  script     : List HostCommand
  deriving DecidableEq, Repr

/-- An instance after reset: counts 0, flags 0 (rule R34). -/
def Inst.reset (t : Strap) : Inst := ⟨t, Profile.zero, false, false⟩

/-- The state after reset of a block `b`, for every value of what rule R34 leaves unspecified (rules R34, R210). -/
def State.powerOn (b : Build) (u : PowerOn) : State where
  cfg := b.cfg
  insts := b.straps.map Inst.reset
  active := none
  head := 0
  tail := 0
  buf := u.buf
  pinOut := b.straps.map fun t => (t.txPin, idleLevel t)
  gie := b.cfg.gieReset
  src0 := ⟨false, u.sense0, u.pending0⟩
  src1 := ⟨false, u.sense1, u.pending1⟩
  now := 0
  rxInst := u.rxInst
  rxD := u.rxD
  rxK := u.rxK
  txInst := u.txInst
  txB := u.txB
  txK := u.txK
  txSavedGie := u.txSavedGie
  cfgInst := u.cfgInst
  rxPhase := .idle
  txPhase := .idle
  cfgPhase := .idle
  rxWait := 0
  fgWait := 0
  lineIn := u.lineIn
  script := u.script
  rsp := none
  wire := []
  stored := 0

/-- The build the model's reset state stands for: the suggested values of rule R6 (GK1, GK2, GK4), the example table of
95_test_vectors.md section 2 (GK5), two instances, one of each polarity (PRESUMED and DESIGN CHOICE, assumption 2). -/
def Build.chosen : Build where
  cfg :=
    { srcPin0 := 2, srcPin1 := 3, cap := 64
      table := [⟨9600, ⟨114, 236, 236, 233⟩⟩, ⟨19200, ⟨54, 117, 117, 114⟩⟩, ⟨115200, ⟨1, 17, 17, 12⟩⟩]
      startAdj := 5, delayScale := 4, delayZero := 262144, latEntry := 0, gieReset := false }
  straps := [⟨.s0, 4, false⟩, ⟨.s1, 5, true⟩]

/-- The values the model's reset state has where rule R34 states none: zero, nothing pending, no other sense than
`other`, every buffer slot `Memory.blank`, both receive lines at rest and no command (DESIGN CHOICE, assumptions 4, 5,
8, 9, 10). -/
def PowerOn.chosen : PowerOn where
  buf := []
  sense0 := .other
  sense1 := .other
  pending0 := false
  pending1 := false
  rxInst := 0
  rxD := 0
  rxK := 0
  txInst := 0
  txB := 0
  txK := 0
  txSavedGie := false
  cfgInst := 0
  lineIn := [(2, ⟨.H, [], .steady⟩), (3, ⟨.L, [], .steady⟩)]
  script := []

/-- The machine right after reset. -/
def State.reset : State := State.powerOn Build.chosen PowerOn.chosen

end Sys2Proof.Machine
end

