-- ==== Sys2Proof/Machine/Flags.lean ====
section
/-! DEFINITION. The two sticky flags of an instance, the status word they stand in, and the 32 bits of a response
(10_state.md rule R15; 30_encoding.md rules R74, R75; 60_exceptions.md rule R181). -/

namespace Sys2Proof.Machine

open Sys2Proof

/-- `inst[i].overflow <- 1` (rules R15, R42). -/
def Inst.setOverflow (r : Inst) : Inst := { r with overflow := true }

/-- `inst[i].overflow <- 0`, by a changing `LISTEN` alone (rules R15, R121). -/
def Inst.clearOverflow (r : Inst) : Inst := { r with overflow := false }

/-- `inst[i].write_error <- 1` (rules R15, R141). -/
def Inst.setWriteError (r : Inst) : Inst := { r with writeError := true }

/-- The status word of instance `n` (rule R75): bit 0 listening, 1 overflow, 2 write error, 3 reception configured,
4 transmission configured, the rest 0. -/
def statusWord (active : Option Nat) (n : Nat) (r : Inst) : BitVec 32 :=
  0#27 ++ BitVec.ofBool (r.profile.txDelay != 0) ++ BitVec.ofBool (r.profile.rxStopbit != 0) ++
  BitVec.ofBool r.writeError ++ BitVec.ofBool r.overflow ++ BitVec.ofBool (active == some n)

/-- The response word `RSP` (rule R74). A count of 2^32 or more has no pattern in the spec; it wraps (assumption 13). -/
def Response.word : Response → BitVec 32
  | .done => 0
  | .flag b => (BitVec.ofBool b).setWidth 32
  | .byte v => v.setWidth 32
  | .noData => 0xFFFFFFFF
  | .count n => BitVec.ofNat 32 n
  | .status w => w

end Sys2Proof.Machine
end

