-- ==== Sys2Proof/Machine/Ops.lean ====
section
/-! DEFINITION. The named operations over the state that every meaning is written in: sequencing, instances, the buffer
space, time and the pending latches, pins, the critical section, and the receive interrupt: when it fires, its entry and
its return (00_scope.md rule R7; 20_memory.md; 40_timing_and_delay.md rule R91; 60_exceptions.md rules R187 to R193). -/

namespace Sys2Proof.Machine

open Sys2Proof

/-- What an operation answers. -/
abbrev Result := Host.Outcome State Fault Refusal

/-- Go on with `k` from a next state; a fault or a refusal stays. -/
def andThen (r : Result) (k : State → Result) : Result :=
  match r with
  | .next s => k s
  | .fault f => .fault f
  | .refused f => .refused f

/-- Go on with `k` `n` times. -/
def repeatStep (k : State → Result) : Nat → State → Result
  | 0, s => .next s
  | n + 1, s => andThen (k s) (repeatStep k n)

/-! ### Instances -/

/-- `NINST` (rule R6). -/
def ninst (s : State) : Nat := s.insts.length

/-- `inst[n]` for an engine step. -/
def withInst (n : Nat) (s : State) (k : Inst → Result) : Result :=
  match s.insts[n]? with
  | some r => k r
  | none => .fault (.noSuchInstance n)

/-- `inst[n]` for a command: a word whose `inst >= NINST` is refused (rule R77). -/
def withPort (n : Nat) (s : State) (k : Inst → Result) : Result :=
  match s.insts[n]? with
  | some r => k r
  | none => .refused (.noSuchPort n)

/-- `inst[n] <- f inst[n]`. -/
def modifyInst (n : Nat) (f : Inst → Inst) (s : State) : State :=
  { s with insts := s.insts.modify n f }

/-- `return v`: place `v` on the response port (rule R7). -/
def reply (v : Response) (s : State) : Result := .next { s with rsp := some v }

/-! ### The buffer space (20_memory.md) -/

/-- What a slot that is not listed holds. Rule R34 leaves the slots unspecified at reset; the model's reset state has
this byte in all of them (DESIGN CHOICE, assumption 10). -/
def Memory.blank : Byte := 0

/-- The canonical form of the buffer's cells: indices strictly rising, and no cell that holds what an unlisted slot
does. -/
abbrev Memory.wf (m : Memory) : Prop := (m.Pairwise fun x y => x.1 < y.1) ∧ ∀ c ∈ m, c.2 ≠ Memory.blank

/-- The byte of a slot. -/
def Memory.read : Memory → Nat → Byte
  | [], _ => Memory.blank
  | (b, v) :: m, a => if a = b then v else Memory.read m a

/-- List a byte under a slot, in its place. -/
def Memory.put : Memory → Nat → Byte → Memory
  | [], a, v => [(a, v)]
  | (b, u) :: m, a, v =>
    if a < b then (a, v) :: (b, u) :: m
    else if a = b then (a, v) :: m
    else (b, u) :: Memory.put m a v

/-- Store a byte in a slot, keeping the canonical form. -/
def Memory.write (m : Memory) (a : Nat) (v : Byte) : Memory :=
  if v = Memory.blank then m.filter (fun c => decide (c.1 ≠ a)) else Memory.put m a v

/-- `BufEmpty()` (rule R41). -/
def bufEmpty (s : State) : Bool := s.head == s.tail

/-- `BufFull()` (rule R41). -/
def bufFull (s : State) : Bool := nextIndex s.cfg s.tail == s.head

/-- `BufCount()` (rules R41, R163). -/
def bufCount (s : State) : Nat := (s.tail + s.cfg.cap - s.head) % s.cfg.cap

/-- `MemRead(idx, 1)` (rule R7). -/
def memRead (idx : Nat) (s : State) (k : Byte → Result) : Result :=
  if idx < s.cfg.cap then k (Memory.read s.buf idx) else .fault (.noSuchSlot idx)

/-- `MemWrite(idx, 1, v)` (rule R7). -/
def memWrite (idx : Nat) (v : Byte) (s : State) : Result :=
  if idx < s.cfg.cap then .next { s with buf := Memory.write s.buf idx v } else .fault (.noSuchSlot idx)

/-- `BufPush(n, v)` (rule R42). -/
def bufPush (n : Nat) (v : Byte) (s : State) : Result :=
  if bufFull s then .next (modifyInst n Inst.setOverflow s)
  else andThen (memWrite s.tail v s) fun s' =>
    .next { s' with tail := nextIndex s'.cfg s'.tail, stored := s'.stored + 1 }

/-- `BufFront()` (rule R43). -/
def bufFront (s : State) (k : Byte → Result) : Result := memRead s.head s k

/-- `BufPop()` (rule R43): the byte, and the state with `head` advanced. -/
def bufPop (s : State) (k : Byte → State → Result) : Result :=
  memRead s.head s fun v => k v { s with head := nextIndex s.cfg s.head }

/-- `head <- 0; tail <- 0` (rules R121, R164). -/
def resetIndices (s : State) : State := { s with head := 0, tail := 0, stored := 0 }

/-! ### Time and the pending latches -/

/-- The waveform of an input pin; a pin with none listed rests high (assumption 4). -/
def waveOf (s : State) (p : Pin) : Wave := (s.lineIn.lookup p).getD ⟨.H, [], .steady⟩

/-- `PinRead(p)`, now (rule R7). -/
def pinRead (p : Pin) (s : State) : Level := (waveOf s p).levelAt s.now

/-- The pending latch of a source over the instants `t` with `a < t <= b`: set by every edge on the source's pin,
whatever the enables are (rule R187). -/
def latch (s : State) (a b : Nat) (x : SourceId) (i : IntSource) : IntSource :=
  { i with pending := i.pending || (waveOf s (s.cfg.srcPin x)).edgeWithin a b }

/-- `n` cycles of `now` pass; every edge on the way sets its source's latch (rules R29, R187). -/
def advance (n : Nat) (s : State) : State :=
  { s with
    now := s.now + n
    src0 := latch s s.now (s.now + n) .s0 s.src0
    src1 := latch s s.now (s.now + n) .s1 s.src1 }

/-- The instants of the changes listed for the two receive lines. -/
def changeTimes (s : State) : List Nat :=
  ((waveOf s s.cfg.srcPin0).changes ++ (waveOf s s.cfg.srcPin1).changes).map Prod.fst

/-- Neither receive line moves any more after its last listed change. -/
def linesSteady (s : State) : Bool :=
  (waveOf s s.cfg.srcPin0).tail.start.isNone && (waveOf s s.cfg.srcPin1).tail.start.isNone

/-- The edges of the two receive lines in the next `bound` cycles. -/
def edgesAhead (bound : Nat) (s : State) : List Nat :=
  (waveOf s s.cfg.srcPin0).edgesWithin s.now (s.now + bound) ++
    (waveOf s s.cfg.srcPin1).edgesWithin s.now (s.now + bound)

/-- The cycles to the first edge of a receive line after `now`, at most `bound`. -/
def cyclesToEdge (bound : Nat) (s : State) : Nat :=
  (edgesAhead bound s).foldl (fun d t => min d (t - s.now)) bound

/-- The handler's `Delay` runs out: nothing pre-empts the handler (rules R91, R190). -/
def isrDelay (s : State) : State := { advance s.rxWait s with rxWait := 0 }

/-! ### Pins and the critical section -/

/-- `pin_out[p] <- v` in the list of output latches. -/
def setPin (p : Pin) (v : Level) : List (Pin × Level) → List (Pin × Level)
  | [] => [(p, v)]
  | (q, u) :: m => if p = q then (p, v) :: m else (q, u) :: setPin p v m

/-- `PinWrite(p, v)`, now (rules R7, R57). -/
def pinWrite (p : Pin) (v : Level) (s : State) : State :=
  { s with pinOut := setPin p v s.pinOut, wire := ⟨s.now, p, v⟩ :: s.wire }

/-- The level of an output pin at instant `t` from the `PinWrite`s since reset, `rest` its level at reset (rule R26). -/
def wireLevel (rest : Level) (p : Pin) (t : Nat) : List PinEvent → Level
  | [] => rest
  | e :: m => if e.pin = p ∧ e.time ≤ t then e.level else wireLevel rest p t m

/-- `s <- DisableInterrupts(); f; RestoreInterrupts(s)` (rules R7, R52). -/
def critical (f : State → State) (s : State) : State :=
  { f { s with gie := false } with gie := s.gie }

/-! ### The receive interrupt (60_exceptions.md) -/

/-- The interrupt bits of a source. -/
def source (s : State) : SourceId → IntSource
  | .s0 => s.src0
  | .s1 => s.src1

/-- Write the interrupt bits of a source. -/
def setSource (x : SourceId) (f : IntSource → IntSource) (s : State) : State :=
  match x with
  | .s0 => { s with src0 := f s.src0 }
  | .s1 => { s with src1 := f s.src1 }

/-- The fire condition of source `x` (rule R188). -/
def fires (s : State) (x : SourceId) : Bool :=
  s.gie && (source s x).enable && (source s x).pending && s.rxPhase == .idle

/-- The source whose interrupt is taken now, source 0 first (rules R188, R193). -/
def ready (s : State) : Option SourceId :=
  if fires s .s0 then some .s0 else if fires s .s1 then some .s1 else none

/-- Handler entry for source `x` (rules R189, R192). `rx_wait` counts the `LAT_ENTRY` cycles to the first pin read
(decision D34, assumption 12). -/
def enterHandler (x : SourceId) (s : State) : State :=
  let s' := setSource x (fun i => { i with pending := false }) s
  match s.active with
  | none => { s' with gie := true }
  | some n => { s' with gie := false, rxInst := n, rxPhase := .check, rxWait := s.cfg.latEntry }

/-- Handler return (rule R191). -/
def returnHandler (s : State) : State := { s with rxPhase := .idle, gie := true }

end Sys2Proof.Machine
end

