-- ==== Sys2Proof/Machine/Consumer.lean ====
section
/-! DEFINITION. The consumer operations READ, PEEK, AVAIL, FLUSH and STATUS (44_consumer_ops.md). -/

namespace Sys2Proof.Machine

open Sys2Proof

/-- `READ` on instance `n` (rules R160, R161). -/
def execRead (n : Nat) (s : State) : Result :=
  withPort n s fun _ =>
    if s.active ≠ some n then reply .noData s
    else if bufEmpty s then reply .noData s
    else bufPop s fun v s' => reply (.byte v) s'

/-- `PEEK` on instance `n` (rules R160, R162). -/
def execPeek (n : Nat) (s : State) : Result :=
  withPort n s fun _ =>
    if s.active ≠ some n then reply .noData s
    else if bufEmpty s then reply .noData s
    else bufFront s fun v => reply (.byte v) s

/-- `AVAIL` on instance `n` (rules R160, R163). -/
def execAvail (n : Nat) (s : State) : Result :=
  withPort n s fun _ =>
    if s.active ≠ some n then reply (.count 0) s else reply (.count (bufCount s)) s

/-- `FLUSH` on instance `n` (rules R160, R164). -/
def execFlush (n : Nat) (s : State) : Result :=
  withPort n s fun _ =>
    if s.active ≠ some n then reply .done s else reply .done (critical resetIndices s)

/-- `STATUS` on instance `n` (rules R75, R168). -/
def execStatus (n : Nat) (s : State) : Result :=
  withPort n s fun r => reply (.status (statusWord s.active n r)) s

end Sys2Proof.Machine
end

