-- ==== Sys2Proof/Machine/Sampler.lean ====
section
/-! DEFINITION. The bit-timed receive sampler: the phases of a handler run, the run, and the foreground delay that a
handler run can pre-empt (41_receive_sampler.md; 40_timing_and_delay.md rule R91; 10_state.md rule R13). -/

namespace Sys2Proof.Machine

open Sys2Proof

/-- `rx_pin(r)` (rule R22). -/
def rxPin (s : State) (r : Inst) : Pin := s.cfg.srcPin r.strap.rxSrc

/-- Phase `R_CHECK` at its instant, the level `c` read: go on to `R_CENTER`, or a spurious run (rules R101 to R103). -/
def rxCheck (c : Level) (s : State) : Result :=
  withInst s.rxInst s fun r =>
    if c = startLevel r.strap then
      .next { s with rxD := 0, rxPhase := .center, rxWait := delayCycles s.cfg r.profile.rxCentering }
    else .next (returnHandler s)

/-- Enter phase `R_BIT(k)` (rule R105). -/
def rxEnterBit (k : Fin 8) (s : State) : Result :=
  withInst s.rxInst s fun r =>
    .next { s with rxPhase := .bit k, rxK := k, rxWait := delayCycles s.cfg r.profile.rxIntrabit }

/-- End of phase `R_BIT(rx_k)`: the sample `v` sets or clears the bit, then the next phase (rules R105, R107). -/
def rxSample (v : Level) (s : State) : Result :=
  let s' := { s with rxD := sampleBit s.rxD s.rxK v }
  if s.rxK = 7 then
    withInst s'.rxInst s' fun r =>
      .next { s' with rxPhase := .stop, rxWait := delayCycles s'.cfg r.profile.rxStopbit }
  else rxEnterBit (s.rxK + 1) s'

/-- End of phase `R_STOP`: polarity (rule R107). -/
def rxStop (s : State) : Result :=
  withInst s.rxInst s fun r => .next { s with rxD := polarity r.strap s.rxD, rxPhase := .store }

/-- Phase `R_STORE`: push and return (rules R108, R191). -/
def rxStore (s : State) : Result :=
  withInst s.rxInst s fun _ => andThen (bufPush s.rxInst s.rxD s) fun s' => .next (returnHandler s')

/-- One phase of the handler: its delay, then the action that ends it, `v` the level a pin read there gives. No phase
is left to run once the handler has returned. -/
def rxPhaseWith (v : Level) (s : State) : Result :=
  match s.rxPhase with
  | .idle => .next s
  | .check => rxCheck v (isrDelay s)
  | .center => rxEnterBit 0 (isrDelay s)
  | .bit _ => rxSample v (isrDelay s)
  | .stop => rxStop (isrDelay s)
  | .store => rxStore s

/-- One phase of the handler on the line it samples (rules R101, R105, R114): the pin is read when the delay is over. -/
def rxPhaseStep (s : State) : Result :=
  withInst s.rxInst s fun r => rxPhaseWith (pinRead (rxPin s r) (isrDelay s)) s

/-- The phases in order, one level each; the levels of phases that read no pin are not used. -/
def rxPhases : List Level → State → Result
  | [], s => .next s
  | v :: vs, s => andThen (rxPhaseWith v s) (rxPhases vs)

/-- The whole handler (rule R116) as instance `rx_inst`: start check on `c`, eight samples, stop delay, store. -/
def runHandler (c : Level) (cells : Byte) (s : State) : Result :=
  rxPhases
    [c, .L, cellLevel cells 0, cellLevel cells 1, cellLevel cells 2, cellLevel cells 3, cellLevel cells 4,
      cellLevel cells 5, cellLevel cells 6, cellLevel cells 7, .L, .L]
    { s with rxPhase := .check }

/-- `RXISR`: a handler run that reads the cells of a frame `0abcdefgh1` (rules R60, R100, R116). -/
def execRxisr (cells : Byte) (s : State) : Result := runHandler .L cells s

/-- `RXISR_INV`: a handler run that reads the cells of a frame `1abcdefgh0` (rules R60, R100, R116). -/
def execRxisrInv (cells : Byte) (s : State) : Result := runHandler .H cells s

/-! ### What the handler reads -/

/-- `E`: the instant of the first pin read of a run waiting in `R_CHECK` (rules R100, R189). -/
def checkInstant (s : State) : Nat := s.now + s.rxWait

/-- `S_k` (rule R104). -/
def sampleInstant (s : State) (r : Inst) (k : Nat) : Nat :=
  checkInstant s + delayCycles s.cfg r.profile.rxCentering + (k + 1) * delayCycles s.cfg r.profile.rxIntrabit

/-- `Rt`: the instant a decoding run returns (rule R104). -/
def returnInstant (s : State) (r : Inst) : Nat := sampleInstant s r 7 + delayCycles s.cfg r.profile.rxStopbit

/-- The level sample `k` reads (rule R104). -/
def sampleLevel (s : State) (r : Inst) (k : Nat) : Level :=
  (waveOf s (rxPin s r)).levelAt (sampleInstant s r k)

/-- The eight sampled levels as a byte, bit `k` the level of sample `k` (rule R105). -/
def sampledCells (s : State) (r : Inst) : Byte :=
  BitVec.ofBool (sampleLevel s r 7).toBool ++ BitVec.ofBool (sampleLevel s r 6).toBool ++
  BitVec.ofBool (sampleLevel s r 5).toBool ++ BitVec.ofBool (sampleLevel s r 4).toBool ++
  BitVec.ofBool (sampleLevel s r 3).toBool ++ BitVec.ofBool (sampleLevel s r 2).toBool ++
  BitVec.ofBool (sampleLevel s r 1).toBool ++ BitVec.ofBool (sampleLevel s r 0).toBool

/-- The frame a handler run at `R_CHECK` reads off its line: the level at `E`, the eight samples, and a stop cell, which
no run reads (rule R110), at the level that ends such a frame (assumption 7). -/
def fetchFrame (s : State) (r : Inst) : FrameWord :=
  let c := (waveOf s (rxPin s r)).levelAt (checkInstant s)
  frameWord c (sampledCells s r) c.flip

/-! ### The foreground delay -/

/-- A whole handler run inside a foreground delay: entry, and unless nobody listens the handler on its line (rules R189
to R192). -/
def serveInterrupt (x : SourceId) (s : State) : Result :=
  let s' := enterHandler x s
  if s'.rxPhase = .idle then .next s'
  else
    withInst s'.rxInst s' fun r =>
      runHandler ((waveOf s' (rxPin s' r)).levelAt (checkInstant s')) (sampledCells s' r) s'

/-- Turns of a foreground `Delay` with its counter `fg_wait` (rules R13, R91): a ready interrupt is served first, else
time passes to the next edge of a receive line or the end of the delay. -/
def fgDelayLoop : Nat → State → Result
  | 0, s => .next s
  | fuel + 1, s =>
    match ready s with
    | some x => andThen (serveInterrupt x s) (fgDelayLoop fuel)
    | none =>
      if s.fgWait = 0 then .next s
      else
        let d := cyclesToEdge s.fgWait s
        fgDelayLoop fuel { advance d s with fgWait := s.fgWait - d }

/-- The turns of one step. On steady lines they suffice for the whole delay: each listed change can set both latches,
and each turn uses up a latch, a change or the delay (assumption 20). -/
def delayFuel (s : State) : Nat :=
  3 * (changeTimes s).length + 4 + if linesSteady s then 0 else 3 * s.fgWait

/-- What one step does of the current foreground `Delay` (rules R13, R91). With `gie = 0` nothing can interrupt it and it
runs out. With `gie = 1` it may be interrupted; an endless train of edges can keep it from ever ending, and then the
step ends within it and the next one goes on (assumption 20). -/
def fgDelay (s : State) : Result :=
  if s.gie then fgDelayLoop (delayFuel s) s else .next { advance s.fgWait s with fgWait := 0 }

/-- The foreground's `Delay` has ended and no interrupt comes before what follows it (rules R13, R188). -/
def delayOver (s : State) : Bool := s.fgWait == 0 && (ready s).isNone

/-- `Delay`, and then `k`; where the step ends within the delay, that is the step's next state. -/
def afterDelay (k : State → Result) (s : State) : Result :=
  andThen (fgDelay s) fun s' => if delayOver s' then k s' else .next s'

end Sys2Proof.Machine
end

