-- ==== Sys2Proof/Machine/Lifecycle.lean ====
section
/-! DEFINITION. The Active-Listener Registry and the configuration lifecycle: LISTEN, ISLISTEN, CONFIGURE, SHUTDOWN
(42_listen_and_lifecycle.md). -/

namespace Sys2Proof.Machine

open Sys2Proof

/-- Ownership of the buffer goes to instance `n`, unless it has it (rules R121, R122). -/
def takeOver (n : Nat) (s : State) : State :=
  if s.active = some n then s
  else critical (fun s => { resetIndices s with active := some n }) (modifyInst n Inst.clearOverflow s)

/-- `LISTEN` on instance `n` (rules R120 to R122). -/
def execListen (n : Nat) (s : State) : Result :=
  withPort n s fun _ => reply (.flag (s.active != some n)) (takeOver n s)

/-- `ISLISTEN` on instance `n` (rule R123). -/
def execIslisten (n : Nat) (s : State) : Result :=
  withPort n s fun _ => reply (.flag (s.active == some n)) s

/-- The four counts of instance `n` are written together (rule R86). -/
def setProfile (n : Nat) (p : Profile) (s : State) : State :=
  modifyInst n (fun r => { r with profile := p }) s

/-- The viable branch of `CONFIGURE`: sense, enable, `gie <- 1`, and the settle delay begins (rules R125, R126). -/
def beginSettle (n : Nat) (x : SourceId) (p : Profile) (s : State) : State :=
  let s' := setSource x (fun i => { i with sense := .anyEdge, enable := true }) s
  { s' with gie := true, cfgInst := n, cfgPhase := .settle, fgWait := delayCycles s'.cfg p.txDelay }

/-- The last part of `CONFIGURE`: `LISTEN`, its result discarded (rules R125, R127). -/
def finishConfigure (n : Nat) (s : State) : Result :=
  withInst n s fun _ => reply .done (takeOver n { s with cfgPhase := .idle })

/-- Phase `C_SETTLE`: the settle delay, then the last part (rules R126, R127). -/
def cfgPhaseStep (s : State) : Result :=
  match s.cfgPhase with
  | .idle => .next s
  | .settle => afterDelay (fun s' => finishConfigure s'.cfgInst s') s

/-- `CONFIGURE` on instance `n` (rules R124 to R127). -/
def execConfigure (n : Nat) (baud : BitVec 32) (s : State) : Result :=
  withPort n s fun r =>
    let p := lookupBaud s.cfg baud
    let s' := setProfile n p s
    if rxViable p then cfgPhaseStep (beginSettle n r.strap.rxSrc p s') else finishConfigure n s'

/-- `SHUTDOWN` on instance `n` (rule R128). -/
def execShutdown (n : Nat) (s : State) : Result :=
  withPort n s fun r =>
    reply .done { setSource r.strap.rxSrc (fun i => { i with enable := false }) s with gie := false }

end Sys2Proof.Machine
end

