-- ==== Sys2Proof/Machine/Transmit.lean ====
section
/-! DEFINITION. The transmit bit sequencer: WRITE (43_transmit_sequencer.md). -/

namespace Sys2Proof.Machine

open Sys2Proof

/-- Phase `T_START` at `T0`: save and clear `gie`, drive the start level, begin the start-bit delay (rules R142, R143). -/
def beginWrite (n : Nat) (r : Inst) (b : Byte) (s : State) : State :=
  let s' := pinWrite r.strap.txPin (startLevel r.strap)
    { s with txInst := n, txB := b, txSavedGie := s.gie, gie := false }
  { s' with txPhase := .start, fgWait := delayCycles s'.cfg (startCount s'.cfg r.profile) }

/-- Enter phase `T_BIT(k)`: drive data bit `k`, begin its delay (rule R144). -/
def txEnterBit (k : Fin 8) (s : State) : Result :=
  withInst s.txInst s fun r =>
    let s' := pinWrite r.strap.txPin (bitLevel r.strap (s.txB.getLsbD k.val)) s
    .next { s' with txPhase := .bit k, txK := k, fgWait := delayCycles s'.cfg r.profile.txDelay }

/-- Enter phase `T_STOP`: drive the idle level, restore `gie`, begin the stop-bit delay (rules R145, R146). -/
def txEnterStop (s : State) : Result :=
  withInst s.txInst s fun r =>
    let s' := pinWrite r.strap.txPin (idleLevel r.strap) s
    .next { s' with gie := s.txSavedGie, txPhase := .stop, fgWait := delayCycles s'.cfg r.profile.txDelay }

/-- One phase of `WRITE`: its delay, then the action that ends it (rules R143 to R146). -/
def txPhaseStep (s : State) : Result :=
  match s.txPhase with
  | .idle => .next s
  | .start => afterDelay (txEnterBit 0) s
  | .bit _ => afterDelay (fun s' => if s'.txK = 7 then txEnterStop s' else txEnterBit (s'.txK + 1) s') s
  | .stop => afterDelay (fun s' => reply (.count 1) { s' with txPhase := .idle }) s

/-- `WRITE` of `b` on instance `n` (rules R140, R141, R148): refused when unconfigured, else the start phase, eight data
phases and the stop phase. -/
def execWrite (n : Nat) (b : Byte) (s : State) : Result :=
  withPort n s fun r =>
    if r.profile.txDelay = 0 then reply (.count 0) (modifyInst n Inst.setWriteError s)
    else repeatStep txPhaseStep 10 (beginWrite n r b s)

end Sys2Proof.Machine
end

