-- ==== Sys2Proof/Machine/Dispatch.lean ====
section
/-! DEFINITION. One arm per row of the opcode table. -/

namespace Sys2Proof.Machine

def exec (i : Instr) (s : State) : Host.Outcome State Fault Refusal :=
  match i with
  | .configure n baud => Sys2Proof.Machine.execConfigure n baud s
  | .shutdown n => Sys2Proof.Machine.execShutdown n s
  | .listen n => Sys2Proof.Machine.execListen n s
  | .islisten n => Sys2Proof.Machine.execIslisten n s
  | .read n => Sys2Proof.Machine.execRead n s
  | .peek n => Sys2Proof.Machine.execPeek n s
  | .avail n => Sys2Proof.Machine.execAvail n s
  | .write n b => Sys2Proof.Machine.execWrite n b s
  | .flush n => Sys2Proof.Machine.execFlush n s
  | .status n => Sys2Proof.Machine.execStatus n s
  | .rxisr cells => Sys2Proof.Machine.execRxisr cells s
  | .rxisrInv cells => Sys2Proof.Machine.execRxisrInv cells s

end Sys2Proof.Machine
end

