-- ==== Sys2Proof/Machine/Sequence.lean ====
section
/-! DEFINITION. What happens next (00_scope.md rule R8; 60_exceptions.md rules R188, R193): an order among the handler, a
ready interrupt, a foreground operation in progress, the host's next command and the passing of time; and where an
instruction word has to stand to be the next one. Machine/Step.lean only follows it. -/

namespace Sys2Proof.Machine

open Sys2Proof

/-- What the machine does next: it has done it (`did`), or it runs an instruction in a state (`run`). -/
inductive Move where
  | did (r : Result)
  | run (i : Instr) (s : State)

/-- A decoded word is run; one that does not decode is refused (rule R77). -/
def runDecoded (d : Except DecodeError Instr) (s : State) : Move :=
  match d with
  | .ok i => .run i s
  | .error e => .did (.refused (.undecodable e))

/-- The handler waits in `R_CHECK`: it runs on the frame its line carries (rules R100, R116). -/
def handlerMove (s : State) : Move :=
  match s.insts[s.rxInst]? with
  | some r => runDecoded (decodeFrame (fetchFrame s r)) s
  | none => .did (.fault (.noSuchInstance s.rxInst))

/-- Nothing to do: time passes to the next edge of a receive line or the host's next command, and one cycle at least
(rule R8). -/
def idleAdvance (s : State) : State :=
  let bound := match s.script with
    | c :: _ => c.notBefore - s.now
    | [] => (changeTimes s).foldl max 0 - s.now
  advance (cyclesToEdge (max 1 bound) s) s

/-- The foreground is idle and the handler is not running: the host's next command, if it is due, else time passes
(rules R8, R71). -/
def hostMove (s : State) : Move :=
  match s.script with
  | c :: rest =>
    if c.notBefore ≤ s.now then runDecoded (decodeCommand c.word) { s with script := rest, rsp := none }
    else .did (.next (idleAdvance s))
  | [] => .did (.next (idleAdvance s))

/-- The straps as built. -/
def straps (s : State) : List Strap := s.insts.map Inst.strap

/-- What happens next. -/
def nextMove (s : State) : Move :=
  if configOk s.cfg (straps s) then
    if s.rxPhase = .check then handlerMove s
    else if s.rxPhase ≠ .idle then .did (rxPhaseStep s)
    else match ready s with
      | some x => .did (.next (enterHandler x s))
      | none =>
        if s.txPhase ≠ .idle then .did (txPhaseStep s)
        else if s.cfgPhase ≠ .idle then .did (cfgPhaseStep s)
        else hostMove s
  else .did (.refused .badConfiguration)

/-! ### Where the next instruction stands -/

/-- The foreground idle, the handler not running, and no interrupt ready. -/
def quiet (s : State) : State :=
  let calm := fun (i : IntSource) => { i with pending := i.pending && !(s.gie && i.enable) }
  { s with
    rxPhase := .idle, txPhase := .idle, cfgPhase := .idle
    src0 := calm s.src0, src1 := calm s.src1 }

/-- The host presents the command word `w` now. -/
def placeCommand (w : CommandWord) (s : State) : State :=
  { quiet s with script := ⟨s.now, w⟩ :: s.script }

/-- The instance a frame is placed for: the first one of the frame's polarity, else instance 0. -/
def frameInstance (start : Level) (s : State) : Nat :=
  (s.insts.findIdx? fun r => startLevel r.strap == start).getD 0

/-- A sampling period that tells the eight samples apart. -/
def sampleable (c : Config) (r : Inst) : Inst :=
  if delayCycles c r.profile.rxIntrabit = 0 then
    { r with profile := { r.profile with rxIntrabit := 1 } }
  else r

/-- A waveform on which a run of instance `r` that reads the start level now samples the cells of frame `w`. -/
def frameWave (w : FrameWord) (r : Inst) (s : State) : Wave :=
  let first := s.now + delayCycles s.cfg r.profile.rxCentering
  let d := delayCycles s.cfg r.profile.rxIntrabit
  let at_ := fun k => (if k = 0 then s.now + 1 else first + k * d + 1, cellLevel (dataCells w) k)
  ⟨Level.ofBool (w.getLsbD 9),
    [at_ 0, at_ 1, at_ 2, at_ 3, at_ 4, at_ 5, at_ 6, at_ 7, (first + 8 * d + 1, Level.ofBool (w.getLsbD 0))], .steady⟩

/-- The handler waits in `R_CHECK` on a line that carries the frame `w`. -/
def placeFrame (w : FrameWord) (s : State) : State :=
  let n := frameInstance (Level.ofBool (w.getLsbD 9)) s
  let s' := modifyInst n (sampleable s.cfg) { s with gie := false, rxPhase := .check, rxInst := n, rxWait := 0 }
  match s'.insts[n]? with
  | some r => { s' with lineIn := (rxPin s' r, frameWave w r s') :: s'.lineIn.filter (fun e => e.1 != rxPin s' r) }
  | none => s'

end Sys2Proof.Machine
end

