-- ==== Sys2Proof/Machine/Step.lean ====
section
/-! DEFINITION. One step of the machine, and the state in which a given instruction is the next one. -/

namespace Sys2Proof.Machine

open Sys2Proof

/-- One step: what happens next by `nextMove`, an instruction by `exec`. -/
def step (s : State) : Host.Outcome State Fault Refusal :=
  match nextMove s with
  | .did r => r
  | .run i s' => exec i s'

/-- `s` with the opcode-table word `w` of `nbits` bits placed as the next instruction: a line frame on the line of a
waiting handler, a command word as the host's next command (assumptions 3, 19). -/
def State.withFetchWord (s : State) (nbits w : Nat) : State :=
  if nbits ≤ 16 then placeFrame (BitVec.ofNat 10 w) s else placeCommand (BitVec.ofNat 40 w) s

end Sys2Proof.Machine
end

