-- ==== Sys2Proof/Safety.lean ====
section
/-! DEFINITION. What claims about the block are stated in: the invariants of 10_state.md rule R35, a run that stops, the
unread bytes in order, and correct reception (41_receive_sampler.md rule R112). -/

namespace Sys2Proof.Machine

open Sys2Proof

/-- `WRITE` is between its start level and its stop level: `T_START` or `T_BIT(k)` (rule R35 I-7). -/
def TxPhase.masking : TxPhase → Bool
  | .idle => false
  | .start => true
  | .bit _ => true
  | .stop => false

/-- The invariants of rule R35, with what they rest on: the configuration is one (R6, R22), the working registers of a
sequencer that is not idle name what exists (R11), and the buffer's cells are in canonical form. -/
structure Inv (s : State) : Prop where
  config      : configOk s.cfg (straps s) = true
  /-- I-1 -/
  head_lt     : s.head < s.cfg.cap
  /-- I-1 -/
  tail_lt     : s.tail < s.cfg.cap
  buf_wf      : Memory.wf s.buf
  buf_range   : ∀ c ∈ s.buf, c.1 < s.cfg.cap
  /-- I-3: `tail` is the slot of the next byte to store, and -/
  tail_stored : s.tail = s.stored % s.cfg.cap
  /-- no more bytes are unread than were stored since the indices were last 0: the unread slots are those of the last
  bytes stored. -/
  count_stored : bufCount s ≤ s.stored
  /-- I-4 -/
  active_lt   : ∀ n, s.active = some n → n < ninst s
  rxInst_lt   : s.rxPhase ≠ .idle → s.rxInst < ninst s
  rxK_eq      : ∀ k, s.rxPhase = .bit k → s.rxK = k
  txInst_lt   : s.txPhase ≠ .idle → s.txInst < ninst s
  txK_eq      : ∀ k, s.txPhase = .bit k → s.txK = k
  cfgInst_lt  : s.cfgPhase ≠ .idle → s.cfgInst < ninst s
  /-- I-5 -/
  oneOp       : s.txPhase = .idle ∨ s.cfgPhase = .idle
  /-- I-6 -/
  rxMasks     : s.rxPhase ≠ .idle → s.gie = false
  /-- I-7 -/
  txMasks     : s.txPhase.masking = true → s.gie = false ∧ s.rxPhase = .idle
  /-- I-8 -/
  pinsRest    : ∀ n r, s.insts[n]? = some r → s.txPhase.masking = false ∨ s.txInst ≠ n →
                  s.pinOut.lookup r.strap.txPin = some (idleLevel r.strap)
  /-- The trace of pin updates lies in the past. -/
  wirePast    : ∀ e ∈ s.wire, e.time ≤ s.now

/-- What a handler run leaves alone: the foreground's state, the registry, `head`, the pins, the sources' enables and
senses, the straps, the profiles and the write errors (rules R171, R172, R189, R197). -/
structure KeptByHandler (s t : State) : Prop where
  cfg        : t.cfg = s.cfg
  insts      : t.insts.map (fun r => (r.strap, r.profile, r.writeError)) =
                 s.insts.map (fun r => (r.strap, r.profile, r.writeError))
  active     : t.active = s.active
  head       : t.head = s.head
  pinOut     : t.pinOut = s.pinOut
  enable0    : t.src0.enable = s.src0.enable
  enable1    : t.src1.enable = s.src1.enable
  sense0     : t.src0.sense = s.src0.sense
  sense1     : t.src1.sense = s.src1.sense
  txInst     : t.txInst = s.txInst
  txB        : t.txB = s.txB
  txK        : t.txK = s.txK
  txSavedGie : t.txSavedGie = s.txSavedGie
  cfgInst    : t.cfgInst = s.cfgInst
  txPhase    : t.txPhase = s.txPhase
  cfgPhase   : t.cfgPhase = s.cfgPhase
  fgWait     : t.fgWait = s.fgWait
  lineIn     : t.lineIn = s.lineIn
  script     : t.script = s.script
  rsp        : t.rsp = s.rsp
  wire       : t.wire = s.wire

/-- The foreground is idle, the handler is not running (rule R12): the block takes a command. -/
def takesCommand (s : State) : Prop := s.rxPhase = .idle ∧ s.txPhase = .idle ∧ s.cfgPhase = .idle

/-- A step stops with a fault or a refusal. -/
def stops (s : State) : Prop := ∀ t, step s ≠ .next t

/-- The unread bytes, oldest first (rules R40, R43). -/
def unread (s : State) : List Byte :=
  (List.range (bufCount s)).map fun j => Memory.read s.buf ((s.head + j) % s.cfg.cap)

/-- The pin updates of a `WRITE` of `b` at `T0` with start cell `A` and bit cells `T` cycles long, newest first: start
level, eight data levels, stop level (rules R142 to R147). -/
def writeTrace (T0 A T : Nat) (t : Strap) (b : Byte) : List PinEvent :=
  [⟨T0 + A + 8 * T, t.txPin, idleLevel t⟩,
    ⟨T0 + A + 7 * T, t.txPin, bitLevel t (b.getLsbD 7)⟩, ⟨T0 + A + 6 * T, t.txPin, bitLevel t (b.getLsbD 6)⟩,
    ⟨T0 + A + 5 * T, t.txPin, bitLevel t (b.getLsbD 5)⟩, ⟨T0 + A + 4 * T, t.txPin, bitLevel t (b.getLsbD 4)⟩,
    ⟨T0 + A + 3 * T, t.txPin, bitLevel t (b.getLsbD 3)⟩, ⟨T0 + A + 2 * T, t.txPin, bitLevel t (b.getLsbD 2)⟩,
    ⟨T0 + A + 1 * T, t.txPin, bitLevel t (b.getLsbD 1)⟩, ⟨T0 + A + 0 * T, t.txPin, bitLevel t (b.getLsbD 0)⟩,
    ⟨T0, t.txPin, startLevel t⟩]

/-- The level of cell `j` of a frame of byte `b` in the polarity of `t` (rule R60). -/
def frameCell (t : Strap) (b : Byte) (j : Nat) : Level :=
  if j = 0 then startLevel t else if j ≤ 8 then bitLevel t (b.getLsbD (j - 1)) else idleLevel t

/-- The waveform carries a frame of `b`: cell `j` on the instants from `B j` to before `B (j + 1)` (rule R112). -/
def CarriesFrame (w : Wave) (t : Strap) (b : Byte) (B : Nat → Nat) : Prop :=
  ∀ j, j < 10 → ∀ u, B j ≤ u → u < B (j + 1) → w.levelAt u = frameCell t b j

/-- A frame of `b` with all rule R112 asks of its line: cells one after the other, rest before the start cell, and rest
from the stop cell on until the instant `next` of the next frame. -/
structure FrameOnLine (w : Wave) (t : Strap) (b : Byte) (B : Nat → Nat) (next : Nat) : Prop where
  rising : ∀ j, j < 10 → B j < B (j + 1)
  cells  : CarriesFrame w t b B
  before : 1 ≤ B 0 ∧ w.levelAt (B 0 - 1) = idleLevel t
  after  : ∀ u, B 9 ≤ u → u < next → w.levelAt u = idleLevel t

/-- (W1) and (W2) of rule R112: the start check and the samples fall in their cells. -/
structure SamplesInCells (B : Nat → Nat) (E : Nat) (S : Nat → Nat) : Prop where
  w1 : B 0 ≤ E ∧ E < B 1
  w2 : ∀ k, k < 8 → B (k + 1) ≤ S k ∧ S k < B (k + 2)

/-- `WellTuned` of rule R112, for a run with first read `E`, samples `S` and return `Rt`: (W1), (W2), and (W3), that the
handler returns no earlier than the start of the stop cell. -/
structure WellTuned (B : Nat → Nat) (E : Nat) (S : Nat → Nat) (Rt : Nat) : Prop extends SamplesInCells B E S where
  w3 : B 9 ≤ Rt

/-- The cell boundaries a `WRITE` at `B0` makes, its start cell `A` and its other cells `T` cycles long (rule R147). -/
def cellStart (B0 A T : Nat) (j : Nat) : Nat := if j = 0 then B0 else B0 + A + (j - 1) * T

/-- (W1'), (W2') and (W3') of rule R112: `WellTuned` in the counts of the receiver's profile `p` and the sender's counts
`A` and `T`, for a run whose first read comes `LAT_ENTRY` cycles after the frame began. -/
structure WellTunedCounts (c : Config) (p : Profile) (A T : Count) : Prop where
  w1 : c.latEntry < c.delayScale * A.toNat
  w2 : ∀ k, k < 8 →
    c.delayScale * (A.toNat + k * T.toNat) ≤
        c.latEntry + c.delayScale * (p.rxCentering.toNat + (k + 1) * p.rxIntrabit.toNat) ∧
      c.latEntry + c.delayScale * (p.rxCentering.toNat + (k + 1) * p.rxIntrabit.toNat) <
        c.delayScale * (A.toNat + (k + 1) * T.toNat)
  w3 : c.delayScale * (A.toNat + 8 * T.toNat) ≤
    c.latEntry + c.delayScale * (p.rxCentering.toNat + 8 * p.rxIntrabit.toNat + p.rxStopbit.toNat)

end Sys2Proof.Machine
end

