-- ==== Sys2Proof/Certificates/Slice0/Obligations.lean ====
section
/-! DEFINITION. What the model claims of the block, for the provers. Each docstring names the rules a statement rests on;
OBLIGATIONS.json lists them. -/

open Sys2Proof Sys2Proof.Machine

/-! ### Encoding (30_encoding.md) -/

/-- Words written out from the encodings of rules R60, R71 and R72 (95_test_vectors.md V-EN1 to V-EN18, V-FR1, V-FR2)
decode to what they stand for. The numbering of a frame's cells as bits is the model's (log entry 3). -/
def Obligations.SpecWordsDecode : Prop :=
  decode (.command 0x1000002580) = .ok (.configure 0 9600) ∧
  decode (.command 0x110001C200) = .ok (.configure 1 115200) ∧
  decode (.command 0x3100000000) = .ok (.listen 1) ∧
  decode (.command 0x8000000141) = .ok (.write 0 0x41) ∧
  decode (.command 0x50DEADBEEF) = .ok (.read 0) ∧
  decode (.command 0xB000000000) = .error (.reservedOpcode 0xB) ∧
  decode (.frame 0b0100000101) = .ok (.rxisr 0x41) ∧
  decode (.frame 0b1011111010) = .ok (.rxisrInv 0xBE)

/-- Decoding the encoding of a well-formed instruction gives it back, every operand at every value (rules R60, R71 to
R73). -/
def Obligations.DecodeOfEncode : Prop :=
  ∀ (ninst : Nat) (i : Instr), i.wellFormed ninst = true → decode (encode i) = .ok i

/-- Rule R72: a command word `w` selects the row with `w & mask = match`, with its operands in the fields of rules R71
and R73, and the opcodes `0x0` and `0xB` to `0xF` select none. -/
def Obligations.CommandRowsByMatchAndMask : Prop :=
  ∀ w : CommandWord,
    let n := ((w >>> 32) &&& 0xF#40).toNat
    let operand := (w &&& 0xFFFFFFFF#40).setWidth 32
    (w &&& 0xF000000000#40 = 0x1000000000#40 → decodeCommand w = .ok (.configure n operand)) ∧
    (w &&& 0xF000000000#40 = 0x2000000000#40 → decodeCommand w = .ok (.shutdown n)) ∧
    (w &&& 0xF000000000#40 = 0x3000000000#40 → decodeCommand w = .ok (.listen n)) ∧
    (w &&& 0xF000000000#40 = 0x4000000000#40 → decodeCommand w = .ok (.islisten n)) ∧
    (w &&& 0xF000000000#40 = 0x5000000000#40 → decodeCommand w = .ok (.read n)) ∧
    (w &&& 0xF000000000#40 = 0x6000000000#40 → decodeCommand w = .ok (.peek n)) ∧
    (w &&& 0xF000000000#40 = 0x7000000000#40 → decodeCommand w = .ok (.avail n)) ∧
    (w &&& 0xF000000000#40 = 0x8000000000#40 → decodeCommand w = .ok (.write n (operand.setWidth 8))) ∧
    (w &&& 0xF000000000#40 = 0x9000000000#40 → decodeCommand w = .ok (.flush n)) ∧
    (w &&& 0xF000000000#40 = 0xA000000000#40 → decodeCommand w = .ok (.status n)) ∧
    (w &&& 0xF000000000#40 = 0 ∨ 0xB000000000#40 ≤ w &&& 0xF000000000#40 →
      decodeCommand w = .error (.reservedOpcode (w.extractLsb' 36 4)))

/-- Rule R78: two command words that agree in opcode and instance decode alike when the operation has no operand, and
when it is `WRITE` and they agree in `operand[7:0]`. -/
def Obligations.UnusedOperandBitsIgnored : Prop :=
  ∀ w w' : CommandWord, w.extractLsb' 32 8 = w'.extractLsb' 32 8 →
    (w.extractLsb' 36 4 ≠ 0x1#4 ∧ w.extractLsb' 36 4 ≠ 0x8#4 → decodeCommand w = decodeCommand w') ∧
    (w.extractLsb' 36 4 = 0x8#4 → w.extractLsb' 0 8 = w'.extractLsb' 0 8 → decodeCommand w = decodeCommand w')

/-- Rule R77: a command word whose opcode is `0x0` or `0xB` to `0xF`, or whose `inst >= NINST`, is refused: the step has
no next state, so no state changes, no time passes and no response is defined. That a refused word ends the run, and the
script the word stands in, are the model's reading (log entries 16, 5). -/
def Obligations.UndecodableCommandRefused : Prop :=
  ∀ (s : State) (c : HostCommand) (rest : List HostCommand),
    configOk s.cfg (straps s) = true → takesCommand s → ready s = none →
    s.script = c :: rest → c.notBefore ≤ s.now →
    (c.word.extractLsb' 36 4 = 0x0#4 ∨ 0xB#4 ≤ c.word.extractLsb' 36 4 ∨ ninst s ≤ (c.word.extractLsb' 32 4).toNat) →
    ∃ e, step s = .refused e

/-- Rule R60: ten levels that are the frame of byte `b` in the polarity of an instance decode to the handler run of
that polarity, on the data cells' levels (bit `k` of the byte, complemented under inverse logic). The numbering of a
frame's cells as bits is the model's (log entry 3). -/
def Obligations.FrameDecodesByPolarity : Prop :=
  ∀ (t : Strap) (b : Byte) (w : FrameWord),
    (∀ j, j < 10 → w.getLsbD (9 - j) = (frameCell t b j).toBool) →
    decode (.frame w) = .ok (if t.inverse then .rxisrInv (~~~b) else .rxisr b)

/-! ### Reset (10_state.md rule R34, 70_reset_and_hazards.md rule R210) -/

/-- Rule R34, the values the spec gives, whatever it leaves unspecified: counts and flags 0, no listener, indices 0,
pins at their idle level, `gie = GIE_RESET`, both sources disabled, time 0, phases idle, no delay running. -/
def Obligations.ResetValues : Prop :=
  ∀ (b : Build) (u : PowerOn),
    let s := State.powerOn b u
    (∀ (n : Nat) (t : Strap), b.straps[n]? = some t → s.insts[n]? = some (Inst.mk t ⟨0, 0, 0, 0⟩ false false)) ∧
    s.active = none ∧ s.head = 0 ∧ s.tail = 0 ∧
    s.pinOut = b.straps.map (fun t => (t.txPin, idleLevel t)) ∧
    s.gie = b.cfg.gieReset ∧ s.src0.enable = false ∧ s.src1.enable = false ∧ s.now = 0 ∧
    s.rxPhase = .idle ∧ s.txPhase = .idle ∧ s.cfgPhase = .idle ∧ s.rxWait = 0 ∧ s.fgWait = 0

/-- The invariants hold after reset, in the model's reset state and in that of every build, whatever the spec leaves
unspecified but a buffer content in canonical form. The parameters of `State.reset` are the model's choice (log entry
2). -/
def Obligations.ResetMeetsInvariants : Prop :=
  Inv State.reset ∧
  ∀ (b : Build) (u : PowerOn), configOk b.cfg b.straps = true → Memory.wf u.buf →
    (∀ c ∈ u.buf, c.1 < b.cfg.cap) → Inv (State.powerOn b u)

/-- Rule R210: after reset no interrupt can fire, whatever `GIE_RESET` and the unspecified latches are. -/
def Obligations.NoInterruptAfterReset : Prop :=
  ∀ (b : Build) (u : PowerOn), ready (State.powerOn b u) = none

/-! ### Invariants and whole-machine rules -/

/-- Rule R35: the invariants are kept by every step. -/
def Obligations.StepKeepsInvariants : Prop :=
  ∀ s t : State, Inv s → step s = .next t → Inv t

/-- Rule R182: no step faults. (Every fault of the model is one of a state outside the invariants, log entry 11.) -/
def Obligations.NoStepFaults : Prop :=
  ∀ (s : State) (f : Fault), Inv s → step s ≠ .fault f

/-- Rule R182: every operation completes. A well-formed command answers a next state with the block idle again, and a
handler run of an existing instance answers one with the handler returned. Where an endless train of edges on a receive
line keeps the stop delay of a `WRITE` or the settle delay of a `CONFIGURE` from ending, the next state is one within
that delay (rule R13), and on steady lines the step from there completes the operation. That an operation is one step,
and where a step ends within a delay, is the model's reading (log entries 20, 23). -/
def Obligations.EveryOperationCompletes : Prop :=
  ∀ s : State, Inv s →
    (∀ i : Instr, i.wellFormed (ninst s) = true → i.target ≠ none → takesCommand s →
      ∃ t, exec i s = .next t ∧ (takesCommand t ∨
        linesSteady s = false ∧ t.rxPhase = .idle ∧
          ((∃ n b, i = .write n b ∧ t.txPhase = .stop) ∨ ∃ n baud, i = .configure n baud ∧ t.cfgPhase = .settle))) ∧
    (∀ i : Instr, i.wellFormed (ninst s) = true → i.target = none → s.rxInst < ninst s →
      ∃ t, exec i s = .next t ∧ t.rxPhase = .idle ∧ t.gie = true) ∧
    (linesSteady s = true → s.rxPhase = .idle → ready s = none → s.txPhase = .stop ∨ s.cfgPhase = .settle →
      ∃ t, step s = .next t ∧ takesCommand t)

/-- Rule R41: `BufEmpty()` iff `BufCount() = 0`, `BufFull()` iff `BufCount() = CAP - 1`, for the definitions of that
rule, the two about the count derived there from the definitions; and at most `CAP - 1` bytes are held. -/
def Obligations.EmptyAndFullByCount : Prop :=
  ∀ s : State, 2 ≤ s.cfg.cap → s.head < s.cfg.cap → s.tail < s.cfg.cap →
    (bufEmpty s = true ↔ s.head = s.tail) ∧
    (bufFull s = true ↔ (s.tail + 1) % s.cfg.cap = s.head) ∧
    bufCount s = (s.tail + s.cfg.cap - s.head) % s.cfg.cap ∧
    (bufEmpty s = true ↔ bufCount s = 0) ∧
    (bufFull s = true ↔ bufCount s = s.cfg.cap - 1) ∧ bufCount s ≤ s.cfg.cap - 1

/-- Rules R10, R22: no step changes a parameter or a strap, and the block never constrains the environment's lines
(rule R8). That they stand in the state is the model's layout (log entries 1, 4). -/
def Obligations.ParametersNeverChange : Prop :=
  ∀ s t : State, step s = .next t → t.cfg = s.cfg ∧ straps t = straps s ∧ t.lineIn = s.lineIn

/-- Rule R23: once it is not none, `active` never becomes none again. -/
def Obligations.OwnershipNeverLapses : Prop :=
  ∀ s t : State, step s = .next t → s.active ≠ none → t.active ≠ none

/-- Rules R131, R141: no step clears a write error. -/
def Obligations.WriteErrorIsSticky : Prop :=
  ∀ (s t : State) (n : Nat) (r : Inst), step s = .next t → s.insts[n]? = some r → r.writeError = true →
    ∃ r', t.insts[n]? = some r' ∧ r'.writeError = true

/-- Rules R15, R121, R131: a step that clears an instance's overflow flag makes it the active listener, which it was
not. -/
def Obligations.OverflowClearedByTakeoverOnly : Prop :=
  ∀ (s t : State) (n : Nat) (r r' : Inst), step s = .next t → s.insts[n]? = some r → t.insts[n]? = some r' →
    r.overflow = true → r'.overflow = false → t.active = some n ∧ s.active ≠ some n

/-- Rule R21: only `CONFIGURE` of an instance changes its profile. -/
def Obligations.ProfileChangedByConfigureOnly : Prop :=
  ∀ (i : Instr) (s t : State) (n : Nat), exec i s = .next t → (∀ baud, i ≠ .configure n baud) →
    (t.insts[n]?).map Inst.profile = (s.insts[n]?).map Inst.profile

/-- Rules R129 d, R184: only `CONFIGURE` enables a source and writes its sense, only `SHUTDOWN` disables one; and (rule
R131) of the operations that let no handler run inside them none clears a pending latch. -/
def Obligations.InterruptBitsWrittenByFewOnly : Prop :=
  ∀ (i : Instr) (s t : State) (x : SourceId), exec i s = .next t →
    ((∀ n baud, i ≠ .configure n baud) →
      ((source t x).enable = true → (source s x).enable = true) ∧ (source t x).sense = (source s x).sense) ∧
    ((∀ n, i ≠ .shutdown n) → (source s x).enable = true → (source t x).enable = true) ∧
    ((∀ n baud, i ≠ .configure n baud) → (∀ n b, i ≠ .write n b) →
      (source s x).pending = true → (source t x).pending = true)

/-! ### The step (00_scope.md rule R8, 60_exceptions.md rules R188 to R193) -/

/-- A step runs the decoded command: with the foreground idle, the handler not running, no interrupt ready and a
command due, it is `exec` of the decoded word in the state with the command taken and the response port empty. The list
of commands and the emptied port are the model's (log entries 5, 13). -/
def Obligations.StepRunsHostCommand : Prop :=
  ∀ (s : State) (c : HostCommand) (rest : List HostCommand) (i : Instr),
    configOk s.cfg (straps s) = true → takesCommand s → ready s = none →
    s.script = c :: rest → c.notBefore ≤ s.now → decode (.command c.word) = .ok i →
    step s = exec i { s with script := rest, rsp := none }

/-- A step runs the sampled frame: with the handler waiting in `R_CHECK` it is `exec` of the frame its line carries at
the instants of rule R104. That a run takes the sampled frame as its operand is the model's reading (log entry 7). -/
def Obligations.StepRunsSampledFrame : Prop :=
  ∀ (s : State) (r : Inst), configOk s.cfg (straps s) = true → s.rxPhase = .check → s.insts[s.rxInst]? = some r →
    ∃ i, decode (.frame (fetchFrame s r)) = .ok i ∧ step s = exec i s

/-- Rules R188, R193: a ready interrupt is taken before anything the foreground or the host does, source 0 before
source 1; it is ready when `gie`, its enable and its latch are all 1 and the handler is not running. -/
def Obligations.ReadyInterruptGoesFirst : Prop :=
  ∀ s : State, configOk s.cfg (straps s) = true → s.rxPhase = .idle → s.gie = true →
    (s.src0.enable = true ∧ s.src0.pending = true → step s = .next (enterHandler .s0 s)) ∧
    (¬(s.src0.enable = true ∧ s.src0.pending = true) → s.src1.enable = true ∧ s.src1.pending = true →
      step s = .next (enterHandler .s1 s))

/-- Rules R189, R192: handler entry. With a listener `n` it clears the latch taken and `gie`, and the handler waits as
`n` in `R_CHECK` for `LAT_ENTRY` cycles; with none only the latch taken is cleared and `gie` is 1. That `rx_wait`
counts `LAT_ENTRY` is the model's (log entry 12). -/
def Obligations.HandlerEntry : Prop :=
  ∀ s : State,
    (∀ n, s.active = some n →
      enterHandler .s0 s = { s with
        src0 := { s.src0 with pending := false }, gie := false, rxInst := n, rxPhase := .check,
        rxWait := s.cfg.latEntry } ∧
      enterHandler .s1 s = { s with
        src1 := { s.src1 with pending := false }, gie := false, rxInst := n, rxPhase := .check,
        rxWait := s.cfg.latEntry }) ∧
    (s.active = none →
      enterHandler .s0 s = { s with src0 := { s.src0 with pending := false }, gie := true } ∧
      enterHandler .s1 s = { s with src1 := { s.src1 with pending := false }, gie := true })

/-- Rules R190, R197, R35 I-6: while the handler runs a step leaves the foreground's state, the registry, `head`, the
pins, the enables, the straps, the profiles and the write errors as they are. -/
def Obligations.HandlerSuspendsForeground : Prop :=
  ∀ s t : State, s.rxPhase ≠ .idle → step s = .next t → KeptByHandler s t

/-- Rules R8, R187: when the block is idle and no command is due, a step lets time pass, at least one cycle and not over
an edge of a receive line nor over the next command's instant, and changes nothing else but the latches. How far an idle
step goes is the model's choice (log entry 6). -/
def Obligations.IdleStepLetsTimePass : Prop :=
  ∀ s : State, configOk s.cfg (straps s) = true → takesCommand s → ready s = none →
    (∀ c rest, s.script = c :: rest → s.now < c.notBefore) →
    ∃ d, 1 ≤ d ∧ step s = .next (advance d s) ∧
      (∀ x t, s.now < t → t < s.now + d → (waveOf s (s.cfg.srcPin x)).edgeAt t = false) ∧
      (∀ c rest, s.script = c :: rest → s.now + d ≤ c.notBefore)

/-! ### Time and operands (40_timing_and_delay.md) -/

/-- Rule R187: while time passes a source's latch is set by every edge on its pin, an instant at which the level differs
from the level one cycle before, whatever the enables are, and cleared by nothing. -/
def Obligations.EdgesAreLatched : Prop :=
  ∀ (s : State) (d : Nat) (x : SourceId),
    ((source (advance d s) x).pending = true ↔
      (source s x).pending = true ∨
      ∃ t, s.now < t ∧ t ≤ s.now + d ∧
        (waveOf s (s.cfg.srcPin x)).levelAt t ≠ (waveOf s (s.cfg.srcPin x)).levelAt (t - 1))

/-- Rule R90: the duration of a delay. -/
def Obligations.DelayDuration : Prop :=
  ∀ (c : Config) (n : Count),
    (1 ≤ n.toNat → delayCycles c n = c.delayScale * n.toNat) ∧ (n.toNat = 0 → delayCycles c n = c.delayZero)

/-- Rules R13, R91, R92: what one step does of a foreground delay. Its counter goes down by no more cycles than pass,
the foreground's state is as it was, the handler is not running and `gie` is as before it. On receive lines that come to
rest, and with `gie = 0` on any, the delay ends: its counter is 0 and no interrupt is ready. That a step can end within a
delay is the model's reading (log entry 20). -/
def Obligations.ForegroundDelayEnds : Prop :=
  ∀ s : State, Inv s → s.rxPhase = .idle →
    ∃ t, fgDelay s = .next t ∧ t.rxPhase = .idle ∧ t.gie = s.gie ∧ s.now + s.fgWait ≤ t.now + t.fgWait ∧
      KeptByHandler { s with fgWait := t.fgWait } t ∧
      (linesSteady s = true ∨ s.gie = false → t.fgWait = 0 ∧ ready t = none)

/-- Rule R94: the start-bit count is the exact sum of the unsigned `tx_delay` and the signed `START_ADJ`, kept to 16 bits
with wrap-around. -/
def Obligations.StartCountWraps : Prop :=
  ∀ (c : Config) (p : Profile),
    ((startCount c p).toNat : Int) = ((p.txDelay.toNat : Int) + c.startAdj.toInt) % 65536

/-- Rules R86, R87: the lookup gives the counts of the first row with exactly this baud, and zeros when there is none. -/
def Obligations.LookupIsExactFirstRow : Prop :=
  ∀ (c : Config) (baud : BitVec 32),
    (∀ before r after, c.table = before ++ r :: after → r.baud = baud → (∀ q ∈ before, q.baud ≠ baud) →
      lookupBaud c baud = r.profile) ∧
    ((∀ q ∈ c.table, q.baud ≠ baud) → lookupBaud c baud = ⟨0, 0, 0, 0⟩)

/-! ### The registry and the lifecycle (42_listen_and_lifecycle.md) -/

/-- Rule R121: a changing `LISTEN` clears the caller's own overflow flag, resets both indices, takes ownership, leaves
`gie` and everything else as it was, and returns 1. The count `stored` that starts again with the indices is the model's
own (log entry 26); that the operation is one step is the model's reading (log entry 23). -/
def Obligations.ListenTakesOver : Prop :=
  ∀ (s : State) (n : Nat), n < ninst s → s.active ≠ some n →
    exec (.listen n) s = .next { s with
      insts := s.insts.modify n (fun r => { r with overflow := false })
      head := 0, tail := 0, stored := 0, active := some n, rsp := some (.flag true) }

/-- Rule R122: a `LISTEN` of the active listener returns 0 and writes nothing. -/
def Obligations.ListenUnchanged : Prop :=
  ∀ (s : State) (n : Nat), n < ninst s → s.active = some n →
    exec (.listen n) s = .next { s with rsp := some (.flag false) }

/-- Rule R123: `ISLISTEN` returns whether the instance is the active listener and writes nothing. -/
def Obligations.IsListenAnswers : Prop :=
  ∀ (s : State) (n : Nat), n < ninst s →
    exec (.islisten n) s = .next { s with rsp := some (.flag (decide (s.active = some n))) }

/-- Rule R128: `SHUTDOWN` clears the enable of the instance's source and `gie`, and nothing else. -/
def Obligations.ShutdownDisables : Prop :=
  ∀ (s : State) (n : Nat) (r : Inst), s.insts[n]? = some r →
    (r.strap.rxSrc = .s0 → exec (.shutdown n) s = .next { s with
      src0 := { s.src0 with enable := false }, gie := false, rsp := some .done }) ∧
    (r.strap.rxSrc = .s1 → exec (.shutdown n) s = .next { s with
      src1 := { s.src1 with enable := false }, gie := false, rsp := some .done })

/-- Rules R86, R125, R127: a `CONFIGURE` whose row has no stop-bit count, or that has no row, writes the four counts,
touches no interrupt bit, takes no time and ends with `LISTEN`. The count `stored` is the model's own (log entry 26). -/
def Obligations.ConfigureNotViable : Prop :=
  ∀ (s : State) (n : Nat) (baud : BitVec 32), n < ninst s → (lookupBaud s.cfg baud).rxStopbit = 0 →
    (s.active = some n → exec (.configure n baud) s = .next { s with
      insts := s.insts.modify n (fun r => { r with profile := lookupBaud s.cfg baud })
      cfgPhase := .idle, rsp := some .done }) ∧
    (s.active ≠ some n → exec (.configure n baud) s = .next { s with
      insts := s.insts.modify n (fun r => { r with profile := lookupBaud s.cfg baud, overflow := false })
      head := 0, tail := 0, stored := 0, active := some n, cfgPhase := .idle, rsp := some .done })

/-- Rules R124 to R127, with the frame: a viable `CONFIGURE` completes, however its settle delay is interrupted. It has
written the four counts of its instance and no other profile, set its source's sense and enable and `gie`, let at least
`D(tx_delay)` cycles pass, and made the instance the active listener. Pins, transmit registers, write errors, other
instances' overflow flags but the former listener's, and the other source's enable are as before; the unread bytes stay
in front of what arrived in the delay if the instance had the buffer, and are gone if it had not. Where an endless train
of edges keeps the settle delay from ending, the next state is one within it, its first part done (log entries 20,
23). -/
def Obligations.ConfigureViable : Prop :=
  ∀ (s : State) (n : Nat) (r : Inst) (baud : BitVec 32), Inv s → takesCommand s → s.insts[n]? = some r →
    (lookupBaud s.cfg baud).rxStopbit ≠ 0 →
    let d := delayCycles s.cfg (lookupBaud s.cfg baud).txDelay
    ∃ t, exec (.configure n baud) s = .next t ∧ t.rxPhase = .idle ∧ t.txPhase = .idle ∧
      t.insts.map Inst.profile = (s.insts.map Inst.profile).set n (lookupBaud s.cfg baud) ∧
      t.insts.map Inst.strap = s.insts.map Inst.strap ∧ t.insts.map Inst.writeError = s.insts.map Inst.writeError ∧
      (∀ m, some m ≠ s.active → m ≠ n → (t.insts[m]?).map Inst.overflow = (s.insts[m]?).map Inst.overflow) ∧
      (source t r.strap.rxSrc).enable = true ∧ (source t r.strap.rxSrc).sense = .anyEdge ∧
      (∀ x, x ≠ r.strap.rxSrc → (source t x).enable = (source s x).enable ∧ (source t x).sense = (source s x).sense) ∧
      t.gie = true ∧
      t.cfg = s.cfg ∧ t.pinOut = s.pinOut ∧ t.wire = s.wire ∧ t.txInst = s.txInst ∧ t.txB = s.txB ∧ t.txK = s.txK ∧
      t.txSavedGie = s.txSavedGie ∧ t.script = s.script ∧ t.lineIn = s.lineIn ∧
      ((t.cfgPhase = .idle ∧ t.rsp = some .done ∧ t.active = some n ∧ s.now + d ≤ t.now ∧
          (s.active = some n → t.head = s.head ∧ unread s <+: unread t) ∧
          (s.active ≠ some n → t.head = 0 ∧ t.tail = 0 ∧ (t.insts[n]?).map Inst.overflow = some false)) ∨
        (linesSteady s = false ∧ t.cfgPhase = .settle ∧ t.cfgInst = n ∧ t.rsp = s.rsp ∧ t.active = s.active ∧
          s.now + d ≤ t.now + t.fgWait ∧ t.head = s.head ∧ unread s <+: unread t))

/-- Rules R124 to R127, R129: a viable `CONFIGURE` with no latch set and no edge on a receive line during the settle
delay ends exactly `D(tx_delay)` cycles later with its own writes and no other change: the four counts, its source's
sense and enable, `gie`, and, if the instance had not the buffer, its cleared overflow flag and both indices. The count
`stored` is the model's own (log entry 26). -/
def Obligations.ConfigureUndisturbed : Prop :=
  ∀ (s : State) (n : Nat) (r : Inst) (baud : BitVec 32),
    let p := lookupBaud s.cfg baud
    let d := delayCycles s.cfg p.txDelay
    s.insts[n]? = some r → p.rxStopbit ≠ 0 → s.src0.pending = false → s.src1.pending = false →
    (∀ x, (waveOf s (s.cfg.srcPin x)).edgeWithin s.now (s.now + d) = false) →
    exec (.configure n baud) s = .next { s with
      insts := s.insts.modify n (fun r =>
        { r with profile := p, overflow := if s.active = some n then r.overflow else false })
      active := some n
      head := if s.active = some n then s.head else 0
      tail := if s.active = some n then s.tail else 0
      stored := if s.active = some n then s.stored else 0
      src0 := if r.strap.rxSrc = .s0 then ⟨true, .anyEdge, false⟩ else s.src0
      src1 := if r.strap.rxSrc = .s1 then ⟨true, .anyEdge, false⟩ else s.src1
      gie := true, now := s.now + d, cfgInst := n, cfgPhase := .idle, fgWait := 0, rsp := some .done }

/-! ### Consumer operations (44_consumer_ops.md) -/

/-- Rule R160: on an instance that is not the active listener `READ` and `PEEK` return `NoData`, `AVAIL` 0, `FLUSH`
nothing, and nothing is written. -/
def Obligations.NotListeningGuard : Prop :=
  ∀ (s : State) (n : Nat), n < ninst s → s.active ≠ some n →
    exec (.read n) s = .next { s with rsp := some .noData } ∧
    exec (.peek n) s = .next { s with rsp := some .noData } ∧
    exec (.avail n) s = .next { s with rsp := some (.count 0) } ∧
    exec (.flush n) s = .next { s with rsp := some .done }

/-- Rule R161: on the active listener `READ` returns `NoData` when the buffer is empty and otherwise the byte of the slot
`head` names, advancing `head` and writing nothing else. -/
def Obligations.ReadPopsOldest : Prop :=
  ∀ (s : State) (n : Nat), n < ninst s → s.active = some n →
    (s.head = s.tail → exec (.read n) s = .next { s with rsp := some .noData }) ∧
    (s.head ≠ s.tail → s.head < s.cfg.cap → exec (.read n) s = .next { s with
      head := (s.head + 1) % s.cfg.cap, rsp := some (.byte (Memory.read s.buf s.head)) })

/-- Rule R162: `PEEK` returns what `READ` would and writes nothing. -/
def Obligations.PeekLeavesOldest : Prop :=
  ∀ (s : State) (n : Nat), n < ninst s → s.active = some n →
    (s.head = s.tail → exec (.peek n) s = .next { s with rsp := some .noData }) ∧
    (s.head ≠ s.tail → s.head < s.cfg.cap →
      exec (.peek n) s = .next { s with rsp := some (.byte (Memory.read s.buf s.head)) })

/-- Rule R163: `AVAIL` on the active listener returns the count of unread bytes, in `0 .. CAP-1`, and writes nothing. -/
def Obligations.AvailCounts : Prop :=
  ∀ (s : State) (n : Nat), n < ninst s → s.active = some n →
    exec (.avail n) s = .next { s with rsp := some (.count ((s.tail + s.cfg.cap - s.head) % s.cfg.cap)) } ∧
    (2 ≤ s.cfg.cap → (s.tail + s.cfg.cap - s.head) % s.cfg.cap ≤ s.cfg.cap - 1)

/-- Rule R164: `FLUSH` on the active listener resets both indices and leaves `gie`, the flags, the slots and everything
else as it was. The count `stored` that starts again with them is the model's own (log entry 26). -/
def Obligations.FlushResetsIndices : Prop :=
  ∀ (s : State) (n : Nat), n < ninst s → s.active = some n →
    exec (.flush n) s = .next { s with head := 0, tail := 0, stored := 0, rsp := some .done }

/-- Property S9 (rules R164, R163): `FLUSH` and then `AVAIL`, with no handler run between, always yields zero. -/
def Obligations.FlushThenAvailIsZero : Prop :=
  ∀ (s t : State) (n : Nat), exec (.flush n) s = .next t →
    exec (.avail n) t = .next { t with rsp := some (.count 0) }

/-- Rules R168, R75: `STATUS` returns the status word and writes nothing: bit 0 listening, 1 overflow, 2 write error,
3 reception configured, 4 transmission configured, 31:5 zero. -/
def Obligations.StatusWordBits : Prop :=
  ∀ (s : State) (n : Nat) (r : Inst), s.insts[n]? = some r →
    ∃ w : BitVec 32, exec (.status n) s = .next { s with rsp := some (.status w) } ∧
      (w.getLsbD 0 = true ↔ s.active = some n) ∧ w.getLsbD 1 = r.overflow ∧ w.getLsbD 2 = r.writeError ∧
      (w.getLsbD 3 = true ↔ r.profile.rxStopbit ≠ 0) ∧ (w.getLsbD 4 = true ↔ r.profile.txDelay ≠ 0) ∧
      ∀ k, 5 ≤ k → w.getLsbD k = false

/-- Rule R74: the response patterns. `NoData` is `0xFFFFFFFF` and never the pattern of a byte. -/
def Obligations.ResponsePatterns : Prop :=
  Response.done.word = 0 ∧ (Response.flag true).word = 1 ∧ (Response.flag false).word = 0 ∧
  Response.noData.word = 0xFFFFFFFF ∧
  (∀ v : Byte, (Response.byte v).word.toNat = v.toNat ∧ (Response.byte v).word ≠ Response.noData.word) ∧
  (∀ n, n < 2 ^ 32 → (Response.count n).word.toNat = n) ∧ ∀ w, (Response.status w).word = w

/-- Rules R42, R43, R166 a: bytes come out in the order they went in. A push that finds room puts its byte behind the
unread ones, a push at a full buffer changes none of them and sets the overflow flag of its instance, and a `READ` that
gives a byte takes the first. -/
def Obligations.BytesComeOutInOrder : Prop :=
  ∀ s : State, Inv s →
    (∀ (n : Nat) (v : Byte), bufFull s = false → ∃ t, bufPush n v s = .next t ∧ unread t = unread s ++ [v]) ∧
    (∀ (n : Nat) (v : Byte) (r : Inst), bufFull s = true → s.insts[n]? = some r →
      ∃ t, bufPush n v s = .next t ∧ unread t = unread s ∧ t.insts[n]? = some { r with overflow := true }) ∧
    (∀ n, n < ninst s → s.active = some n → s.head ≠ s.tail →
      ∃ t v, exec (.read n) s = .next t ∧ t.rsp = some (.byte v) ∧ unread s = v :: unread t)

/-- Frame of the operations that only look (rules R123, R162, R163, R168): they write the response port and nothing
else; `READ` (rule R161) writes `head` besides. Every byte of the buffer reads as before. -/
def Obligations.FrameOfConsumers : Prop :=
  ∀ (s t : State) (n : Nat),
    (∀ i, i ∈ [Instr.islisten n, .peek n, .avail n, .status n] → exec i s = .next t →
      t = { s with rsp := t.rsp } ∧ ∀ a, Memory.read t.buf a = Memory.read s.buf a) ∧
    (exec (.read n) s = .next t →
      t = { s with head := t.head, rsp := t.rsp } ∧ ∀ a, Memory.read t.buf a = Memory.read s.buf a)

/-- Frame of `LISTEN`, `FLUSH` and `SHUTDOWN` (rules R121, R128, R164, R213): they change no slot, no profile, no strap,
no write error, no pin, no working register, no phase and no time; `LISTEN` and `FLUSH` change no interrupt bit and no
`gie`, `SHUTDOWN` and `FLUSH` no registry and no flag. The count `stored` is the model's own (log entry 26). -/
def Obligations.FrameOfLifecycle : Prop :=
  ∀ (s t : State) (n : Nat) (i : Instr), i ∈ [Instr.listen n, .flush n, .shutdown n] → exec i s = .next t →
    (∀ a, Memory.read t.buf a = Memory.read s.buf a) ∧
    t = { s with
      insts := t.insts, active := t.active, head := t.head, tail := t.tail, stored := t.stored, gie := t.gie,
      src0 := t.src0, src1 := t.src1, rsp := t.rsp } ∧
    t.insts.map (fun r => (r.strap, r.profile, r.writeError)) =
      s.insts.map (fun r => (r.strap, r.profile, r.writeError)) ∧
    (i ≠ .shutdown n → t.gie = s.gie ∧ t.src0 = s.src0 ∧ t.src1 = s.src1) ∧
    (i ≠ .listen n → t.insts = s.insts ∧ t.active = s.active) ∧
    (i = .shutdown n → t.head = s.head ∧ t.tail = s.tail ∧ t.stored = s.stored)

/-! ### The receive sampler (41_receive_sampler.md) -/

/-- Rules R102, R191: a run that reads the idle level (a frame of the other polarity than the instance's) returns at
once: no cycles beyond the entry latency pass, `rx_d`, the buffer, the indices and every flag are unchanged, `gie` is 1.
That such a frame is a spurious run is the model's reading (log entry 7), as are the `rx_wait` cycles of the entry
latency (log entry 12). -/
def Obligations.SpuriousRunReturns : Prop :=
  ∀ (s : State) (r : Inst) (cells : Byte), s.insts[s.rxInst]? = some r →
    (r.strap.inverse = true → exec (.rxisr cells) s = .next { advance s.rxWait s with
      rxWait := 0, rxPhase := .idle, gie := true }) ∧
    (r.strap.inverse = false → exec (.rxisrInv cells) s = .next { advance s.rxWait s with
      rxWait := 0, rxPhase := .idle, gie := true })

/-- Rules R103 to R109, R42, R191: a run on a frame of the instance's polarity takes, beyond the entry latency,
`D(centering) + 8 D(intrabit) + D(stopbit)` cycles whatever the data, and with a free slot it stores the byte, the
levels of the data cells complemented under inverse logic, in the slot `tail` names and advances `tail`; `gie` is 1 and
nothing else changes but the latches and the receive registers. That the operand is the levels the run samples, so that
it is stored whatever the timing, is the model's reading (log entry 7; rules R112 and R230 say when they are the byte
sent), as are the `rx_wait` cycles of the entry latency (log entry 12); the count `stored` is the model's own (log entry
26). -/
def Obligations.DecodingRunStores : Prop :=
  ∀ (s : State) (r : Inst) (cells : Byte), s.insts[s.rxInst]? = some r → s.tail < s.cfg.cap → bufFull s = false →
    let d := s.rxWait + (delayCycles s.cfg r.profile.rxCentering + 8 * delayCycles s.cfg r.profile.rxIntrabit +
      delayCycles s.cfg r.profile.rxStopbit)
    (r.strap.inverse = false → exec (.rxisr cells) s = .next { advance d s with
      rxD := cells, rxK := 7, rxWait := 0, rxPhase := .idle, gie := true
      buf := Memory.write s.buf s.tail cells, tail := (s.tail + 1) % s.cfg.cap, stored := s.stored + 1 }) ∧
    (r.strap.inverse = true → exec (.rxisrInv cells) s = .next { advance d s with
      rxD := ~~~cells, rxK := 7, rxWait := 0, rxPhase := .idle, gie := true
      buf := Memory.write s.buf s.tail (~~~cells), tail := (s.tail + 1) % s.cfg.cap, stored := s.stored + 1 })

/-- Rules R42, R108: the same run at a full buffer sets the overflow flag of its instance and drops the byte. Operand and
entry latency are the model's reading as there (log entries 7, 12). -/
def Obligations.DecodingRunOverflows : Prop :=
  ∀ (s : State) (r : Inst) (cells : Byte), s.insts[s.rxInst]? = some r → bufFull s = true →
    let d := s.rxWait + (delayCycles s.cfg r.profile.rxCentering + 8 * delayCycles s.cfg r.profile.rxIntrabit +
      delayCycles s.cfg r.profile.rxStopbit)
    (r.strap.inverse = false → exec (.rxisr cells) s = .next { advance d s with
      rxD := cells, rxK := 7, rxWait := 0, rxPhase := .idle, gie := true
      insts := s.insts.modify s.rxInst (fun r => { r with overflow := true }) }) ∧
    (r.strap.inverse = true → exec (.rxisrInv cells) s = .next { advance d s with
      rxD := ~~~cells, rxK := 7, rxWait := 0, rxPhase := .idle, gie := true
      insts := s.insts.modify s.rxInst (fun r => { r with overflow := true }) })

/-- Frame of the handler (rules R100, R110, R172): a run leaves the foreground's state, the registry, `head`, the pins,
the enables, the profiles and the write errors as they are; every slot but the one `tail` named reads as before; no
instance but its own gets an overflow flag, and no flag is cleared. -/
def Obligations.FrameOfHandler : Prop :=
  ∀ (s t : State) (cells : Byte) (i : Instr), i ∈ [Instr.rxisr cells, .rxisrInv cells] → exec i s = .next t →
    KeptByHandler s t ∧ t.rxInst = s.rxInst ∧ t.gie = true ∧ t.rxPhase = .idle ∧
    (∀ a, a ≠ s.tail → Memory.read t.buf a = Memory.read s.buf a) ∧
    (∀ n, n ≠ s.rxInst → t.insts[n]? = s.insts[n]?) ∧
    (∀ (n : Nat) (r r' : Inst), s.insts[n]? = some r → t.insts[n]? = some r' → r.overflow = true → r'.overflow = true)

/-- Rules R101 to R108, R104, R116: from `R_CHECK` the twelve phases, each reading the line at the instant its own delay
ends, do exactly what `RXISR` does on the frame sampled at the instants `E` and `S_k`. It justifies the model's reading
of the operand (log entry 7) and uses that of the entry latency (log entry 12). -/
def Obligations.HandlerIsItsPhases : Prop :=
  ∀ (s : State) (r : Inst) (i : Instr), s.rxPhase = .check → s.insts[s.rxInst]? = some r →
    decode (.frame (fetchFrame s r)) = .ok i → repeatStep rxPhaseStep 12 s = exec i s

/-- Rules R112, R113: when the line carries a frame of `b` in the instance's polarity and the start check and the samples
fall in their cells (W1, W2), the step of the waiting handler pushes exactly `b`, or sets the overflow flag if the buffer
is full, and returns at `Rt`. When besides it returns no earlier than the start of the stop cell (W3), the run is the
active listener's and no next frame has begun, a follow-up run is spurious. `E` as `now + rx_wait` and the sampled operand
are the model's reading (log entries 12, 7). -/
def Obligations.WellTunedFrameIsReceived : Prop :=
  ∀ (s : State) (r : Inst) (b : Byte) (B : Nat → Nat),
    configOk s.cfg (straps s) = true → s.rxPhase = .check → s.insts[s.rxInst]? = some r → s.tail < s.cfg.cap →
    CarriesFrame (waveOf s (rxPin s r)) r.strap b B →
    SamplesInCells B (checkInstant s) (sampleInstant s r) →
    ∃ t, step s = .next t ∧ t.now = returnInstant s r ∧ t.rxPhase = .idle ∧ t.gie = true ∧
      (bufFull s = false → Memory.read t.buf s.tail = b ∧ t.tail = (s.tail + 1) % s.cfg.cap ∧
        t.insts = s.insts) ∧
      (bufFull s = true → t.buf = s.buf ∧ t.tail = s.tail ∧
        t.insts = s.insts.modify s.rxInst (fun r => { r with overflow := true })) ∧
      (∀ (next : Nat) (x : SourceId), FrameOnLine (waveOf s (rxPin s r)) r.strap b B next →
        WellTuned B (checkInstant s) (sampleInstant s r) (returnInstant s r) →
        returnInstant s r + s.cfg.latEntry < next → s.active = some s.rxInst → ready t = some x →
        ∃ u v, step t = .next u ∧ u.rxPhase = .check ∧ step u = .next v ∧ v.now = t.now + s.cfg.latEntry ∧
          v.rxPhase = .idle ∧ v.gie = true ∧ v.buf = t.buf ∧ v.tail = t.tail ∧ v.insts = t.insts)

/-! ### The transmit sequencer (43_transmit_sequencer.md) -/

/-- Rule R141: a `WRITE` of an unconfigured instance sets its write error, returns 0 and does nothing else. -/
def Obligations.WriteRefusedWhenUnconfigured : Prop :=
  ∀ (s : State) (n : Nat) (r : Inst) (b : Byte), s.insts[n]? = some r → r.profile.txDelay = 0 →
    exec (.write n b) s = .next { s with
      insts := s.insts.modify n (fun r => { r with writeError := true }), rsp := some (.count 0) }

/-- Rules R142 to R149: a successful `WRITE` completes, however its stop delay is interrupted. It returns 1 with the pin
at the idle level, `gie` as it was found and the block idle, not before `A + 9 T` cycles; its ten pin updates are the
only ones; other pins, `head`, the registry, the profiles, the write errors, the overflow flags of every instance but the
active listener, and the sources' enables are as before, and the unread bytes stay in front of what arrived in the stop
delay. Where an endless train of edges keeps the stop delay from ending, the next state is one within it with the rest
done (log entries 20, 23; the trace of pin updates is log entry 14). -/
def Obligations.WriteCompletes : Prop :=
  ∀ (s : State) (n : Nat) (r : Inst) (b : Byte), Inv s → takesCommand s → s.insts[n]? = some r →
    r.profile.txDelay ≠ 0 →
    let A := delayCycles s.cfg (startCount s.cfg r.profile)
    let T := delayCycles s.cfg r.profile.txDelay
    ∃ t, exec (.write n b) s = .next t ∧ t.rxPhase = .idle ∧ t.cfgPhase = .idle ∧ t.gie = s.gie ∧
      t.pinOut.lookup r.strap.txPin = some (idleLevel r.strap) ∧
      (∀ p, p ≠ r.strap.txPin → t.pinOut.lookup p = s.pinOut.lookup p) ∧
      t.wire = writeTrace s.now A T r.strap b ++ s.wire ∧
      t.head = s.head ∧ t.active = s.active ∧ unread s <+: unread t ∧
      t.insts.map (fun r => (r.strap, r.profile, r.writeError)) =
        s.insts.map (fun r => (r.strap, r.profile, r.writeError)) ∧
      (∀ m, some m ≠ s.active → (t.insts[m]?).map Inst.overflow = (s.insts[m]?).map Inst.overflow) ∧
      (∀ x, (source t x).enable = (source s x).enable ∧ (source t x).sense = (source s x).sense) ∧
      t.cfg = s.cfg ∧ t.cfgInst = s.cfgInst ∧ t.script = s.script ∧ t.lineIn = s.lineIn ∧
      ((t.txPhase = .idle ∧ t.rsp = some (.count 1) ∧ s.now + (A + 9 * T) ≤ t.now) ∨
        (linesSteady s = false ∧ t.txPhase = .stop ∧ t.rsp = s.rsp ∧ s.now + (A + 9 * T) ≤ t.now + t.fgWait))

/-- Rule R147: the waveform of a successful `WRITE` on its pin, read off the trace of pin updates: as before until
`T0`, the start level for `A` cycles, data bit `k` for the `k`th `T` cycles after that, then the idle level. The trace
is the model's own record (log entry 14). -/
def Obligations.WriteWaveform : Prop :=
  ∀ (s t : State) (n : Nat) (r : Inst) (b : Byte), Inv s → takesCommand s → s.insts[n]? = some r →
    r.profile.txDelay ≠ 0 → exec (.write n b) s = .next t →
    let A := delayCycles s.cfg (startCount s.cfg r.profile)
    let T := delayCycles s.cfg r.profile.txDelay
    let line := fun u => wireLevel (idleLevel r.strap) r.strap.txPin u t.wire
    (∀ u, u < s.now → line u = wireLevel (idleLevel r.strap) r.strap.txPin u s.wire) ∧
    (∀ u, s.now ≤ u → u < s.now + A → line u = startLevel r.strap) ∧
    (∀ k u, k < 8 → s.now + A + k * T ≤ u → u < s.now + A + (k + 1) * T →
      line u = bitLevel r.strap (b.getLsbD k)) ∧
    (∀ u, s.now + A + 8 * T ≤ u → line u = idleLevel r.strap)

/-- Rules R142 to R149, R152 c: a `WRITE` that no interrupt disturbs (`gie` is 0, or the sources enabled have no latch
set and no edge for `A + 9 T` cycles) ends exactly `A + 9 T` cycles later with `gie` as it was found, its transmit
registers, its pin at the idle level and its ten pin updates, and no other change but the latches. The trace of pin
updates is the model's own record (log entry 14). -/
def Obligations.WriteUndisturbed : Prop :=
  ∀ (s : State) (n : Nat) (r : Inst) (b : Byte), s.insts[n]? = some r → r.profile.txDelay ≠ 0 →
    let A := delayCycles s.cfg (startCount s.cfg r.profile)
    let T := delayCycles s.cfg r.profile.txDelay
    (s.gie = true → ∀ x, (source s x).enable = true →
      (source s x).pending = false ∧
        (waveOf s (s.cfg.srcPin x)).edgeWithin s.now (s.now + (A + 9 * T)) = false) →
    exec (.write n b) s = .next { advance (A + 9 * T) s with
      txInst := n, txB := b, txK := 7, txSavedGie := s.gie, txPhase := .idle, fgWait := 0, rsp := some (.count 1)
      pinOut := setPin r.strap.txPin (idleLevel r.strap) s.pinOut
      wire := writeTrace s.now A T r.strap b ++ s.wire }

/-- Rules R142 to R145, R150, R35 I-7: in every phase from `T_START` to `T_BIT(7)` of a `WRITE`, `gie` is 0, the handler
has not been entered, and neither the buffer nor an instance has changed. -/
def Obligations.NoReceptionWhileTransmitting : Prop :=
  ∀ (s : State) (n k : Nat) (r : Inst) (b : Byte), s.insts[n]? = some r → k ≤ 8 →
    ∃ t, repeatStep txPhaseStep k (beginWrite n r b s) = .next t ∧ t.gie = false ∧ t.rxPhase = s.rxPhase ∧
      t.txPhase.masking = true ∧ t.txSavedGie = s.gie ∧ t.buf = s.buf ∧ t.head = s.head ∧ t.tail = s.tail ∧
      t.insts = s.insts ∧ t.active = s.active

/-- Property S6 (rules R147, R112): a byte written by one block is received by a peer whose receive line follows the
sender's pin and whose polarity is the sender's, when the peer's start check and samples fall in the cells the sender
makes; and when (W1'), (W2') and (W3') hold of the two blocks' counts, all at least 1, and the peer's first read comes
`LAT_ENTRY` cycles after the frame began; then it also returns no earlier than the start of the stop cell. The trace the
sender's level is read off, the sampled operand and `E` as `now + rx_wait` are the model's (log entries 14, 7, 12). -/
def Obligations.WrittenByteIsReceivedByPeer : Prop :=
  ∀ (s t q : State) (n : Nat) (r r' : Inst) (b : Byte),
    Inv s → takesCommand s → s.insts[n]? = some r → r.profile.txDelay ≠ 0 → exec (.write n b) s = .next t →
    configOk q.cfg (straps q) = true → q.rxPhase = .check → q.insts[q.rxInst]? = some r' → q.tail < q.cfg.cap →
    bufFull q = false → r'.strap.inverse = r.strap.inverse →
    let A := delayCycles s.cfg (startCount s.cfg r.profile)
    let T := delayCycles s.cfg r.profile.txDelay
    let receives := fun q' : State => step q = .next q' ∧ q'.now = returnInstant q r' ∧
      Memory.read q'.buf q.tail = b ∧ q'.tail = (q.tail + 1) % q.cfg.cap
    (∀ u, (waveOf q (rxPin q r')).levelAt u = wireLevel (idleLevel r.strap) r.strap.txPin u t.wire) →
    (s.now ≤ checkInstant q → checkInstant q < s.now + A →
      (∀ k, k < 8 → s.now + A + k * T ≤ sampleInstant q r' k ∧ sampleInstant q r' k < s.now + A + (k + 1) * T) →
      ∃ q', receives q') ∧
    (q.cfg.delayScale = s.cfg.delayScale → startCount s.cfg r.profile ≠ 0 → r'.profile.rxCentering ≠ 0 →
      r'.profile.rxIntrabit ≠ 0 → r'.profile.rxStopbit ≠ 0 → checkInstant q = s.now + q.cfg.latEntry →
      WellTunedCounts q.cfg r'.profile (startCount s.cfg r.profile) r.profile.txDelay →
      ∃ q', receives q' ∧ s.now + A + 8 * T ≤ q'.now)
end

