-- ==== Sys2Proof/Laws/State.lean ====
section
/-! SUPPORT. What each named update of the state does to each field, and how operations are sequenced: one lemma per
field per update, so that no later proof unfolds a record update. -/

namespace Sys2Proof.Machine

open Sys2Proof

/-! ### Sequencing -/

@[simp] theorem andThen_next (s : State) (k : State → Result) : andThen (.next s) k = k s := rfl
@[simp] theorem andThen_fault (f : Fault) (k : State → Result) : andThen (.fault f) k = .fault f := rfl
@[simp] theorem andThen_refused (f : Refusal) (k : State → Result) : andThen (.refused f) k = .refused f := rfl

/-- From a next state of a sequence, the next state in between. -/
theorem andThen_eq_next (r : Result) (k : State → Result) (t : State) :
    andThen r k = .next t ↔ ∃ s, r = .next s ∧ k s = .next t := by
  cases r <;> simp [andThen]

theorem andThen_assoc (r : Result) (k l : State → Result) :
    andThen (andThen r k) l = andThen r fun s => andThen (k s) l := by
  cases r <;> rfl

@[simp] theorem repeatStep_zero (k : State → Result) (s : State) : repeatStep k 0 s = .next s := rfl

theorem repeatStep_succ (k : State → Result) (n : Nat) (s : State) :
    repeatStep k (n + 1) s = andThen (k s) (repeatStep k n) := rfl

/-! ### Instances -/

theorem withInst_of {n : Nat} {s : State} {r : Inst} (h : s.insts[n]? = some r) (k : Inst → Result) :
    withInst n s k = k r := by simp [withInst, h]

theorem withPort_of {n : Nat} {s : State} {r : Inst} (h : s.insts[n]? = some r) (k : Inst → Result) :
    withPort n s k = k r := by simp [withPort, h]

theorem withInst_eq_next {n : Nat} {s t : State} {k : Inst → Result} :
    withInst n s k = .next t ↔ ∃ r, s.insts[n]? = some r ∧ k r = .next t := by
  unfold withInst; cases s.insts[n]? <;> simp

theorem withPort_eq_next {n : Nat} {s t : State} {k : Inst → Result} :
    withPort n s k = .next t ↔ ∃ r, s.insts[n]? = some r ∧ k r = .next t := by
  unfold withPort; cases s.insts[n]? <;> simp

@[simp] theorem reply_eq_next (v : Response) (s t : State) :
    reply v s = .next t ↔ { s with rsp := some v } = t := by simp [reply]

@[simp] theorem source_s0 (s : State) : source s .s0 = s.src0 := rfl
@[simp] theorem source_s1 (s : State) : source s .s1 = s.src1 := rfl

@[simp] theorem latch_enable (s : State) (a b : Nat) (x : SourceId) (i : IntSource) :
    (latch s a b x i).enable = i.enable := rfl
@[simp] theorem latch_sense (s : State) (a b : Nat) (x : SourceId) (i : IntSource) :
    (latch s a b x i).sense = i.sense := rfl
@[simp] theorem setOverflow_strap (r : Inst) : r.setOverflow.strap = r.strap := rfl
@[simp] theorem setOverflow_profile (r : Inst) : r.setOverflow.profile = r.profile := rfl
@[simp] theorem setOverflow_writeError (r : Inst) : r.setOverflow.writeError = r.writeError := rfl
@[simp] theorem setOverflow_overflow (r : Inst) : r.setOverflow.overflow = true := rfl
@[simp] theorem clearOverflow_strap (r : Inst) : r.clearOverflow.strap = r.strap := rfl
@[simp] theorem clearOverflow_profile (r : Inst) : r.clearOverflow.profile = r.profile := rfl
@[simp] theorem clearOverflow_writeError (r : Inst) : r.clearOverflow.writeError = r.writeError := rfl
@[simp] theorem clearOverflow_overflow (r : Inst) : r.clearOverflow.overflow = false := rfl
@[simp] theorem setWriteError_strap (r : Inst) : r.setWriteError.strap = r.strap := rfl
@[simp] theorem setWriteError_profile (r : Inst) : r.setWriteError.profile = r.profile := rfl
@[simp] theorem setWriteError_overflow (r : Inst) : r.setWriteError.overflow = r.overflow := rfl
@[simp] theorem setWriteError_writeError (r : Inst) : r.setWriteError.writeError = true := rfl

/-! ### `modifyInst` -/

@[simp] theorem modifyInst_cfg (n : Nat) (f : Inst → Inst) (s : State) : (modifyInst n f s).cfg = s.cfg := rfl
@[simp] theorem modifyInst_insts (n : Nat) (f : Inst → Inst) (s : State) :
    (modifyInst n f s).insts = s.insts.modify n f := rfl
@[simp] theorem modifyInst_active (n : Nat) (f : Inst → Inst) (s : State) :
    (modifyInst n f s).active = s.active := rfl
@[simp] theorem modifyInst_head (n : Nat) (f : Inst → Inst) (s : State) : (modifyInst n f s).head = s.head := rfl
@[simp] theorem modifyInst_tail (n : Nat) (f : Inst → Inst) (s : State) : (modifyInst n f s).tail = s.tail := rfl
@[simp] theorem modifyInst_buf (n : Nat) (f : Inst → Inst) (s : State) : (modifyInst n f s).buf = s.buf := rfl
@[simp] theorem modifyInst_pinOut (n : Nat) (f : Inst → Inst) (s : State) :
    (modifyInst n f s).pinOut = s.pinOut := rfl
@[simp] theorem modifyInst_gie (n : Nat) (f : Inst → Inst) (s : State) : (modifyInst n f s).gie = s.gie := rfl
@[simp] theorem modifyInst_src0 (n : Nat) (f : Inst → Inst) (s : State) : (modifyInst n f s).src0 = s.src0 := rfl
@[simp] theorem modifyInst_src1 (n : Nat) (f : Inst → Inst) (s : State) : (modifyInst n f s).src1 = s.src1 := rfl
@[simp] theorem modifyInst_now (n : Nat) (f : Inst → Inst) (s : State) : (modifyInst n f s).now = s.now := rfl
@[simp] theorem modifyInst_rxInst (n : Nat) (f : Inst → Inst) (s : State) :
    (modifyInst n f s).rxInst = s.rxInst := rfl
@[simp] theorem modifyInst_rxD (n : Nat) (f : Inst → Inst) (s : State) : (modifyInst n f s).rxD = s.rxD := rfl
@[simp] theorem modifyInst_rxK (n : Nat) (f : Inst → Inst) (s : State) : (modifyInst n f s).rxK = s.rxK := rfl
@[simp] theorem modifyInst_txInst (n : Nat) (f : Inst → Inst) (s : State) :
    (modifyInst n f s).txInst = s.txInst := rfl
@[simp] theorem modifyInst_txB (n : Nat) (f : Inst → Inst) (s : State) : (modifyInst n f s).txB = s.txB := rfl
@[simp] theorem modifyInst_txK (n : Nat) (f : Inst → Inst) (s : State) : (modifyInst n f s).txK = s.txK := rfl
@[simp] theorem modifyInst_txSavedGie (n : Nat) (f : Inst → Inst) (s : State) :
    (modifyInst n f s).txSavedGie = s.txSavedGie := rfl
@[simp] theorem modifyInst_cfgInst (n : Nat) (f : Inst → Inst) (s : State) :
    (modifyInst n f s).cfgInst = s.cfgInst := rfl
@[simp] theorem modifyInst_rxPhase (n : Nat) (f : Inst → Inst) (s : State) :
    (modifyInst n f s).rxPhase = s.rxPhase := rfl
@[simp] theorem modifyInst_txPhase (n : Nat) (f : Inst → Inst) (s : State) :
    (modifyInst n f s).txPhase = s.txPhase := rfl
@[simp] theorem modifyInst_cfgPhase (n : Nat) (f : Inst → Inst) (s : State) :
    (modifyInst n f s).cfgPhase = s.cfgPhase := rfl
@[simp] theorem modifyInst_rxWait (n : Nat) (f : Inst → Inst) (s : State) :
    (modifyInst n f s).rxWait = s.rxWait := rfl
@[simp] theorem modifyInst_fgWait (n : Nat) (f : Inst → Inst) (s : State) :
    (modifyInst n f s).fgWait = s.fgWait := rfl
@[simp] theorem modifyInst_lineIn (n : Nat) (f : Inst → Inst) (s : State) :
    (modifyInst n f s).lineIn = s.lineIn := rfl
@[simp] theorem modifyInst_script (n : Nat) (f : Inst → Inst) (s : State) :
    (modifyInst n f s).script = s.script := rfl
@[simp] theorem modifyInst_rsp (n : Nat) (f : Inst → Inst) (s : State) : (modifyInst n f s).rsp = s.rsp := rfl
@[simp] theorem modifyInst_wire (n : Nat) (f : Inst → Inst) (s : State) : (modifyInst n f s).wire = s.wire := rfl
@[simp] theorem modifyInst_stored (n : Nat) (f : Inst → Inst) (s : State) : (modifyInst n f s).stored = s.stored := rfl

/-! ### `resetIndices` -/

@[simp] theorem resetIndices_cfg (s : State) : (resetIndices s).cfg = s.cfg := rfl
@[simp] theorem resetIndices_insts (s : State) : (resetIndices s).insts = s.insts := rfl
@[simp] theorem resetIndices_active (s : State) : (resetIndices s).active = s.active := rfl
@[simp] theorem resetIndices_head (s : State) : (resetIndices s).head = 0 := rfl
@[simp] theorem resetIndices_tail (s : State) : (resetIndices s).tail = 0 := rfl
@[simp] theorem resetIndices_buf (s : State) : (resetIndices s).buf = s.buf := rfl
@[simp] theorem resetIndices_pinOut (s : State) : (resetIndices s).pinOut = s.pinOut := rfl
@[simp] theorem resetIndices_gie (s : State) : (resetIndices s).gie = s.gie := rfl
@[simp] theorem resetIndices_src0 (s : State) : (resetIndices s).src0 = s.src0 := rfl
@[simp] theorem resetIndices_src1 (s : State) : (resetIndices s).src1 = s.src1 := rfl
@[simp] theorem resetIndices_now (s : State) : (resetIndices s).now = s.now := rfl
@[simp] theorem resetIndices_rxInst (s : State) : (resetIndices s).rxInst = s.rxInst := rfl
@[simp] theorem resetIndices_rxD (s : State) : (resetIndices s).rxD = s.rxD := rfl
@[simp] theorem resetIndices_rxK (s : State) : (resetIndices s).rxK = s.rxK := rfl
@[simp] theorem resetIndices_txInst (s : State) : (resetIndices s).txInst = s.txInst := rfl
@[simp] theorem resetIndices_txB (s : State) : (resetIndices s).txB = s.txB := rfl
@[simp] theorem resetIndices_txK (s : State) : (resetIndices s).txK = s.txK := rfl
@[simp] theorem resetIndices_txSavedGie (s : State) : (resetIndices s).txSavedGie = s.txSavedGie := rfl
@[simp] theorem resetIndices_cfgInst (s : State) : (resetIndices s).cfgInst = s.cfgInst := rfl
@[simp] theorem resetIndices_rxPhase (s : State) : (resetIndices s).rxPhase = s.rxPhase := rfl
@[simp] theorem resetIndices_txPhase (s : State) : (resetIndices s).txPhase = s.txPhase := rfl
@[simp] theorem resetIndices_cfgPhase (s : State) : (resetIndices s).cfgPhase = s.cfgPhase := rfl
@[simp] theorem resetIndices_rxWait (s : State) : (resetIndices s).rxWait = s.rxWait := rfl
@[simp] theorem resetIndices_fgWait (s : State) : (resetIndices s).fgWait = s.fgWait := rfl
@[simp] theorem resetIndices_lineIn (s : State) : (resetIndices s).lineIn = s.lineIn := rfl
@[simp] theorem resetIndices_script (s : State) : (resetIndices s).script = s.script := rfl
@[simp] theorem resetIndices_rsp (s : State) : (resetIndices s).rsp = s.rsp := rfl
@[simp] theorem resetIndices_wire (s : State) : (resetIndices s).wire = s.wire := rfl
@[simp] theorem resetIndices_stored (s : State) : (resetIndices s).stored = 0 := rfl

/-! ### `advance` -/

@[simp] theorem advance_cfg (n : Nat) (s : State) : (advance n s).cfg = s.cfg := rfl
@[simp] theorem advance_insts (n : Nat) (s : State) : (advance n s).insts = s.insts := rfl
@[simp] theorem advance_active (n : Nat) (s : State) : (advance n s).active = s.active := rfl
@[simp] theorem advance_head (n : Nat) (s : State) : (advance n s).head = s.head := rfl
@[simp] theorem advance_tail (n : Nat) (s : State) : (advance n s).tail = s.tail := rfl
@[simp] theorem advance_buf (n : Nat) (s : State) : (advance n s).buf = s.buf := rfl
@[simp] theorem advance_pinOut (n : Nat) (s : State) : (advance n s).pinOut = s.pinOut := rfl
@[simp] theorem advance_gie (n : Nat) (s : State) : (advance n s).gie = s.gie := rfl
@[simp] theorem advance_src0 (n : Nat) (s : State) : (advance n s).src0 = latch s s.now (s.now + n) .s0 s.src0 := rfl
@[simp] theorem advance_src1 (n : Nat) (s : State) : (advance n s).src1 = latch s s.now (s.now + n) .s1 s.src1 := rfl
@[simp] theorem advance_now (n : Nat) (s : State) : (advance n s).now = s.now + n := rfl
@[simp] theorem advance_rxInst (n : Nat) (s : State) : (advance n s).rxInst = s.rxInst := rfl
@[simp] theorem advance_rxD (n : Nat) (s : State) : (advance n s).rxD = s.rxD := rfl
@[simp] theorem advance_rxK (n : Nat) (s : State) : (advance n s).rxK = s.rxK := rfl
@[simp] theorem advance_txInst (n : Nat) (s : State) : (advance n s).txInst = s.txInst := rfl
@[simp] theorem advance_txB (n : Nat) (s : State) : (advance n s).txB = s.txB := rfl
@[simp] theorem advance_txK (n : Nat) (s : State) : (advance n s).txK = s.txK := rfl
@[simp] theorem advance_txSavedGie (n : Nat) (s : State) : (advance n s).txSavedGie = s.txSavedGie := rfl
@[simp] theorem advance_cfgInst (n : Nat) (s : State) : (advance n s).cfgInst = s.cfgInst := rfl
@[simp] theorem advance_rxPhase (n : Nat) (s : State) : (advance n s).rxPhase = s.rxPhase := rfl
@[simp] theorem advance_txPhase (n : Nat) (s : State) : (advance n s).txPhase = s.txPhase := rfl
@[simp] theorem advance_cfgPhase (n : Nat) (s : State) : (advance n s).cfgPhase = s.cfgPhase := rfl
@[simp] theorem advance_rxWait (n : Nat) (s : State) : (advance n s).rxWait = s.rxWait := rfl
@[simp] theorem advance_fgWait (n : Nat) (s : State) : (advance n s).fgWait = s.fgWait := rfl
@[simp] theorem advance_lineIn (n : Nat) (s : State) : (advance n s).lineIn = s.lineIn := rfl
@[simp] theorem advance_script (n : Nat) (s : State) : (advance n s).script = s.script := rfl
@[simp] theorem advance_rsp (n : Nat) (s : State) : (advance n s).rsp = s.rsp := rfl
@[simp] theorem advance_wire (n : Nat) (s : State) : (advance n s).wire = s.wire := rfl
@[simp] theorem advance_stored (n : Nat) (s : State) : (advance n s).stored = s.stored := rfl

/-! ### `isrDelay` -/

@[simp] theorem isrDelay_cfg (s : State) : (isrDelay s).cfg = s.cfg := rfl
@[simp] theorem isrDelay_insts (s : State) : (isrDelay s).insts = s.insts := rfl
@[simp] theorem isrDelay_active (s : State) : (isrDelay s).active = s.active := rfl
@[simp] theorem isrDelay_head (s : State) : (isrDelay s).head = s.head := rfl
@[simp] theorem isrDelay_tail (s : State) : (isrDelay s).tail = s.tail := rfl
@[simp] theorem isrDelay_buf (s : State) : (isrDelay s).buf = s.buf := rfl
@[simp] theorem isrDelay_pinOut (s : State) : (isrDelay s).pinOut = s.pinOut := rfl
@[simp] theorem isrDelay_gie (s : State) : (isrDelay s).gie = s.gie := rfl
@[simp] theorem isrDelay_src0 (s : State) : (isrDelay s).src0 = latch s s.now (s.now + s.rxWait) .s0 s.src0 := rfl
@[simp] theorem isrDelay_src1 (s : State) : (isrDelay s).src1 = latch s s.now (s.now + s.rxWait) .s1 s.src1 := rfl
@[simp] theorem isrDelay_now (s : State) : (isrDelay s).now = s.now + s.rxWait := rfl
@[simp] theorem isrDelay_rxInst (s : State) : (isrDelay s).rxInst = s.rxInst := rfl
@[simp] theorem isrDelay_rxD (s : State) : (isrDelay s).rxD = s.rxD := rfl
@[simp] theorem isrDelay_rxK (s : State) : (isrDelay s).rxK = s.rxK := rfl
@[simp] theorem isrDelay_txInst (s : State) : (isrDelay s).txInst = s.txInst := rfl
@[simp] theorem isrDelay_txB (s : State) : (isrDelay s).txB = s.txB := rfl
@[simp] theorem isrDelay_txK (s : State) : (isrDelay s).txK = s.txK := rfl
@[simp] theorem isrDelay_txSavedGie (s : State) : (isrDelay s).txSavedGie = s.txSavedGie := rfl
@[simp] theorem isrDelay_cfgInst (s : State) : (isrDelay s).cfgInst = s.cfgInst := rfl
@[simp] theorem isrDelay_rxPhase (s : State) : (isrDelay s).rxPhase = s.rxPhase := rfl
@[simp] theorem isrDelay_txPhase (s : State) : (isrDelay s).txPhase = s.txPhase := rfl
@[simp] theorem isrDelay_cfgPhase (s : State) : (isrDelay s).cfgPhase = s.cfgPhase := rfl
@[simp] theorem isrDelay_rxWait (s : State) : (isrDelay s).rxWait = 0 := rfl
@[simp] theorem isrDelay_fgWait (s : State) : (isrDelay s).fgWait = s.fgWait := rfl
@[simp] theorem isrDelay_lineIn (s : State) : (isrDelay s).lineIn = s.lineIn := rfl
@[simp] theorem isrDelay_script (s : State) : (isrDelay s).script = s.script := rfl
@[simp] theorem isrDelay_rsp (s : State) : (isrDelay s).rsp = s.rsp := rfl
@[simp] theorem isrDelay_wire (s : State) : (isrDelay s).wire = s.wire := rfl
@[simp] theorem isrDelay_stored (s : State) : (isrDelay s).stored = s.stored := rfl

/-! ### `pinWrite` -/

@[simp] theorem pinWrite_cfg (p : Pin) (v : Level) (s : State) : (pinWrite p v s).cfg = s.cfg := rfl
@[simp] theorem pinWrite_insts (p : Pin) (v : Level) (s : State) : (pinWrite p v s).insts = s.insts := rfl
@[simp] theorem pinWrite_active (p : Pin) (v : Level) (s : State) : (pinWrite p v s).active = s.active := rfl
@[simp] theorem pinWrite_head (p : Pin) (v : Level) (s : State) : (pinWrite p v s).head = s.head := rfl
@[simp] theorem pinWrite_tail (p : Pin) (v : Level) (s : State) : (pinWrite p v s).tail = s.tail := rfl
@[simp] theorem pinWrite_buf (p : Pin) (v : Level) (s : State) : (pinWrite p v s).buf = s.buf := rfl
@[simp] theorem pinWrite_pinOut (p : Pin) (v : Level) (s : State) :
    (pinWrite p v s).pinOut = setPin p v s.pinOut := rfl
@[simp] theorem pinWrite_gie (p : Pin) (v : Level) (s : State) : (pinWrite p v s).gie = s.gie := rfl
@[simp] theorem pinWrite_src0 (p : Pin) (v : Level) (s : State) : (pinWrite p v s).src0 = s.src0 := rfl
@[simp] theorem pinWrite_src1 (p : Pin) (v : Level) (s : State) : (pinWrite p v s).src1 = s.src1 := rfl
@[simp] theorem pinWrite_now (p : Pin) (v : Level) (s : State) : (pinWrite p v s).now = s.now := rfl
@[simp] theorem pinWrite_rxInst (p : Pin) (v : Level) (s : State) : (pinWrite p v s).rxInst = s.rxInst := rfl
@[simp] theorem pinWrite_rxD (p : Pin) (v : Level) (s : State) : (pinWrite p v s).rxD = s.rxD := rfl
@[simp] theorem pinWrite_rxK (p : Pin) (v : Level) (s : State) : (pinWrite p v s).rxK = s.rxK := rfl
@[simp] theorem pinWrite_txInst (p : Pin) (v : Level) (s : State) : (pinWrite p v s).txInst = s.txInst := rfl
@[simp] theorem pinWrite_txB (p : Pin) (v : Level) (s : State) : (pinWrite p v s).txB = s.txB := rfl
@[simp] theorem pinWrite_txK (p : Pin) (v : Level) (s : State) : (pinWrite p v s).txK = s.txK := rfl
@[simp] theorem pinWrite_txSavedGie (p : Pin) (v : Level) (s : State) :
    (pinWrite p v s).txSavedGie = s.txSavedGie := rfl
@[simp] theorem pinWrite_cfgInst (p : Pin) (v : Level) (s : State) : (pinWrite p v s).cfgInst = s.cfgInst := rfl
@[simp] theorem pinWrite_rxPhase (p : Pin) (v : Level) (s : State) : (pinWrite p v s).rxPhase = s.rxPhase := rfl
@[simp] theorem pinWrite_txPhase (p : Pin) (v : Level) (s : State) : (pinWrite p v s).txPhase = s.txPhase := rfl
@[simp] theorem pinWrite_cfgPhase (p : Pin) (v : Level) (s : State) : (pinWrite p v s).cfgPhase = s.cfgPhase := rfl
@[simp] theorem pinWrite_rxWait (p : Pin) (v : Level) (s : State) : (pinWrite p v s).rxWait = s.rxWait := rfl
@[simp] theorem pinWrite_fgWait (p : Pin) (v : Level) (s : State) : (pinWrite p v s).fgWait = s.fgWait := rfl
@[simp] theorem pinWrite_lineIn (p : Pin) (v : Level) (s : State) : (pinWrite p v s).lineIn = s.lineIn := rfl
@[simp] theorem pinWrite_script (p : Pin) (v : Level) (s : State) : (pinWrite p v s).script = s.script := rfl
@[simp] theorem pinWrite_rsp (p : Pin) (v : Level) (s : State) : (pinWrite p v s).rsp = s.rsp := rfl
@[simp] theorem pinWrite_wire (p : Pin) (v : Level) (s : State) :
    (pinWrite p v s).wire = ⟨s.now, p, v⟩ :: s.wire := rfl
@[simp] theorem pinWrite_stored (p : Pin) (v : Level) (s : State) : (pinWrite p v s).stored = s.stored := rfl

/-! ### `setSource` -/

@[simp] theorem setSource_cfg (x : SourceId) (f : IntSource → IntSource) (s : State) :
    (setSource x f s).cfg = s.cfg := by cases x <;> rfl
@[simp] theorem setSource_insts (x : SourceId) (f : IntSource → IntSource) (s : State) :
    (setSource x f s).insts = s.insts := by cases x <;> rfl
@[simp] theorem setSource_active (x : SourceId) (f : IntSource → IntSource) (s : State) :
    (setSource x f s).active = s.active := by cases x <;> rfl
@[simp] theorem setSource_head (x : SourceId) (f : IntSource → IntSource) (s : State) :
    (setSource x f s).head = s.head := by cases x <;> rfl
@[simp] theorem setSource_tail (x : SourceId) (f : IntSource → IntSource) (s : State) :
    (setSource x f s).tail = s.tail := by cases x <;> rfl
@[simp] theorem setSource_buf (x : SourceId) (f : IntSource → IntSource) (s : State) :
    (setSource x f s).buf = s.buf := by cases x <;> rfl
@[simp] theorem setSource_pinOut (x : SourceId) (f : IntSource → IntSource) (s : State) :
    (setSource x f s).pinOut = s.pinOut := by cases x <;> rfl
@[simp] theorem setSource_gie (x : SourceId) (f : IntSource → IntSource) (s : State) :
    (setSource x f s).gie = s.gie := by cases x <;> rfl
@[simp] theorem setSource_now (x : SourceId) (f : IntSource → IntSource) (s : State) :
    (setSource x f s).now = s.now := by cases x <;> rfl
@[simp] theorem setSource_rxInst (x : SourceId) (f : IntSource → IntSource) (s : State) :
    (setSource x f s).rxInst = s.rxInst := by cases x <;> rfl
@[simp] theorem setSource_rxD (x : SourceId) (f : IntSource → IntSource) (s : State) :
    (setSource x f s).rxD = s.rxD := by cases x <;> rfl
@[simp] theorem setSource_rxK (x : SourceId) (f : IntSource → IntSource) (s : State) :
    (setSource x f s).rxK = s.rxK := by cases x <;> rfl
@[simp] theorem setSource_txInst (x : SourceId) (f : IntSource → IntSource) (s : State) :
    (setSource x f s).txInst = s.txInst := by cases x <;> rfl
@[simp] theorem setSource_txB (x : SourceId) (f : IntSource → IntSource) (s : State) :
    (setSource x f s).txB = s.txB := by cases x <;> rfl
@[simp] theorem setSource_txK (x : SourceId) (f : IntSource → IntSource) (s : State) :
    (setSource x f s).txK = s.txK := by cases x <;> rfl
@[simp] theorem setSource_txSavedGie (x : SourceId) (f : IntSource → IntSource) (s : State) :
    (setSource x f s).txSavedGie = s.txSavedGie := by cases x <;> rfl
@[simp] theorem setSource_cfgInst (x : SourceId) (f : IntSource → IntSource) (s : State) :
    (setSource x f s).cfgInst = s.cfgInst := by cases x <;> rfl
@[simp] theorem setSource_rxPhase (x : SourceId) (f : IntSource → IntSource) (s : State) :
    (setSource x f s).rxPhase = s.rxPhase := by cases x <;> rfl
@[simp] theorem setSource_txPhase (x : SourceId) (f : IntSource → IntSource) (s : State) :
    (setSource x f s).txPhase = s.txPhase := by cases x <;> rfl
@[simp] theorem setSource_cfgPhase (x : SourceId) (f : IntSource → IntSource) (s : State) :
    (setSource x f s).cfgPhase = s.cfgPhase := by cases x <;> rfl
@[simp] theorem setSource_rxWait (x : SourceId) (f : IntSource → IntSource) (s : State) :
    (setSource x f s).rxWait = s.rxWait := by cases x <;> rfl
@[simp] theorem setSource_fgWait (x : SourceId) (f : IntSource → IntSource) (s : State) :
    (setSource x f s).fgWait = s.fgWait := by cases x <;> rfl
@[simp] theorem setSource_lineIn (x : SourceId) (f : IntSource → IntSource) (s : State) :
    (setSource x f s).lineIn = s.lineIn := by cases x <;> rfl
@[simp] theorem setSource_script (x : SourceId) (f : IntSource → IntSource) (s : State) :
    (setSource x f s).script = s.script := by cases x <;> rfl
@[simp] theorem setSource_rsp (x : SourceId) (f : IntSource → IntSource) (s : State) :
    (setSource x f s).rsp = s.rsp := by cases x <;> rfl
@[simp] theorem setSource_wire (x : SourceId) (f : IntSource → IntSource) (s : State) :
    (setSource x f s).wire = s.wire := by cases x <;> rfl
@[simp] theorem setSource_stored (x : SourceId) (f : IntSource → IntSource) (s : State) :
    (setSource x f s).stored = s.stored := by cases x <;> rfl

/-! ### `returnHandler` -/

@[simp] theorem returnHandler_cfg (s : State) : (returnHandler s).cfg = s.cfg := rfl
@[simp] theorem returnHandler_insts (s : State) : (returnHandler s).insts = s.insts := rfl
@[simp] theorem returnHandler_active (s : State) : (returnHandler s).active = s.active := rfl
@[simp] theorem returnHandler_head (s : State) : (returnHandler s).head = s.head := rfl
@[simp] theorem returnHandler_tail (s : State) : (returnHandler s).tail = s.tail := rfl
@[simp] theorem returnHandler_buf (s : State) : (returnHandler s).buf = s.buf := rfl
@[simp] theorem returnHandler_pinOut (s : State) : (returnHandler s).pinOut = s.pinOut := rfl
@[simp] theorem returnHandler_gie (s : State) : (returnHandler s).gie = true := rfl
@[simp] theorem returnHandler_src0 (s : State) : (returnHandler s).src0 = s.src0 := rfl
@[simp] theorem returnHandler_src1 (s : State) : (returnHandler s).src1 = s.src1 := rfl
@[simp] theorem returnHandler_now (s : State) : (returnHandler s).now = s.now := rfl
@[simp] theorem returnHandler_rxInst (s : State) : (returnHandler s).rxInst = s.rxInst := rfl
@[simp] theorem returnHandler_rxD (s : State) : (returnHandler s).rxD = s.rxD := rfl
@[simp] theorem returnHandler_rxK (s : State) : (returnHandler s).rxK = s.rxK := rfl
@[simp] theorem returnHandler_txInst (s : State) : (returnHandler s).txInst = s.txInst := rfl
@[simp] theorem returnHandler_txB (s : State) : (returnHandler s).txB = s.txB := rfl
@[simp] theorem returnHandler_txK (s : State) : (returnHandler s).txK = s.txK := rfl
@[simp] theorem returnHandler_txSavedGie (s : State) : (returnHandler s).txSavedGie = s.txSavedGie := rfl
@[simp] theorem returnHandler_cfgInst (s : State) : (returnHandler s).cfgInst = s.cfgInst := rfl
@[simp] theorem returnHandler_rxPhase (s : State) : (returnHandler s).rxPhase = .idle := rfl
@[simp] theorem returnHandler_txPhase (s : State) : (returnHandler s).txPhase = s.txPhase := rfl
@[simp] theorem returnHandler_cfgPhase (s : State) : (returnHandler s).cfgPhase = s.cfgPhase := rfl
@[simp] theorem returnHandler_rxWait (s : State) : (returnHandler s).rxWait = s.rxWait := rfl
@[simp] theorem returnHandler_fgWait (s : State) : (returnHandler s).fgWait = s.fgWait := rfl
@[simp] theorem returnHandler_lineIn (s : State) : (returnHandler s).lineIn = s.lineIn := rfl
@[simp] theorem returnHandler_script (s : State) : (returnHandler s).script = s.script := rfl
@[simp] theorem returnHandler_rsp (s : State) : (returnHandler s).rsp = s.rsp := rfl
@[simp] theorem returnHandler_wire (s : State) : (returnHandler s).wire = s.wire := rfl
@[simp] theorem returnHandler_stored (s : State) : (returnHandler s).stored = s.stored := rfl

/-! ### `enterHandler` -/

@[simp] theorem enterHandler_cfg (x : SourceId) (s : State) :
    (enterHandler x s).cfg = s.cfg := by unfold enterHandler; split <;> simp
@[simp] theorem enterHandler_insts (x : SourceId) (s : State) :
    (enterHandler x s).insts = s.insts := by unfold enterHandler; split <;> simp
@[simp] theorem enterHandler_active (x : SourceId) (s : State) :
    (enterHandler x s).active = s.active := by unfold enterHandler; split <;> simp
@[simp] theorem enterHandler_head (x : SourceId) (s : State) :
    (enterHandler x s).head = s.head := by unfold enterHandler; split <;> simp
@[simp] theorem enterHandler_tail (x : SourceId) (s : State) :
    (enterHandler x s).tail = s.tail := by unfold enterHandler; split <;> simp
@[simp] theorem enterHandler_buf (x : SourceId) (s : State) :
    (enterHandler x s).buf = s.buf := by unfold enterHandler; split <;> simp
@[simp] theorem enterHandler_pinOut (x : SourceId) (s : State) :
    (enterHandler x s).pinOut = s.pinOut := by unfold enterHandler; split <;> simp
@[simp] theorem enterHandler_now (x : SourceId) (s : State) :
    (enterHandler x s).now = s.now := by unfold enterHandler; split <;> simp
@[simp] theorem enterHandler_rxD (x : SourceId) (s : State) :
    (enterHandler x s).rxD = s.rxD := by unfold enterHandler; split <;> simp
@[simp] theorem enterHandler_rxK (x : SourceId) (s : State) :
    (enterHandler x s).rxK = s.rxK := by unfold enterHandler; split <;> simp
@[simp] theorem enterHandler_txInst (x : SourceId) (s : State) :
    (enterHandler x s).txInst = s.txInst := by unfold enterHandler; split <;> simp
@[simp] theorem enterHandler_txB (x : SourceId) (s : State) :
    (enterHandler x s).txB = s.txB := by unfold enterHandler; split <;> simp
@[simp] theorem enterHandler_txK (x : SourceId) (s : State) :
    (enterHandler x s).txK = s.txK := by unfold enterHandler; split <;> simp
@[simp] theorem enterHandler_txSavedGie (x : SourceId) (s : State) :
    (enterHandler x s).txSavedGie = s.txSavedGie := by unfold enterHandler; split <;> simp
@[simp] theorem enterHandler_cfgInst (x : SourceId) (s : State) :
    (enterHandler x s).cfgInst = s.cfgInst := by unfold enterHandler; split <;> simp
@[simp] theorem enterHandler_txPhase (x : SourceId) (s : State) :
    (enterHandler x s).txPhase = s.txPhase := by unfold enterHandler; split <;> simp
@[simp] theorem enterHandler_cfgPhase (x : SourceId) (s : State) :
    (enterHandler x s).cfgPhase = s.cfgPhase := by unfold enterHandler; split <;> simp
@[simp] theorem enterHandler_fgWait (x : SourceId) (s : State) :
    (enterHandler x s).fgWait = s.fgWait := by unfold enterHandler; split <;> simp
@[simp] theorem enterHandler_lineIn (x : SourceId) (s : State) :
    (enterHandler x s).lineIn = s.lineIn := by unfold enterHandler; split <;> simp
@[simp] theorem enterHandler_script (x : SourceId) (s : State) :
    (enterHandler x s).script = s.script := by unfold enterHandler; split <;> simp
@[simp] theorem enterHandler_rsp (x : SourceId) (s : State) :
    (enterHandler x s).rsp = s.rsp := by unfold enterHandler; split <;> simp
@[simp] theorem enterHandler_wire (x : SourceId) (s : State) :
    (enterHandler x s).wire = s.wire := by unfold enterHandler; split <;> simp
@[simp] theorem enterHandler_stored (x : SourceId) (s : State) :
    (enterHandler x s).stored = s.stored := by unfold enterHandler; split <;> simp

/-! ### `takeOver` -/

@[simp] theorem takeOver_cfg (n : Nat) (s : State) :
    (takeOver n s).cfg = s.cfg := by unfold takeOver critical; split <;> simp_all
@[simp] theorem takeOver_active (n : Nat) (s : State) :
    (takeOver n s).active = some n := by unfold takeOver critical; split <;> simp_all
@[simp] theorem takeOver_buf (n : Nat) (s : State) :
    (takeOver n s).buf = s.buf := by unfold takeOver critical; split <;> simp_all
@[simp] theorem takeOver_pinOut (n : Nat) (s : State) :
    (takeOver n s).pinOut = s.pinOut := by unfold takeOver critical; split <;> simp_all
@[simp] theorem takeOver_gie (n : Nat) (s : State) :
    (takeOver n s).gie = s.gie := by unfold takeOver critical; split <;> simp_all
@[simp] theorem takeOver_src0 (n : Nat) (s : State) :
    (takeOver n s).src0 = s.src0 := by unfold takeOver critical; split <;> simp_all
@[simp] theorem takeOver_src1 (n : Nat) (s : State) :
    (takeOver n s).src1 = s.src1 := by unfold takeOver critical; split <;> simp_all
@[simp] theorem takeOver_now (n : Nat) (s : State) :
    (takeOver n s).now = s.now := by unfold takeOver critical; split <;> simp_all
@[simp] theorem takeOver_rxInst (n : Nat) (s : State) :
    (takeOver n s).rxInst = s.rxInst := by unfold takeOver critical; split <;> simp_all
@[simp] theorem takeOver_rxD (n : Nat) (s : State) :
    (takeOver n s).rxD = s.rxD := by unfold takeOver critical; split <;> simp_all
@[simp] theorem takeOver_rxK (n : Nat) (s : State) :
    (takeOver n s).rxK = s.rxK := by unfold takeOver critical; split <;> simp_all
@[simp] theorem takeOver_txInst (n : Nat) (s : State) :
    (takeOver n s).txInst = s.txInst := by unfold takeOver critical; split <;> simp_all
@[simp] theorem takeOver_txB (n : Nat) (s : State) :
    (takeOver n s).txB = s.txB := by unfold takeOver critical; split <;> simp_all
@[simp] theorem takeOver_txK (n : Nat) (s : State) :
    (takeOver n s).txK = s.txK := by unfold takeOver critical; split <;> simp_all
@[simp] theorem takeOver_txSavedGie (n : Nat) (s : State) :
    (takeOver n s).txSavedGie = s.txSavedGie := by unfold takeOver critical; split <;> simp_all
@[simp] theorem takeOver_cfgInst (n : Nat) (s : State) :
    (takeOver n s).cfgInst = s.cfgInst := by unfold takeOver critical; split <;> simp_all
@[simp] theorem takeOver_rxPhase (n : Nat) (s : State) :
    (takeOver n s).rxPhase = s.rxPhase := by unfold takeOver critical; split <;> simp_all
@[simp] theorem takeOver_txPhase (n : Nat) (s : State) :
    (takeOver n s).txPhase = s.txPhase := by unfold takeOver critical; split <;> simp_all
@[simp] theorem takeOver_cfgPhase (n : Nat) (s : State) :
    (takeOver n s).cfgPhase = s.cfgPhase := by unfold takeOver critical; split <;> simp_all
@[simp] theorem takeOver_rxWait (n : Nat) (s : State) :
    (takeOver n s).rxWait = s.rxWait := by unfold takeOver critical; split <;> simp_all
@[simp] theorem takeOver_fgWait (n : Nat) (s : State) :
    (takeOver n s).fgWait = s.fgWait := by unfold takeOver critical; split <;> simp_all
@[simp] theorem takeOver_lineIn (n : Nat) (s : State) :
    (takeOver n s).lineIn = s.lineIn := by unfold takeOver critical; split <;> simp_all
@[simp] theorem takeOver_script (n : Nat) (s : State) :
    (takeOver n s).script = s.script := by unfold takeOver critical; split <;> simp_all
@[simp] theorem takeOver_rsp (n : Nat) (s : State) :
    (takeOver n s).rsp = s.rsp := by unfold takeOver critical; split <;> simp_all
@[simp] theorem takeOver_wire (n : Nat) (s : State) :
    (takeOver n s).wire = s.wire := by unfold takeOver critical; split <;> simp_all

/-! ### `setProfile` -/

@[simp] theorem setProfile_cfg (n : Nat) (p : Profile) (s : State) : (setProfile n p s).cfg = s.cfg := rfl
@[simp] theorem setProfile_insts (n : Nat) (p : Profile) (s : State) :
    (setProfile n p s).insts = s.insts.modify n (fun r => { r with profile := p }) := rfl
@[simp] theorem setProfile_active (n : Nat) (p : Profile) (s : State) : (setProfile n p s).active = s.active := rfl
@[simp] theorem setProfile_head (n : Nat) (p : Profile) (s : State) : (setProfile n p s).head = s.head := rfl
@[simp] theorem setProfile_tail (n : Nat) (p : Profile) (s : State) : (setProfile n p s).tail = s.tail := rfl
@[simp] theorem setProfile_buf (n : Nat) (p : Profile) (s : State) : (setProfile n p s).buf = s.buf := rfl
@[simp] theorem setProfile_pinOut (n : Nat) (p : Profile) (s : State) : (setProfile n p s).pinOut = s.pinOut := rfl
@[simp] theorem setProfile_gie (n : Nat) (p : Profile) (s : State) : (setProfile n p s).gie = s.gie := rfl
@[simp] theorem setProfile_src0 (n : Nat) (p : Profile) (s : State) : (setProfile n p s).src0 = s.src0 := rfl
@[simp] theorem setProfile_src1 (n : Nat) (p : Profile) (s : State) : (setProfile n p s).src1 = s.src1 := rfl
@[simp] theorem setProfile_now (n : Nat) (p : Profile) (s : State) : (setProfile n p s).now = s.now := rfl
@[simp] theorem setProfile_rxInst (n : Nat) (p : Profile) (s : State) : (setProfile n p s).rxInst = s.rxInst := rfl
@[simp] theorem setProfile_rxD (n : Nat) (p : Profile) (s : State) : (setProfile n p s).rxD = s.rxD := rfl
@[simp] theorem setProfile_rxK (n : Nat) (p : Profile) (s : State) : (setProfile n p s).rxK = s.rxK := rfl
@[simp] theorem setProfile_txInst (n : Nat) (p : Profile) (s : State) : (setProfile n p s).txInst = s.txInst := rfl
@[simp] theorem setProfile_txB (n : Nat) (p : Profile) (s : State) : (setProfile n p s).txB = s.txB := rfl
@[simp] theorem setProfile_txK (n : Nat) (p : Profile) (s : State) : (setProfile n p s).txK = s.txK := rfl
@[simp] theorem setProfile_txSavedGie (n : Nat) (p : Profile) (s : State) :
    (setProfile n p s).txSavedGie = s.txSavedGie := rfl
@[simp] theorem setProfile_cfgInst (n : Nat) (p : Profile) (s : State) : (setProfile n p s).cfgInst = s.cfgInst := rfl
@[simp] theorem setProfile_rxPhase (n : Nat) (p : Profile) (s : State) : (setProfile n p s).rxPhase = s.rxPhase := rfl
@[simp] theorem setProfile_txPhase (n : Nat) (p : Profile) (s : State) : (setProfile n p s).txPhase = s.txPhase := rfl
@[simp] theorem setProfile_cfgPhase (n : Nat) (p : Profile) (s : State) :
    (setProfile n p s).cfgPhase = s.cfgPhase := rfl
@[simp] theorem setProfile_rxWait (n : Nat) (p : Profile) (s : State) : (setProfile n p s).rxWait = s.rxWait := rfl
@[simp] theorem setProfile_fgWait (n : Nat) (p : Profile) (s : State) : (setProfile n p s).fgWait = s.fgWait := rfl
@[simp] theorem setProfile_lineIn (n : Nat) (p : Profile) (s : State) : (setProfile n p s).lineIn = s.lineIn := rfl
@[simp] theorem setProfile_script (n : Nat) (p : Profile) (s : State) : (setProfile n p s).script = s.script := rfl
@[simp] theorem setProfile_rsp (n : Nat) (p : Profile) (s : State) : (setProfile n p s).rsp = s.rsp := rfl
@[simp] theorem setProfile_wire (n : Nat) (p : Profile) (s : State) : (setProfile n p s).wire = s.wire := rfl
@[simp] theorem setProfile_stored (n : Nat) (p : Profile) (s : State) : (setProfile n p s).stored = s.stored := rfl

/-! ### `beginSettle` -/

@[simp] theorem beginSettle_cfg (n : Nat) (x : SourceId) (p : Profile) (s : State) :
    (beginSettle n x p s).cfg = s.cfg := by simp [beginSettle]
@[simp] theorem beginSettle_insts (n : Nat) (x : SourceId) (p : Profile) (s : State) :
    (beginSettle n x p s).insts = s.insts := by simp [beginSettle]
@[simp] theorem beginSettle_active (n : Nat) (x : SourceId) (p : Profile) (s : State) :
    (beginSettle n x p s).active = s.active := by simp [beginSettle]
@[simp] theorem beginSettle_head (n : Nat) (x : SourceId) (p : Profile) (s : State) :
    (beginSettle n x p s).head = s.head := by simp [beginSettle]
@[simp] theorem beginSettle_tail (n : Nat) (x : SourceId) (p : Profile) (s : State) :
    (beginSettle n x p s).tail = s.tail := by simp [beginSettle]
@[simp] theorem beginSettle_buf (n : Nat) (x : SourceId) (p : Profile) (s : State) :
    (beginSettle n x p s).buf = s.buf := by simp [beginSettle]
@[simp] theorem beginSettle_pinOut (n : Nat) (x : SourceId) (p : Profile) (s : State) :
    (beginSettle n x p s).pinOut = s.pinOut := by simp [beginSettle]
@[simp] theorem beginSettle_gie (n : Nat) (x : SourceId) (p : Profile) (s : State) :
    (beginSettle n x p s).gie = true := by simp [beginSettle]
@[simp] theorem beginSettle_now (n : Nat) (x : SourceId) (p : Profile) (s : State) :
    (beginSettle n x p s).now = s.now := by simp [beginSettle]
@[simp] theorem beginSettle_rxInst (n : Nat) (x : SourceId) (p : Profile) (s : State) :
    (beginSettle n x p s).rxInst = s.rxInst := by simp [beginSettle]
@[simp] theorem beginSettle_rxD (n : Nat) (x : SourceId) (p : Profile) (s : State) :
    (beginSettle n x p s).rxD = s.rxD := by simp [beginSettle]
@[simp] theorem beginSettle_rxK (n : Nat) (x : SourceId) (p : Profile) (s : State) :
    (beginSettle n x p s).rxK = s.rxK := by simp [beginSettle]
@[simp] theorem beginSettle_txInst (n : Nat) (x : SourceId) (p : Profile) (s : State) :
    (beginSettle n x p s).txInst = s.txInst := by simp [beginSettle]
@[simp] theorem beginSettle_txB (n : Nat) (x : SourceId) (p : Profile) (s : State) :
    (beginSettle n x p s).txB = s.txB := by simp [beginSettle]
@[simp] theorem beginSettle_txK (n : Nat) (x : SourceId) (p : Profile) (s : State) :
    (beginSettle n x p s).txK = s.txK := by simp [beginSettle]
@[simp] theorem beginSettle_txSavedGie (n : Nat) (x : SourceId) (p : Profile) (s : State) :
    (beginSettle n x p s).txSavedGie = s.txSavedGie := by simp [beginSettle]
@[simp] theorem beginSettle_cfgInst (n : Nat) (x : SourceId) (p : Profile) (s : State) :
    (beginSettle n x p s).cfgInst = n := by simp [beginSettle]
@[simp] theorem beginSettle_rxPhase (n : Nat) (x : SourceId) (p : Profile) (s : State) :
    (beginSettle n x p s).rxPhase = s.rxPhase := by simp [beginSettle]
@[simp] theorem beginSettle_txPhase (n : Nat) (x : SourceId) (p : Profile) (s : State) :
    (beginSettle n x p s).txPhase = s.txPhase := by simp [beginSettle]
@[simp] theorem beginSettle_cfgPhase (n : Nat) (x : SourceId) (p : Profile) (s : State) :
    (beginSettle n x p s).cfgPhase = .settle := by simp [beginSettle]
@[simp] theorem beginSettle_rxWait (n : Nat) (x : SourceId) (p : Profile) (s : State) :
    (beginSettle n x p s).rxWait = s.rxWait := by simp [beginSettle]
@[simp] theorem beginSettle_fgWait (n : Nat) (x : SourceId) (p : Profile) (s : State) :
    (beginSettle n x p s).fgWait = delayCycles s.cfg p.txDelay := by simp [beginSettle]
@[simp] theorem beginSettle_lineIn (n : Nat) (x : SourceId) (p : Profile) (s : State) :
    (beginSettle n x p s).lineIn = s.lineIn := by simp [beginSettle]
@[simp] theorem beginSettle_script (n : Nat) (x : SourceId) (p : Profile) (s : State) :
    (beginSettle n x p s).script = s.script := by simp [beginSettle]
@[simp] theorem beginSettle_rsp (n : Nat) (x : SourceId) (p : Profile) (s : State) :
    (beginSettle n x p s).rsp = s.rsp := by simp [beginSettle]
@[simp] theorem beginSettle_wire (n : Nat) (x : SourceId) (p : Profile) (s : State) :
    (beginSettle n x p s).wire = s.wire := by simp [beginSettle]
@[simp] theorem beginSettle_stored (n : Nat) (x : SourceId) (p : Profile) (s : State) :
    (beginSettle n x p s).stored = s.stored := by simp [beginSettle]

/-! ### `beginWrite` -/

@[simp] theorem beginWrite_cfg (n : Nat) (r : Inst) (b : Byte) (s : State) : (beginWrite n r b s).cfg = s.cfg := rfl
@[simp] theorem beginWrite_insts (n : Nat) (r : Inst) (b : Byte) (s : State) :
    (beginWrite n r b s).insts = s.insts := rfl
@[simp] theorem beginWrite_active (n : Nat) (r : Inst) (b : Byte) (s : State) :
    (beginWrite n r b s).active = s.active := rfl
@[simp] theorem beginWrite_head (n : Nat) (r : Inst) (b : Byte) (s : State) :
    (beginWrite n r b s).head = s.head := rfl
@[simp] theorem beginWrite_tail (n : Nat) (r : Inst) (b : Byte) (s : State) :
    (beginWrite n r b s).tail = s.tail := rfl
@[simp] theorem beginWrite_buf (n : Nat) (r : Inst) (b : Byte) (s : State) : (beginWrite n r b s).buf = s.buf := rfl
@[simp] theorem beginWrite_pinOut (n : Nat) (r : Inst) (b : Byte) (s : State) :
    (beginWrite n r b s).pinOut = setPin r.strap.txPin (startLevel r.strap) s.pinOut := rfl
@[simp] theorem beginWrite_gie (n : Nat) (r : Inst) (b : Byte) (s : State) : (beginWrite n r b s).gie = false := rfl
@[simp] theorem beginWrite_src0 (n : Nat) (r : Inst) (b : Byte) (s : State) :
    (beginWrite n r b s).src0 = s.src0 := rfl
@[simp] theorem beginWrite_src1 (n : Nat) (r : Inst) (b : Byte) (s : State) :
    (beginWrite n r b s).src1 = s.src1 := rfl
@[simp] theorem beginWrite_now (n : Nat) (r : Inst) (b : Byte) (s : State) : (beginWrite n r b s).now = s.now := rfl
@[simp] theorem beginWrite_rxInst (n : Nat) (r : Inst) (b : Byte) (s : State) :
    (beginWrite n r b s).rxInst = s.rxInst := rfl
@[simp] theorem beginWrite_rxD (n : Nat) (r : Inst) (b : Byte) (s : State) : (beginWrite n r b s).rxD = s.rxD := rfl
@[simp] theorem beginWrite_rxK (n : Nat) (r : Inst) (b : Byte) (s : State) : (beginWrite n r b s).rxK = s.rxK := rfl
@[simp] theorem beginWrite_txInst (n : Nat) (r : Inst) (b : Byte) (s : State) : (beginWrite n r b s).txInst = n := rfl
@[simp] theorem beginWrite_txB (n : Nat) (r : Inst) (b : Byte) (s : State) : (beginWrite n r b s).txB = b := rfl
@[simp] theorem beginWrite_txK (n : Nat) (r : Inst) (b : Byte) (s : State) : (beginWrite n r b s).txK = s.txK := rfl
@[simp] theorem beginWrite_txSavedGie (n : Nat) (r : Inst) (b : Byte) (s : State) :
    (beginWrite n r b s).txSavedGie = s.gie := rfl
@[simp] theorem beginWrite_cfgInst (n : Nat) (r : Inst) (b : Byte) (s : State) :
    (beginWrite n r b s).cfgInst = s.cfgInst := rfl
@[simp] theorem beginWrite_rxPhase (n : Nat) (r : Inst) (b : Byte) (s : State) :
    (beginWrite n r b s).rxPhase = s.rxPhase := rfl
@[simp] theorem beginWrite_txPhase (n : Nat) (r : Inst) (b : Byte) (s : State) :
    (beginWrite n r b s).txPhase = .start := rfl
@[simp] theorem beginWrite_cfgPhase (n : Nat) (r : Inst) (b : Byte) (s : State) :
    (beginWrite n r b s).cfgPhase = s.cfgPhase := rfl
@[simp] theorem beginWrite_rxWait (n : Nat) (r : Inst) (b : Byte) (s : State) :
    (beginWrite n r b s).rxWait = s.rxWait := rfl
@[simp] theorem beginWrite_fgWait (n : Nat) (r : Inst) (b : Byte) (s : State) :
    (beginWrite n r b s).fgWait = delayCycles s.cfg (startCount s.cfg r.profile) := rfl
@[simp] theorem beginWrite_lineIn (n : Nat) (r : Inst) (b : Byte) (s : State) :
    (beginWrite n r b s).lineIn = s.lineIn := rfl
@[simp] theorem beginWrite_script (n : Nat) (r : Inst) (b : Byte) (s : State) :
    (beginWrite n r b s).script = s.script := rfl
@[simp] theorem beginWrite_rsp (n : Nat) (r : Inst) (b : Byte) (s : State) : (beginWrite n r b s).rsp = s.rsp := rfl
@[simp] theorem beginWrite_wire (n : Nat) (r : Inst) (b : Byte) (s : State) :
    (beginWrite n r b s).wire = ⟨s.now, r.strap.txPin, startLevel r.strap⟩ :: s.wire := rfl
@[simp] theorem beginWrite_stored (n : Nat) (r : Inst) (b : Byte) (s : State) :
    (beginWrite n r b s).stored = s.stored := rfl

/-! ### The derived views -/

@[simp] theorem waveOf_advance (n : Nat) (s : State) (p : Pin) : waveOf (advance n s) p = waveOf s p := rfl
@[simp] theorem waveOf_isrDelay (s : State) (p : Pin) : waveOf (isrDelay s) p = waveOf s p := rfl
@[simp] theorem changeTimes_advance (n : Nat) (s : State) : changeTimes (advance n s) = changeTimes s := rfl

/-- A waveform depends on `line_in` alone. -/
theorem waveOf_congr {s t : State} (h : t.lineIn = s.lineIn) (p : Pin) : waveOf t p = waveOf s p := by
  simp [waveOf, h]

/-- The change instants depend on `line_in` and the parameters alone. -/
theorem changeTimes_congr {s t : State} (h : t.lineIn = s.lineIn) (hc : t.cfg = s.cfg) :
    changeTimes t = changeTimes s := by
  simp [changeTimes, waveOf_congr h, hc]

theorem linesSteady_congr {s t : State} (h : t.lineIn = s.lineIn) (hc : t.cfg = s.cfg) :
    linesSteady t = linesSteady s := by
  simp [linesSteady, waveOf_congr h, hc]

end Sys2Proof.Machine
end

