-- ==== Sys2Proof/Laws/Memory.lean ====
section
/-! SUPPORT. The buffer space: read after write, the canonical form, and the index arithmetic of the circular buffer. -/

namespace Sys2Proof.Machine

open Sys2Proof

theorem Memory.read_put_same (m : Memory) (a : Nat) (v : Byte) : Memory.read (Memory.put m a v) a = v := by
  induction m with
  | nil => simp [Memory.put, Memory.read]
  | cons c m ih =>
    obtain ⟨b, u⟩ := c
    simp only [Memory.put]
    split
    · simp [Memory.read]
    · split
      · simp [Memory.read]
      · rename_i h1 h2
        simp [Memory.read, h2, ih]

theorem Memory.read_put_other (m : Memory) {a x : Nat} (v : Byte) (h : x ≠ a) :
    Memory.read (Memory.put m a v) x = Memory.read m x := by
  induction m with
  | nil => simp [Memory.put, Memory.read, h]
  | cons c m ih =>
    obtain ⟨b, u⟩ := c
    simp only [Memory.put]
    split
    · simp [Memory.read, h]
    · split
      · rename_i h1 h2
        subst h2
        simp [Memory.read, h]
      · simp [Memory.read, ih]

/-- A slot taken from the list holds what unlisted slots do; the others stay. -/
theorem Memory.read_filter (m : Memory) (a x : Nat) :
    Memory.read (m.filter fun c => decide (c.1 ≠ a)) x = if x = a then Memory.blank else Memory.read m x := by
  induction m with
  | nil => simp [Memory.read]
  | cons c m ih =>
    obtain ⟨b, u⟩ := c
    by_cases h : b = a <;> by_cases hx : x = a <;> by_cases hb : x = b <;> simp_all [Memory.read]

theorem Memory.read_write_same (m : Memory) (a : Nat) (v : Byte) : Memory.read (Memory.write m a v) a = v := by
  unfold Memory.write
  split
  · rename_i h
    rw [Memory.read_filter, if_pos rfl, h]
  · exact Memory.read_put_same m a v

theorem Memory.read_write_other (m : Memory) {a x : Nat} (v : Byte) (h : x ≠ a) :
    Memory.read (Memory.write m a v) x = Memory.read m x := by
  unfold Memory.write
  split
  · rw [Memory.read_filter, if_neg h]
  · exact Memory.read_put_other m v h

/-- A byte put lists its slot and the slots listed before. -/
theorem Memory.mem_put {m : Memory} {a : Nat} {v : Byte} {c : Host.Cell} (h : c ∈ Memory.put m a v) :
    c = (a, v) ∨ c ∈ m := by
  induction m with
  | nil => simpa [Memory.put] using h
  | cons d m ih =>
    obtain ⟨b, u⟩ := d
    simp only [Memory.put] at h
    split at h
    · simpa using h
    · split at h
      · rcases List.mem_cons.1 h with h | h
        · exact .inl h
        · exact .inr (List.mem_cons_of_mem _ h)
      · rcases List.mem_cons.1 h with h | h
        · exact .inr (by simp [h])
        · exact (ih h).imp id (List.mem_cons_of_mem _)

/-- A write lists the slot written and the slots listed before. -/
theorem Memory.mem_write {m : Memory} {a : Nat} {v : Byte} {c : Host.Cell} (h : c ∈ Memory.write m a v) :
    c = (a, v) ∨ c ∈ m := by
  unfold Memory.write at h
  split at h
  · exact .inr (List.mem_of_mem_filter h)
  · exact Memory.mem_put h

theorem Memory.put_rising {m : Memory} (hm : m.Pairwise fun x y => x.1 < y.1) (a : Nat) (v : Byte) :
    (Memory.put m a v).Pairwise fun x y => x.1 < y.1 := by
  induction m with
  | nil => simp [Memory.put]
  | cons d m ih =>
    obtain ⟨b, u⟩ := d
    obtain ⟨hd, hm'⟩ := List.pairwise_cons.1 hm
    simp only [Memory.put]
    split
    · rename_i hab
      refine List.pairwise_cons.2 ⟨fun c hc => ?_, hm⟩
      rcases List.mem_cons.1 hc with rfl | hc
      · exact hab
      · exact Nat.lt_trans hab (hd c hc)
    · split
      · rename_i hab
        subst hab
        exact List.pairwise_cons.2 ⟨hd, hm'⟩
      · rename_i h1 h2
        refine List.pairwise_cons.2 ⟨fun c hc => ?_, ih hm'⟩
        rcases Memory.mem_put hc with rfl | hc
        · show b < a
          omega
        · exact hd c hc

theorem Memory.write_wf {m : Memory} (hm : Memory.wf m) (a : Nat) (v : Byte) : Memory.wf (Memory.write m a v) := by
  unfold Memory.write
  split
  · exact ⟨hm.1.filter _, fun c hc => hm.2 c (List.mem_of_mem_filter hc)⟩
  · rename_i hv
    refine ⟨Memory.put_rising hm.1 a v, fun c hc => ?_⟩
    rcases Memory.mem_put hc with rfl | hc
    · exact hv
    · exact hm.2 c hc

/-- The reset memory has the canonical form. -/
theorem State.reset_buf_wf : Memory.wf State.reset.buf := by decide

/-- A store keeps the canonical form and changes no other slot. -/
theorem memWrite_spec {idx : Nat} {v : Byte} {s t : State} (h : memWrite idx v s = .next t) :
    idx < s.cfg.cap ∧ t = { s with buf := Memory.write s.buf idx v } := by
  unfold memWrite at h
  split at h
  · rename_i hi
    exact ⟨hi, by simpa using h.symm⟩
  · simp at h

/-- What a read can do: it gives the byte of a slot that exists, and changes nothing. -/
theorem memRead_spec {idx : Nat} {s t : State} {k : Byte → Result} :
    memRead idx s k = .next t ↔ idx < s.cfg.cap ∧ k (Memory.read s.buf idx) = .next t := by
  unfold memRead
  by_cases hi : idx < s.cfg.cap <;> simp [hi]

/-- What a push can do (rule R42): drop the byte at a full buffer, else store it and advance `tail`. -/
theorem bufPush_spec {n : Nat} {v : Byte} {s t : State} (h : bufPush n v s = .next t) :
    (bufFull s = true ∧ t = modifyInst n Inst.setOverflow s) ∨
    (bufFull s = false ∧ s.tail < s.cfg.cap ∧
      t = { s with buf := Memory.write s.buf s.tail v, tail := nextIndex s.cfg s.tail, stored := s.stored + 1 }) := by
  unfold bufPush at h
  cases hf : bufFull s
  · simp only [hf, Bool.false_eq_true, if_false, andThen_eq_next] at h
    obtain ⟨u, hu, ht⟩ := h
    obtain ⟨hi, rfl⟩ := memWrite_spec hu
    exact .inr ⟨rfl, hi, by simpa using ht.symm⟩
  · simp only [hf, if_true] at h
    exact .inl ⟨rfl, by simpa using h.symm⟩

end Sys2Proof.Machine
end

