-- ==== Sys2Proof/Laws/Operands.lean ====
section
/-! SUPPORT. Levels, frames, bits, edges: one lemma per function of Machine/Operands.lean. -/

namespace Sys2Proof

@[simp] theorem Level.flip_flip (v : Level) : v.flip.flip = v := by cases v <;> rfl
@[simp] theorem Level.ofBool_toBool (v : Level) : Level.ofBool v.toBool = v := by cases v <;> rfl
@[simp] theorem Level.toBool_ofBool (b : Bool) : (Level.ofBool b).toBool = b := by cases b <;> rfl
theorem Level.flip_ne (v : Level) : v.flip ≠ v := by cases v <;> decide

/-- Cell 0 of a frame word. -/
theorem frameWord_start (c : Level) (d : Byte) (e : Level) : (frameWord c d e).getLsbD 9 = c.toBool := by
  simp only [frameWord, BitVec.getLsbD_append, BitVec.getLsbD_ofBool]; simp

/-- Cell 9 of a frame word. -/
theorem frameWord_stop (c : Level) (d : Byte) (e : Level) : (frameWord c d e).getLsbD 0 = e.toBool := by
  simp only [frameWord, BitVec.getLsbD_append, BitVec.getLsbD_ofBool]; simp

/-- The data cells of a frame word. -/
theorem dataCells_frameWord (c : Level) (d : Byte) (e : Level) : dataCells (frameWord c d e) = d := by
  apply BitVec.eq_of_getLsbD_eq
  intro i hi
  have : i = 0 ∨ i = 1 ∨ i = 2 ∨ i = 3 ∨ i = 4 ∨ i = 5 ∨ i = 6 ∨ i = 7 := by omega
  rcases this with rfl | rfl | rfl | rfl | rfl | rfl | rfl | rfl <;>
    (simp only [dataCells, frameWord, BitVec.getLsbD_append, BitVec.getLsbD_ofBool]; simp)

namespace Machine

@[simp] theorem sampleable_strap (c : Config) (r : Inst) : (sampleable c r).strap = r.strap := by
  unfold sampleable; split <;> rfl

theorem startLevel_flip (t : Strap) : (startLevel t).flip = idleLevel t := rfl

theorem startLevel_ne_idleLevel (t : Strap) : startLevel t ≠ idleLevel t := by
  unfold idleLevel; exact fun h => Level.flip_ne _ h.symm

/-- What a sample does to a byte: bit `k` becomes the level, the others stay (rule R105). -/
theorem sampleBit_getLsbD (d : Byte) (k : Fin 8) (v : Level) (j : Nat) (hj : j < 8) :
    (sampleBit d k v).getLsbD j = if j = k.val then v.toBool else d.getLsbD j := by
  have hk := k.isLt
  unfold sampleBit
  cases v <;> by_cases h : j = k.val <;>
    simp [h, Level.toBool, BitVec.getLsbD_shiftLeft, BitVec.getLsbD_one] <;> omega

/-- A run of the levels of a byte, sampled bit by bit from 0, is that byte (rules R103, R105). -/
theorem sampleBits_eq (cells : Byte) :
    sampleBit (sampleBit (sampleBit (sampleBit (sampleBit (sampleBit (sampleBit (sampleBit 0 0 (cellLevel cells 0))
      1 (cellLevel cells 1)) 2 (cellLevel cells 2)) 3 (cellLevel cells 3)) 4 (cellLevel cells 4))
      5 (cellLevel cells 5)) 6 (cellLevel cells 6)) 7 (cellLevel cells 7) = cells := by
  apply BitVec.eq_of_getLsbD_eq
  intro i hi
  have : i = 0 ∨ i = 1 ∨ i = 2 ∨ i = 3 ∨ i = 4 ∨ i = 5 ∨ i = 6 ∨ i = 7 := by omega
  rcases this with rfl | rfl | rfl | rfl | rfl | rfl | rfl | rfl <;>
    (simp (disch := decide) only [sampleBit_getLsbD, cellLevel, Level.toBool_ofBool]; simp)

/-- The listed level does not change where no change is listed. -/
theorem Wave.listedAt_eq_of_no_change (w : Wave) {a b : Nat} (hab : a ≤ b)
    (h : ∀ c ∈ w.changes, ¬(a < c.1 ∧ c.1 ≤ b)) : w.listedAt b = w.listedAt a := by
  obtain ⟨r, l, tl⟩ := w
  simp only [Wave.listedAt] at *
  induction l generalizing r with
  | nil => rfl
  | cons c l ih =>
    have hc := h c (by simp)
    have : (if c.1 ≤ b then c.2 else r) = (if c.1 ≤ a then c.2 else r) := by
      by_cases h1 : c.1 ≤ a
      · simp [h1, Nat.le_trans h1 hab]
      · have : ¬ c.1 ≤ b := fun h2 => hc ⟨by omega, h2⟩
        simp [h1, this]
    simp only [List.foldl_cons, this]
    exact ih _ fun d hd => h d (by simp [hd])

/-- Before its start a tail gives no level. -/
theorem Tail.levelAt_eq_none {w : Tail} {t : Nat} (h : ∀ a, w.start = some a → t < a) : w.levelAt t = none := by
  cases w with
  | steady => rfl
  | cyclic a _ => have := h a rfl; simp only [Tail.levelAt]; rw [if_neg (by omega)]
  | free a _ => have := h a rfl; simp only [Tail.levelAt]; rw [if_neg (by omega)]

/-- What `changesWithin` lists: the listed changes and the instants of the tail. -/
theorem Wave.mem_changesWithin {w : Wave} {a b t : Nat} :
    t ∈ w.changesWithin a b ↔
      a < t ∧ t ≤ b ∧ ((∃ c ∈ w.changes, c.1 = t) ∨ ∃ start, w.tail.start = some start ∧ start ≤ t) := by
  unfold Wave.changesWithin
  rw [List.mem_append]
  cases w.tail.start with
  | none => simp; tauto
  | some start =>
    simp only [List.mem_filter, List.mem_map, List.mem_range, Bool.and_eq_true, decide_eq_true_eq, Option.some.injEq,
      exists_eq_left', Prod.exists, exists_and_right, exists_eq_right]
    constructor
    · rintro (⟨⟨v, h⟩, h1, h2⟩ | ⟨k, h1, rfl⟩)
      · exact ⟨h1, h2, .inl ⟨v, h⟩⟩
      · exact ⟨by omega, by omega, .inr (by omega)⟩
    · rintro ⟨h1, h2, ⟨v, h⟩ | h⟩
      · exact .inl ⟨⟨v, h⟩, h1, h2⟩
      · exact .inr ⟨t - max (a + 1) start, by omega, by omega⟩

/-- An edge of an interval is where a change can be. -/
theorem Wave.edgeAt_mem {w : Wave} {a b t : Nat} (h1 : a < t) (h2 : t ≤ b) (h : w.edgeAt t = true) :
    t ∈ w.changesWithin a b := by
  rw [Wave.mem_changesWithin]
  refine ⟨h1, h2, ?_⟩
  by_contra hn
  rw [not_or] at hn
  have hl := w.listedAt_eq_of_no_change (Nat.sub_le t 1) fun c hc hct => hn.1 ⟨c, hc, by omega⟩
  have ht : ∀ u, u ≤ t → w.tail.levelAt u = none := fun u hu =>
    Tail.levelAt_eq_none fun a ha => Nat.lt_of_not_le fun h => hn.2 ⟨a, ha, by omega⟩
  simp [Wave.edgeAt, Wave.levelAt, ht t (Nat.le_refl _), ht (t - 1) (Nat.sub_le _ _), hl] at h

/-- `edgesWithin` is what its name says (rule R187). -/
theorem Wave.mem_edgesWithin {w : Wave} {a b t : Nat} :
    t ∈ w.edgesWithin a b ↔ a < t ∧ t ≤ b ∧ w.edgeAt t = true := by
  unfold Wave.edgesWithin
  rw [List.mem_filter]
  constructor
  · rintro ⟨h, he⟩
    have := Wave.mem_changesWithin.1 h
    exact ⟨this.1, this.2.1, he⟩
  · rintro ⟨h1, h2, he⟩
    exact ⟨Wave.edgeAt_mem h1 h2 he, he⟩

/-- `edgeWithin` is what its name says: some instant of the interval is an edge (rule R187). -/
theorem Wave.edgeWithin_iff (w : Wave) (a b : Nat) :
    w.edgeWithin a b = true ↔ ∃ t, a < t ∧ t ≤ b ∧ w.edgeAt t = true := by
  have : w.edgeWithin a b = true ↔ ∃ t, t ∈ w.edgesWithin a b := by
    simp [Wave.edgeWithin, Wave.edgesWithin]
  simp only [this, Wave.mem_edgesWithin]

/-- An edge of a steady line falls on a listed change. -/
theorem Wave.edgeAt_change {w : Wave} (hs : w.tail.start = none) {t : Nat} (h : w.edgeAt t = true) :
    ∃ c ∈ w.changes, c.1 = t := by
  have h1 : 1 ≤ t := by
    simp only [Wave.edgeAt, Bool.and_eq_true, decide_eq_true_eq] at h
    exact h.1
  have := (Wave.mem_changesWithin.1 (Wave.edgeAt_mem (a := t - 1) (by omega) (Nat.le_refl t) h)).2.2
  simpa [hs] using this

@[simp] theorem Wave.edgeWithin_self (w : Wave) (a : Nat) : w.edgeWithin a a = false := by
  rw [Bool.eq_false_iff]
  intro h
  obtain ⟨t, h1, h2, _⟩ := (Wave.edgeWithin_iff _ _ _).1 h
  omega

/-- Edges of two intervals that meet. -/
theorem Wave.edgeWithin_append (w : Wave) {a b c : Nat} (hab : a ≤ b) (hbc : b ≤ c) :
    w.edgeWithin a c = (w.edgeWithin a b || w.edgeWithin b c) := by
  rw [Bool.eq_iff_iff]
  simp only [Bool.or_eq_true, Wave.edgeWithin_iff]
  constructor
  · rintro ⟨t, h1, h2, h3⟩
    by_cases h : t ≤ b
    · exact .inl ⟨t, h1, h, h3⟩
    · exact .inr ⟨t, by omega, h2, h3⟩
  · rintro (⟨t, h1, h2, h3⟩ | ⟨t, h1, h2, h3⟩)
    · exact ⟨t, h1, by omega, h3⟩
    · exact ⟨t, by omega, h2, h3⟩

end Machine
end Sys2Proof
end

