-- ==== Sys2Proof/Laws/Time.lean ====
section
/-! SUPPORT. Time: `advance` is additive, and the distance to the next edge of a receive line. -/

namespace Sys2Proof.Machine

open Sys2Proof

theorem latch_append (s : State) {a b c : Nat} (hab : a ≤ b) (hbc : b ≤ c) (x : SourceId) (i : IntSource) :
    latch s b c x (latch s a b x i) = latch s a c x i := by
  simp [latch, Wave.edgeWithin_append _ hab hbc, Bool.or_assoc]

@[simp] theorem latch_self (s : State) (a : Nat) (x : SourceId) (i : IntSource) : latch s a a x i = i := by
  simp [latch]

@[simp] theorem advance_zero (s : State) : advance 0 s = s := by simp [advance]

/-- Time that passes in two parts is time that passes at once. -/
theorem advance_add (m n : Nat) (s : State) : advance n (advance m s) = advance (m + n) s := by
  have h (x : SourceId) (i : IntSource) :
      latch (advance m s) (s.now + m) (s.now + m + n) x (latch s s.now (s.now + m) x i)
        = latch s s.now (s.now + (m + n)) x i := by
    rw [← Nat.add_assoc]
    exact latch_append s (by omega) (by omega) x i
  simp only [advance, Nat.add_assoc] at h ⊢
  simp only [h]

/-- What `edgesAhead` lists: the edges of the receive lines in the next `b` cycles. -/
theorem mem_edgesAhead {b : Nat} {s : State} {t : Nat} :
    t ∈ edgesAhead b s ↔
      s.now < t ∧ t ≤ s.now + b ∧ ∃ x, (waveOf s (s.cfg.srcPin x)).edgeAt t = true := by
  unfold edgesAhead
  rw [List.mem_append, Wave.mem_edgesWithin, Wave.mem_edgesWithin]
  constructor
  · rintro (⟨h1, h2, h⟩ | ⟨h1, h2, h⟩)
    · exact ⟨h1, h2, .s0, h⟩
    · exact ⟨h1, h2, .s1, h⟩
  · rintro ⟨h1, h2, x, h⟩
    cases x
    · exact .inl ⟨h1, h2, h⟩
    · exact .inr ⟨h1, h2, h⟩

theorem foldl_min_le (now : Nat) (l : List Nat) (b : Nat) : l.foldl (fun d t => min d (t - now)) b ≤ b := by
  induction l generalizing b with
  | nil => simp
  | cons t l ih => exact Nat.le_trans (ih _) (Nat.min_le_left _ _)

theorem foldl_min_cases (now : Nat) (l : List Nat) (b : Nat) :
    l.foldl (fun d t => min d (t - now)) b = b ∨ ∃ t ∈ l, l.foldl (fun d t => min d (t - now)) b = t - now := by
  induction l generalizing b with
  | nil => simp
  | cons t l ih =>
    simp only [List.foldl_cons]
    rcases ih (min b (t - now)) with h | ⟨u, hu, h⟩
    · rw [h]
      by_cases hb : b ≤ t - now
      · exact .inl (Nat.min_eq_left hb)
      · exact .inr ⟨t, by simp, Nat.min_eq_right (by omega)⟩
    · exact .inr ⟨u, List.mem_cons_of_mem _ hu, h⟩

theorem foldl_min_le_mem (now : Nat) (l : List Nat) (b : Nat) {t : Nat} (ht : t ∈ l) :
    l.foldl (fun d t => min d (t - now)) b ≤ t - now := by
  induction l generalizing b with
  | nil => simp at ht
  | cons u l ih =>
    rcases List.mem_cons.1 ht with rfl | ht
    · exact Nat.le_trans (foldl_min_le now l _) (Nat.min_le_right _ _)
    · exact ih _ ht

theorem cyclesToEdge_le (b : Nat) (s : State) : cyclesToEdge b s ≤ b := foldl_min_le _ _ _

/-- Time goes to the bound, or to an edge. -/
theorem cyclesToEdge_cases (b : Nat) (s : State) :
    cyclesToEdge b s = b ∨ s.now + cyclesToEdge b s ∈ edgesAhead b s := by
  rcases foldl_min_cases s.now (edgesAhead b s) b with h | ⟨t, ht, h⟩
  · exact .inl h
  · have := (mem_edgesAhead.1 ht).1
    refine .inr ?_
    rw [show s.now + cyclesToEdge b s = t by unfold cyclesToEdge; omega]
    exact ht

theorem cyclesToEdge_pos {b : Nat} (s : State) (hb : 1 ≤ b) : 1 ≤ cyclesToEdge b s := by
  rcases cyclesToEdge_cases b s with h | h
  · omega
  · have := (mem_edgesAhead.1 h).1
    omega

/-- Time does not pass over an edge. -/
theorem cyclesToEdge_le_edge {b : Nat} {s : State} {x : SourceId} {t : Nat}
    (he : (waveOf s (s.cfg.srcPin x)).edgeAt t = true) (h : s.now < t) : s.now + cyclesToEdge b s ≤ t := by
  by_cases hb : t ≤ s.now + b
  · have := foldl_min_le_mem s.now _ b (mem_edgesAhead.2 ⟨h, hb, x, he⟩)
    unfold cyclesToEdge
    omega
  · have := cyclesToEdge_le b s
    omega

end Sys2Proof.Machine
end

