-- ==== Sys2Proof/Laws/Handler.lean ====
section
/-! SUPPORT. The handler: what each phase does, the whole run in closed form, and what every run leaves alone. -/

namespace Sys2Proof.Machine

open Sys2Proof

/-! ### The run in closed form -/

/-- A state `n` cycles into a run that has changed the receive engine's registers only. -/
def rxAt (s : State) (n : Nat) (d : Byte) (k : Fin 8) (ph : RxPhase) (w : Nat) : State :=
  { advance n s with rxD := d, rxK := k, rxPhase := ph, rxWait := w }

theorem rxAt_zero (s : State) : { s with rxPhase := .check } = rxAt s 0 s.rxD s.rxK .check s.rxWait := by
  simp [rxAt]

theorem isrDelay_rxAt (s : State) (n : Nat) (d : Byte) (k : Fin 8) (ph : RxPhase) (w : Nat) :
    isrDelay (rxAt s n d k ph w) = rxAt s (n + w) d k ph 0 := by
  unfold rxAt
  rw [← advance_add]
  rfl

theorem withInst_rxAt {s : State} {r : Inst} (h : s.insts[s.rxInst]? = some r) (n : Nat) (d : Byte) (k : Fin 8)
    (ph : RxPhase) (w : Nat) (f : Inst → Result) :
    withInst (rxAt s n d k ph w).rxInst (rxAt s n d k ph w) f = f r :=
  withInst_of h f

theorem rxPhase_check {s : State} {r : Inst} (h : s.insts[s.rxInst]? = some r) (v : Level) (n : Nat) (d : Byte)
    (k : Fin 8) (w : Nat) (hv : v = startLevel r.strap) :
    rxPhaseWith v (rxAt s n d k .check w)
      = .next (rxAt s (n + w) 0 k .center (delayCycles s.cfg r.profile.rxCentering)) := by
  show rxCheck v (isrDelay (rxAt s n d k .check w)) = _
  rw [isrDelay_rxAt, rxCheck, withInst_rxAt h, if_pos hv]
  rfl

theorem rxPhase_spurious {s : State} {r : Inst} (h : s.insts[s.rxInst]? = some r) (v : Level) (n : Nat) (d : Byte)
    (k : Fin 8) (w : Nat) (hv : v ≠ startLevel r.strap) :
    rxPhaseWith v (rxAt s n d k .check w) = .next (returnHandler (rxAt s (n + w) d k .check 0)) := by
  show rxCheck v (isrDelay (rxAt s n d k .check w)) = _
  rw [isrDelay_rxAt, rxCheck, withInst_rxAt h, if_neg hv]

theorem rxPhase_center {s : State} {r : Inst} (h : s.insts[s.rxInst]? = some r) (v : Level) (n : Nat) (d : Byte)
    (k : Fin 8) (w : Nat) :
    rxPhaseWith v (rxAt s n d k .center w)
      = .next (rxAt s (n + w) d 0 (.bit 0) (delayCycles s.cfg r.profile.rxIntrabit)) := by
  show rxEnterBit 0 (isrDelay (rxAt s n d k .center w)) = _
  rw [isrDelay_rxAt, rxEnterBit, withInst_rxAt h]
  rfl

theorem rxPhase_bit {s : State} {r : Inst} (h : s.insts[s.rxInst]? = some r) (v : Level) (n : Nat) (d : Byte)
    (k j : Fin 8) (w : Nat) (hk : k ≠ 7) :
    rxPhaseWith v (rxAt s n d k (.bit j) w)
      = .next (rxAt s (n + w) (sampleBit d k v) (k + 1) (.bit (k + 1)) (delayCycles s.cfg r.profile.rxIntrabit)) := by
  show rxSample v (isrDelay (rxAt s n d k (.bit j) w)) = _
  rw [isrDelay_rxAt]
  show (if k = 7 then _ else rxEnterBit (k + 1) (rxAt s (n + w) (sampleBit d k v) k (.bit j) 0)) = _
  rw [if_neg hk, rxEnterBit, withInst_rxAt h]
  rfl

theorem rxPhase_lastBit {s : State} {r : Inst} (h : s.insts[s.rxInst]? = some r) (v : Level) (n : Nat) (d : Byte)
    (j : Fin 8) (w : Nat) :
    rxPhaseWith v (rxAt s n d 7 (.bit j) w)
      = .next (rxAt s (n + w) (sampleBit d 7 v) 7 .stop (delayCycles s.cfg r.profile.rxStopbit)) := by
  show rxSample v (isrDelay (rxAt s n d 7 (.bit j) w)) = _
  rw [isrDelay_rxAt]
  exact (withInst_rxAt h (n + w) (sampleBit d 7 v) 7 (.bit j) 0 _).trans rfl

theorem rxPhase_stop {s : State} {r : Inst} (h : s.insts[s.rxInst]? = some r) (v : Level) (n : Nat) (d : Byte)
    (k : Fin 8) (w : Nat) :
    rxPhaseWith v (rxAt s n d k .stop w) = .next (rxAt s (n + w) (polarity r.strap d) k .store 0) := by
  show rxStop (isrDelay (rxAt s n d k .stop w)) = _
  rw [isrDelay_rxAt, rxStop, withInst_rxAt h]
  rfl

theorem rxPhase_store {s : State} {r : Inst} (h : s.insts[s.rxInst]? = some r) (v : Level) (n : Nat) (d : Byte)
    (k : Fin 8) :
    rxPhaseWith v (rxAt s n d k .store 0) =
      andThen (bufPush s.rxInst d (rxAt s n d k .store 0)) fun t => .next (returnHandler t) := by
  show rxStore (rxAt s n d k .store 0) = _
  rw [rxStore, withInst_rxAt h]
  rfl

/-- A phase of a handler that has returned does nothing. -/
theorem rxPhases_idle (l : List Level) (s : State) (h : s.rxPhase = .idle) : rxPhases l s = .next s := by
  induction l with
  | nil => rfl
  | cons v l ih => simp [rxPhases, rxPhaseWith, h, ih]

/-- The cycles of a decoding run from its first pin read to its return (rule R109). -/
def runCycles (c : Config) (p : Profile) : Nat :=
  delayCycles c p.rxCentering + 8 * delayCycles c p.rxIntrabit + delayCycles c p.rxStopbit

/-- A run that reads the idle level returns at once (rule R102). -/
theorem runHandler_spurious {s : State} {r : Inst} (h : s.insts[s.rxInst]? = some r) {c : Level}
    (hc : c ≠ startLevel r.strap) (cells : Byte) :
    runHandler c cells s = .next { isrDelay s with rxPhase := .idle, gie := true } := by
  unfold runHandler
  rw [rxAt_zero]
  simp only [rxPhases, rxPhase_spurious h c 0 _ _ _ hc, andThen_next]
  simp only [rxPhaseWith, returnHandler_rxPhase, andThen_next]
  simp [returnHandler, rxAt, isrDelay]

/-- A run that reads the start level decodes a byte and pushes it (rules R103 to R108). -/
theorem runHandler_decoding {s : State} {r : Inst} (h : s.insts[s.rxInst]? = some r) {c : Level}
    (hc : c = startLevel r.strap) (cells : Byte) :
    runHandler c cells s =
      andThen (bufPush s.rxInst (polarity r.strap cells)
        (rxAt s (s.rxWait + runCycles s.cfg r.profile) (polarity r.strap cells) 7 .store 0))
        fun t => .next (returnHandler t) := by
  unfold runHandler
  rw [rxAt_zero]
  simp only [rxPhases, rxPhase_check h c _ _ _ _ hc, rxPhase_center h, andThen_next]
  have e1 : (0 : Fin 8) + 1 = 1 := rfl
  have e2 : (1 : Fin 8) + 1 = 2 := rfl
  have e3 : (2 : Fin 8) + 1 = 3 := rfl
  have e4 : (3 : Fin 8) + 1 = 4 := rfl
  have e5 : (4 : Fin 8) + 1 = 5 := rfl
  have e6 : (5 : Fin 8) + 1 = 6 := rfl
  have e7 : (6 : Fin 8) + 1 = 7 := rfl
  simp (disch := decide) only [rxPhase_bit h, rxPhase_lastBit h, rxPhase_stop h, e1, e2, e3, e4, e5, e6, e7,
    andThen_next, sampleBits_eq]
  have hn : 0 + s.rxWait + delayCycles s.cfg r.profile.rxCentering + delayCycles s.cfg r.profile.rxIntrabit +
      delayCycles s.cfg r.profile.rxIntrabit + delayCycles s.cfg r.profile.rxIntrabit +
      delayCycles s.cfg r.profile.rxIntrabit + delayCycles s.cfg r.profile.rxIntrabit +
      delayCycles s.cfg r.profile.rxIntrabit + delayCycles s.cfg r.profile.rxIntrabit +
      delayCycles s.cfg r.profile.rxIntrabit + delayCycles s.cfg r.profile.rxStopbit
      = s.rxWait + runCycles s.cfg r.profile := by unfold runCycles; omega
  rw [hn, rxPhase_store h, andThen_assoc]
  rfl

/-- The state in which a decoding run pushes its byte: its whole time has passed (rule R108). -/
def atStore (s : State) (r : Inst) (cells : Byte) : State :=
  rxAt s (s.rxWait + runCycles s.cfg r.profile) (polarity r.strap cells) 7 .store 0

/-- The push of a decoding run that finds the buffer full (rules R42, R108). -/
theorem runHandler_full {s : State} {r : Inst} (h : s.insts[s.rxInst]? = some r) {c : Level}
    (hc : c = startLevel r.strap) (cells : Byte) (hf : bufFull s = true) :
    runHandler c cells s = .next (returnHandler (modifyInst s.rxInst Inst.setOverflow (atStore s r cells))) := by
  rw [runHandler_decoding h hc, bufPush]
  have : bufFull (atStore s r cells) = true := hf
  unfold atStore at this ⊢
  rw [if_pos this]
  rfl

/-- The push of a decoding run that finds a free slot (rules R42, R108). -/
theorem runHandler_stored {s : State} {r : Inst} (h : s.insts[s.rxInst]? = some r) {c : Level}
    (hc : c = startLevel r.strap) (cells : Byte) (hf : bufFull s = false) (ht : s.tail < s.cfg.cap) :
    runHandler c cells s = .next (returnHandler { atStore s r cells with
      buf := Memory.write s.buf s.tail (polarity r.strap cells), tail := nextIndex s.cfg s.tail,
      stored := s.stored + 1 }) := by
  rw [runHandler_decoding h hc, bufPush]
  have h1 : bufFull (atStore s r cells) = false := hf
  have h2 : (atStore s r cells).tail < (atStore s r cells).cfg.cap := ht
  unfold atStore at h1 h2 ⊢
  rw [if_neg (by simp [h1]), memWrite, if_pos h2]
  rfl

/-- Every way a handler run can answer a next state. -/
theorem runHandler_spec {s t : State} {c : Level} {cells : Byte} (h : runHandler c cells s = .next t) :
    ∃ r, s.insts[s.rxInst]? = some r ∧
      ((c ≠ startLevel r.strap ∧ t = { isrDelay s with rxPhase := .idle, gie := true }) ∨
       (c = startLevel r.strap ∧ bufFull s = true ∧
          t = returnHandler (modifyInst s.rxInst Inst.setOverflow (atStore s r cells))) ∨
       (c = startLevel r.strap ∧ bufFull s = false ∧ s.tail < s.cfg.cap ∧
          t = returnHandler { atStore s r cells with
            buf := Memory.write s.buf s.tail (polarity r.strap cells), tail := nextIndex s.cfg s.tail,
            stored := s.stored + 1 })) := by
  cases hr : s.insts[s.rxInst]? with
  | none =>
    have : runHandler c cells s = .fault (.noSuchInstance s.rxInst) := by
      unfold runHandler
      rw [rxAt_zero]
      simp only [rxPhases]
      have : rxPhaseWith c (rxAt s 0 s.rxD s.rxK .check s.rxWait) = .fault (.noSuchInstance s.rxInst) := by
        show rxCheck c (isrDelay (rxAt s 0 s.rxD s.rxK .check s.rxWait)) = _
        rw [isrDelay_rxAt, rxCheck, withInst]
        show (match s.insts[s.rxInst]? with | some r => _ | none => _) = _
        rw [hr]
        rfl
      rw [this]
      rfl
    rw [this] at h
    cases h
  | some r =>
    refine ⟨r, rfl, ?_⟩
    by_cases hc : c = startLevel r.strap
    · cases hf : bufFull s with
      | true =>
        rw [runHandler_full hr hc _ hf] at h
        cases h
        exact .inr (.inl ⟨hc, rfl, rfl⟩)
      | false =>
        by_cases ht : s.tail < s.cfg.cap
        · rw [runHandler_stored hr hc _ hf ht] at h
          cases h
          exact .inr (.inr ⟨hc, rfl, ht, rfl⟩)
        · rw [runHandler_decoding hr hc, andThen_eq_next] at h
          obtain ⟨u, hu, _⟩ := h
          rcases bufPush_spec hu with ⟨h1, _⟩ | ⟨_, h2, _⟩
          · exact absurd (show bufFull s = true from h1) (by simp [hf])
          · exact absurd h2 ht
    · rw [runHandler_spurious hr hc] at h
      cases h
      exact .inl ⟨hc, rfl⟩

/-! ### What every run leaves alone -/

theorem KeptByHandler.refl (s : State) : KeptByHandler s s := by constructor <;> rfl

theorem KeptByHandler.trans {s t u : State} (h : KeptByHandler s t) (g : KeptByHandler t u) : KeptByHandler s u where
  cfg := g.cfg.trans h.cfg
  insts := g.insts.trans h.insts
  active := g.active.trans h.active
  head := g.head.trans h.head
  pinOut := g.pinOut.trans h.pinOut
  enable0 := g.enable0.trans h.enable0
  enable1 := g.enable1.trans h.enable1
  sense0 := g.sense0.trans h.sense0
  sense1 := g.sense1.trans h.sense1
  txInst := g.txInst.trans h.txInst
  txB := g.txB.trans h.txB
  txK := g.txK.trans h.txK
  txSavedGie := g.txSavedGie.trans h.txSavedGie
  cfgInst := g.cfgInst.trans h.cfgInst
  txPhase := g.txPhase.trans h.txPhase
  cfgPhase := g.cfgPhase.trans h.cfgPhase
  fgWait := g.fgWait.trans h.fgWait
  lineIn := g.lineIn.trans h.lineIn
  script := g.script.trans h.script
  rsp := g.rsp.trans h.rsp
  wire := g.wire.trans h.wire

/-- The instances but for their overflow flags. -/
theorem map_modify_setOverflow (l : List Inst) (n : Nat) :
    (l.modify n Inst.setOverflow).map (fun r => (r.strap, r.profile, r.writeError)) =
      l.map (fun r => (r.strap, r.profile, r.writeError)) := by
  apply List.ext_getElem?
  intro i
  simp only [List.getElem?_map, List.getElem?_modify]
  split <;> cases l[i]? <;> simp

theorem runHandler_kept {s t : State} {c : Level} {cells : Byte} (h : runHandler c cells s = .next t) :
    KeptByHandler s t ∧ t.rxPhase = .idle ∧ t.gie = true ∧ s.now ≤ t.now ∧ t.rxInst = s.rxInst ∧ t.rxWait = 0 := by
  obtain ⟨r, hr, ⟨_, rfl⟩ | ⟨_, _, rfl⟩ | ⟨_, _, _, rfl⟩⟩ := runHandler_spec h
  · exact ⟨by constructor <;> rfl, rfl, rfl, Nat.le_add_right _ _, rfl, rfl⟩
  · refine ⟨?_, rfl, rfl, Nat.le_add_right _ _, rfl, rfl⟩
    constructor
    case insts => exact map_modify_setOverflow _ _
    all_goals rfl
  · exact ⟨by constructor <;> rfl, rfl, rfl, Nat.le_add_right _ _, rfl, rfl⟩

/-- A handler run answers a next state when its instance exists and `tail` is an index. -/
theorem runHandler_total {s : State} {r : Inst} (h : s.insts[s.rxInst]? = some r) (ht : s.tail < s.cfg.cap)
    (c : Level) (cells : Byte) : ∃ t, runHandler c cells s = .next t := by
  by_cases hc : c = startLevel r.strap
  · cases hf : bufFull s with
    | true => exact ⟨_, runHandler_full h hc _ hf⟩
    | false => exact ⟨_, runHandler_stored h hc _ hf ht⟩
  · exact ⟨_, runHandler_spurious h hc _⟩

/-! ### The pending latches over a run -/

/-- What a run does to the pending latch of a source: the edges of its time, no more (rule R187). -/
theorem runHandler_pending {s t : State} {c : Level} {cells : Byte} (h : runHandler c cells s = .next t)
    (x : SourceId) :
    (source t x).pending =
      ((source s x).pending || (waveOf s (s.cfg.srcPin x)).edgeWithin s.now t.now) := by
  obtain ⟨r, hr, ⟨_, rfl⟩ | ⟨_, _, rfl⟩ | ⟨_, _, _, rfl⟩⟩ := runHandler_spec h <;> cases x <;> rfl

end Sys2Proof.Machine
end

