-- ==== Sys2Proof/Laws/Delay.lean ====
section
/-! SUPPORT. The foreground delay: a whole interrupt inside it, the induction principle for what a delay keeps, and that
it ends on steady lines. -/

namespace Sys2Proof.Machine

open Sys2Proof

/-! ### The fire condition -/

/-- A source that is taken fires (rule R193). -/
theorem ready_fires {s : State} {x : SourceId} (h : ready s = some x) : fires s x = true := by
  unfold ready at h
  split at h
  · cases h; assumption
  · split at h
    · cases h; assumption
    · cases h

theorem fires_iff (s : State) (x : SourceId) :
    fires s x = true ↔
      s.gie = true ∧ (source s x).enable = true ∧ (source s x).pending = true ∧ s.rxPhase = .idle := by
  simp [fires, and_assoc]

theorem ready_none_iff (s : State) : ready s = none ↔ fires s .s0 = false ∧ fires s .s1 = false := by
  unfold ready
  cases fires s .s0 <;> cases fires s .s1 <;> simp

theorem ready_none_of_gie {s : State} (h : s.gie = false) : ready s = none := by
  simp [ready_none_iff, fires, h]

theorem ready_none_of_running {s : State} (h : s.rxPhase ≠ .idle) : ready s = none := by
  simp [ready_none_iff, fires, h]

/-! ### A whole interrupt -/

/-- The state the handler is entered in for instance `n` (rule R189). -/
theorem enterHandler_some {s : State} {n : Nat} (h : s.active = some n) (x : SourceId) :
    enterHandler x s =
      { setSource x (fun i => { i with pending := false }) s with
        gie := false, rxInst := n, rxPhase := .check, rxWait := s.cfg.latEntry } := by
  simp [enterHandler, h]

/-- An entry that finds no listener (rule R192). -/
theorem enterHandler_none {s : State} (h : s.active = none) (x : SourceId) :
    enterHandler x s = { setSource x (fun i => { i with pending := false }) s with gie := true } := by
  simp [enterHandler, h]

/-- What an entry does to the pending latches: the one taken is cleared. -/
theorem enterHandler_pending (x y : SourceId) (s : State) :
    (source (enterHandler x s) y).pending = (!(x == y) && (source s y).pending) := by
  unfold enterHandler
  cases s.active <;> cases x <;> cases y <;> simp [setSource]

theorem enterHandler_kept (x : SourceId) (s : State) : KeptByHandler s (enterHandler x s) := by
  unfold enterHandler
  cases ha : s.active <;> cases x <;> (constructor <;> simp [ha, setSource])

/-- Every way a whole interrupt can answer a next state. -/
theorem serveInterrupt_spec {s t : State} {x : SourceId} (hx : ready s = some x)
    (h : serveInterrupt x s = .next t) :
    (s.active = none ∧ t = enterHandler x s) ∨
    (∃ n r, s.active = some n ∧ s.insts[n]? = some r ∧
      runHandler ((waveOf s (rxPin s r)).levelAt (checkInstant (enterHandler x s)))
        (sampledCells (enterHandler x s) r) (enterHandler x s) = .next t) := by
  have hi := ((fires_iff s x).1 (ready_fires hx)).2.2.2
  unfold serveInterrupt at h
  cases ha : s.active with
  | none =>
    have : (enterHandler x s).rxPhase = .idle := by rw [enterHandler_none ha]; simpa using hi
    simp only [this, if_true] at h
    cases h
    exact .inl ⟨rfl, rfl⟩
  | some n =>
    have h1 : (enterHandler x s).rxPhase = .check := by rw [enterHandler_some ha]
    have h2 : (enterHandler x s).rxInst = n := by rw [enterHandler_some ha]
    simp only [h1, reduceCtorEq, if_false] at h
    obtain ⟨r, hr, h⟩ := withInst_eq_next.1 h
    rw [h2, enterHandler_insts] at hr
    refine .inr ⟨n, r, rfl, hr, ?_⟩
    have hw : waveOf (enterHandler x s) (rxPin (enterHandler x s) r) = waveOf s (rxPin s r) := by
      simp [waveOf, rxPin]
    rw [← hw]
    exact h

theorem serveInterrupt_kept {s t : State} {x : SourceId} (hx : ready s = some x)
    (h : serveInterrupt x s = .next t) :
    KeptByHandler s t ∧ t.rxPhase = .idle ∧ t.gie = true ∧ s.now ≤ t.now := by
  have hi := (fires_iff s x).1 (ready_fires hx)
  rcases serveInterrupt_spec hx h with ⟨ha, rfl⟩ | ⟨n, r, ha, hr, h⟩
  · refine ⟨enterHandler_kept x s, ?_, ?_, by simp⟩ <;> rw [enterHandler_none ha]
    simpa using hi.2.2.2
  · obtain ⟨hk, h1, h2, h3, _⟩ := runHandler_kept h
    exact ⟨(enterHandler_kept x s).trans hk, h1, h2, by simpa using h3⟩

/-- The pending latches after a whole interrupt: the one taken is cleared, then the edges of the run are latched. -/
theorem serveInterrupt_pending {s t : State} {x : SourceId} (hx : ready s = some x)
    (h : serveInterrupt x s = .next t) (y : SourceId) :
    (source t y).pending =
      ((!(x == y) && (source s y).pending) || (waveOf s (s.cfg.srcPin y)).edgeWithin s.now t.now) := by
  rcases serveInterrupt_spec hx h with ⟨ha, rfl⟩ | ⟨n, r, ha, hr, h⟩
  · simp [enterHandler_pending]
  · rw [runHandler_pending h y, enterHandler_pending]
    have : waveOf (enterHandler x s) ((enterHandler x s).cfg.srcPin y) = waveOf s (s.cfg.srcPin y) := by
      simp [waveOf]
    rw [this, enterHandler_now]

/-- A whole interrupt answers a next state when the listener exists and `tail` is an index. -/
theorem serveInterrupt_total {s : State} {x : SourceId} (hx : ready s = some x)
    (ha : ∀ n, s.active = some n → n < ninst s) (ht : s.tail < s.cfg.cap) :
    ∃ t, serveInterrupt x s = .next t := by
  have hi := ((fires_iff s x).1 (ready_fires hx)).2.2.2
  unfold serveInterrupt
  cases hact : s.active with
  | none =>
    have : (enterHandler x s).rxPhase = .idle := by rw [enterHandler_none hact]; simpa using hi
    simp [this]
  | some n =>
    have h1 : (enterHandler x s).rxPhase = .check := by rw [enterHandler_some hact]
    have h2 : (enterHandler x s).rxInst = n := by rw [enterHandler_some hact]
    have hn : n < s.insts.length := ha n hact
    have h3 : (enterHandler x s).insts[(enterHandler x s).rxInst]? = some s.insts[n] := by
      rw [h2, enterHandler_insts]; simp [hn]
    simp only [h1, reduceCtorEq, if_false]
    rw [withInst_of h3]
    exact runHandler_total h3 (by simpa using ht) _ _

/-! ### The number of turns -/

/-- Listed changes of the receive lines still to come. -/
def changesLeft (s : State) : Nat := (changeTimes s).countP fun t => decide (s.now < t)

/-- The turns a foreground delay can still take: each one uses up a latch, a change, or the delay itself. -/
def turnsLeft (s : State) : Nat :=
  3 * changesLeft s + s.src0.pending.toNat + s.src1.pending.toNat + (if s.fgWait = 0 then 0 else 1)

theorem turnsLeft_lt_fuel (s : State) : turnsLeft s < delayFuel s := by
  have h1 : changesLeft s ≤ (changeTimes s).length := List.countP_le_length
  have h2 := Bool.toNat_le s.src0.pending
  have h3 := Bool.toNat_le s.src1.pending
  unfold turnsLeft delayFuel
  split <;> split <;> omega

theorem countP_le_of_imp {l : List Nat} {p q : Nat → Bool} (h : ∀ x ∈ l, p x = true → q x = true) :
    l.countP p ≤ l.countP q := List.countP_mono_left h

theorem countP_lt_of_imp {l : List Nat} {p q : Nat → Bool} (h : ∀ x ∈ l, p x = true → q x = true)
    (hx : ∃ x ∈ l, p x = false ∧ q x = true) : l.countP p < l.countP q := by
  induction l with
  | nil => obtain ⟨x, hx, _⟩ := hx; simp at hx
  | cons a l ih =>
    have hle : l.countP p ≤ l.countP q := countP_le_of_imp fun x hx => h x (by simp [hx])
    obtain ⟨x, hm, hp, hq⟩ := hx
    rcases List.mem_cons.1 hm with rfl | hm
    · simp [hp, hq]; omega
    · have := ih (fun y hy => h y (by simp [hy])) ⟨x, hm, hp, hq⟩
      have ha := h a (by simp)
      rw [List.countP_cons, List.countP_cons]
      split <;> split <;> simp_all

/-- A listed change of a source's pin is a change time. -/
theorem mem_changeTimes {s : State} {x : SourceId} {c : Nat × Level}
    (h : c ∈ (waveOf s (s.cfg.srcPin x)).changes) : c.1 ∈ changeTimes s := by
  unfold changeTimes
  cases x
  · exact List.mem_map.2 ⟨c, List.mem_append_left _ h, rfl⟩
  · exact List.mem_map.2 ⟨c, List.mem_append_right _ h, rfl⟩

theorem pending_toNat_le {p q e : Bool} (h : p = (q || e)) : p.toNat ≤ q.toNat + e.toNat := by
  cases q <;> cases e <;> simp [h]

/-- A steady line has an edge only at a change time. -/
theorem edge_mem_changeTimes {s : State} (hs : linesSteady s = true) {x : SourceId} {t : Nat}
    (h : (waveOf s (s.cfg.srcPin x)).edgeAt t = true) : t ∈ changeTimes s := by
  simp only [linesSteady, Bool.and_eq_true, Option.isNone_iff_eq_none] at hs
  obtain ⟨c, hc, rfl⟩ := Wave.edgeAt_change (by cases x; exact hs.1; exact hs.2) h
  exact mem_changeTimes hc

/-- Time that passes sets a latch only by using up a change. -/
theorem latches_le_changes {s t : State} (hs : linesSteady s = true) {q : SourceId → Bool} (hl : t.lineIn = s.lineIn)
    (hc : t.cfg = s.cfg) (hn : s.now ≤ t.now)
    (hp : ∀ y, (source t y).pending = (q y || (waveOf s (s.cfg.srcPin y)).edgeWithin s.now t.now)) :
    3 * changesLeft t + t.src0.pending.toNat + t.src1.pending.toNat ≤
        3 * changesLeft s + (q .s0).toNat + (q .s1).toNat ∧
      ((∃ c ∈ changeTimes s, s.now < c ∧ c ≤ t.now) →
        3 * changesLeft t + t.src0.pending.toNat + t.src1.pending.toNat <
          3 * changesLeft s + (q .s0).toNat + (q .s1).toNat) := by
  have h0 := pending_toNat_le (hp .s0)
  have h1 := pending_toNat_le (hp .s1)
  simp only [source_s0, source_s1] at h0 h1
  have hct : changeTimes t = changeTimes s := changeTimes_congr hl hc
  have hlt (h : ∃ c ∈ changeTimes s, s.now < c ∧ c ≤ t.now) : changesLeft t < changesLeft s := by
    unfold changesLeft
    rw [hct]
    apply countP_lt_of_imp
    · intro c _ h; simp only [decide_eq_true_eq] at h ⊢; omega
    · obtain ⟨c, hm, h1, h2⟩ := h
      exact ⟨c, hm, by simpa using h2, by simpa using h1⟩
  have e0 := Bool.toNat_le ((waveOf s (s.cfg.srcPin .s0)).edgeWithin s.now t.now)
  have e1 := Bool.toNat_le ((waveOf s (s.cfg.srcPin .s1)).edgeWithin s.now t.now)
  refine ⟨?_, fun h => by have := hlt h; omega⟩
  by_cases h : ∃ c ∈ changeTimes s, s.now < c ∧ c ≤ t.now
  · have := hlt h; omega
  · have hz (y : SourceId) : (waveOf s (s.cfg.srcPin y)).edgeWithin s.now t.now = false := by
      by_contra hne
      obtain ⟨c, h1, h2, hm⟩ := (Wave.edgeWithin_iff _ _ _).1 (Bool.eq_true_of_not_eq_false hne)
      exact h ⟨c, edge_mem_changeTimes hs hm, h1, h2⟩
    have hle : changesLeft t ≤ changesLeft s := by
      unfold changesLeft
      rw [hct]
      apply countP_le_of_imp
      intro c _ h
      simp only [decide_eq_true_eq] at h ⊢
      omega
    rw [hz .s0, Bool.toNat_false] at h0
    rw [hz .s1, Bool.toNat_false] at h1
    omega

/-- One turn of time in a foreground delay. -/
def passTime (d : Nat) (s : State) : State := { advance d s with fgWait := s.fgWait - d }

theorem turnsLeft_passTime {s : State} (hs : linesSteady s = true) (hw : s.fgWait ≠ 0) :
    turnsLeft (passTime (cyclesToEdge s.fgWait s) s) < turnsLeft s := by
  have hd := cyclesToEdge_le s.fgWait s
  have hp := cyclesToEdge_pos s (b := s.fgWait) (by omega)
  have key := latches_le_changes hs (t := passTime (cyclesToEdge s.fgWait s) s)
    (q := fun y => (source s y).pending) rfl rfl (Nat.le_add_right _ _) (fun y => by cases y <;> rfl)
  have hf : (passTime (cyclesToEdge s.fgWait s) s).fgWait = s.fgWait - cyclesToEdge s.fgWait s := rfl
  have hnow : (passTime (cyclesToEdge s.fgWait s) s).now = s.now + cyclesToEdge s.fgWait s := rfl
  unfold turnsLeft
  rw [hf]
  simp only [source_s0, source_s1] at key
  rcases cyclesToEdge_cases s.fgWait s with h | h
  · have : s.fgWait - cyclesToEdge s.fgWait s = 0 := by omega
    rw [if_pos this, if_neg hw]
    omega
  · obtain ⟨_, _, x, he⟩ := mem_edgesAhead.1 h
    have := key.2 ⟨_, edge_mem_changeTimes hs he, by omega, by omega⟩
    rw [if_neg hw]
    split <;> omega

theorem turnsLeft_serveInterrupt {s t : State} (hs : linesSteady s = true) {x : SourceId} (hx : ready s = some x)
    (h : serveInterrupt x s = .next t) : turnsLeft t < turnsLeft s := by
  obtain ⟨hk, _, _, hn⟩ := serveInterrupt_kept hx h
  have key := (latches_le_changes hs (q := fun y => !(x == y) && (source s y).pending) hk.lineIn hk.cfg hn
    (serveInterrupt_pending hx h)).1
  have hf := ((fires_iff s x).1 (ready_fires hx)).2.2.1
  unfold turnsLeft
  rw [hk.fgWait]
  have e01 : (SourceId.s0 == SourceId.s1) = false := rfl
  have e10 : (SourceId.s1 == SourceId.s0) = false := rfl
  cases x <;> simp only [source_s0, source_s1] at hf key <;> simp [hf, e01, e10] at key ⊢ <;> omega

/-! ### What a foreground delay does -/

theorem delayOver_iff (s : State) : delayOver s = true ↔ s.fgWait = 0 ∧ ready s = none := by
  simp [delayOver]

theorem fgDelayLoop_succ (fuel : Nat) (s : State) :
    fgDelayLoop (fuel + 1) s =
      match ready s with
      | some x => andThen (serveInterrupt x s) (fgDelayLoop fuel)
      | none =>
        if s.fgWait = 0 then .next s else fgDelayLoop fuel (passTime (cyclesToEdge s.fgWait s) s) := rfl

/-- A foreground delay with interrupts disabled lets exactly its counter's cycles pass (rules R91, R92). -/
theorem fgDelay_masked {s : State} (hg : s.gie = false) :
    fgDelay s = .next { advance s.fgWait s with fgWait := 0 } := by
  simp [fgDelay, hg]

theorem delayOver_masked {s : State} (hg : s.gie = false) : delayOver { s with fgWait := 0 } = true := by
  simp [delayOver, ready_none_of_gie (s := { s with fgWait := 0 }) hg]

/-- What a foreground delay keeps: whatever time that passes inside it and a whole interrupt keep. -/
theorem fgDelay_induct {P : State → Prop}
    (htime : ∀ s d, P s → ready s = none → 1 ≤ d → d ≤ s.fgWait → P (passTime d s))
    (hint : ∀ s x t, P s → ready s = some x → serveInterrupt x s = .next t → P t)
    {s t : State} (hs : P s) (h : fgDelay s = .next t) : P t := by
  by_cases hg : s.gie = true
  case neg =>
    rw [Bool.not_eq_true] at hg
    rw [fgDelay_masked hg] at h
    cases h
    by_cases hw : s.fgWait = 0
    · have : { advance s.fgWait s with fgWait := 0 } = s := by
        rw [hw, advance_zero, ← hw]
      rw [this]
      exact hs
    · have := htime s s.fgWait hs (ready_none_of_gie hg) (by omega) (Nat.le_refl _)
      unfold passTime at this
      rwa [Nat.sub_self] at this
  unfold fgDelay at h
  rw [if_pos hg] at h
  clear hg
  generalize delayFuel s = fuel at h
  induction fuel generalizing s with
  | zero => cases h; exact hs
  | succ fuel ih =>
    rw [fgDelayLoop_succ] at h
    cases hr : ready s with
    | some x =>
      simp only [hr] at h
      obtain ⟨u, hu, h⟩ := (andThen_eq_next _ _ _).1 h
      exact ih (hint s x u hs hr hu) h
    | none =>
      simp only [hr] at h
      by_cases hw : s.fgWait = 0
      · rw [if_pos hw] at h
        cases h
        exact hs
      · rw [if_neg hw] at h
        exact ih (htime s _ hs hr (cyclesToEdge_pos s (by omega)) (cyclesToEdge_le _ _)) h

/-- A foreground delay answers a next state when every interrupt inside it does. -/
theorem fgDelay_total {P : State → Prop}
    (htime : ∀ s d, P s → ready s = none → 1 ≤ d → d ≤ s.fgWait → P (passTime d s))
    (hint : ∀ s x, P s → ready s = some x → ∃ t, serveInterrupt x s = .next t ∧ P t)
    {s : State} (hs : P s) : ∃ t, fgDelay s = .next t := by
  by_cases hg : s.gie = true
  case neg => exact ⟨_, fgDelay_masked (by simpa using hg)⟩
  unfold fgDelay
  rw [if_pos hg]
  clear hg
  generalize delayFuel s = fuel
  induction fuel generalizing s with
  | zero => exact ⟨s, rfl⟩
  | succ fuel ih =>
    rw [fgDelayLoop_succ]
    cases hr : ready s with
    | some x =>
      obtain ⟨u, hu, hP⟩ := hint s x hs hr
      simp only [hu, andThen_next]
      exact ih hP
    | none =>
      by_cases hw : s.fgWait = 0
      · exact ⟨s, by simp [hw]⟩
      · simp only [hw, if_false]
        exact ih (htime s _ hs hr (cyclesToEdge_pos s (by omega)) (cyclesToEdge_le _ _))

/-- On steady lines the turns of a step suffice for the whole delay, however it is interrupted. -/
theorem fgDelay_over {s t : State} (hs : linesSteady s = true) (h : fgDelay s = .next t) : delayOver t = true := by
  by_cases hg : s.gie = true
  case neg =>
    rw [Bool.not_eq_true] at hg
    rw [fgDelay_masked hg] at h
    cases h
    exact delayOver_masked (s := advance s.fgWait s) hg
  have hf := turnsLeft_lt_fuel s
  unfold fgDelay at h
  rw [if_pos hg] at h
  clear hg
  generalize delayFuel s = fuel at hf h
  induction fuel generalizing s with
  | zero => omega
  | succ fuel ih =>
    rw [fgDelayLoop_succ] at h
    cases hr : ready s with
    | some x =>
      simp only [hr] at h
      obtain ⟨u, hu, h⟩ := (andThen_eq_next _ _ _).1 h
      have hk := (serveInterrupt_kept hr hu).1
      have := turnsLeft_serveInterrupt hs hr hu
      exact ih ((linesSteady_congr hk.lineIn hk.cfg).trans hs) (by omega) h
    | none =>
      simp only [hr] at h
      by_cases hw : s.fgWait = 0
      · rw [if_pos hw] at h
        cases h
        exact (delayOver_iff _).2 ⟨hw, hr⟩
      · rw [if_neg hw] at h
        have := turnsLeft_passTime hs hw
        exact ih ((linesSteady_congr (s := s) (t := passTime _ s) rfl rfl).trans hs) (by omega) h

/-- On any lines a delay in which no interrupt becomes ready runs out within the step. -/
theorem fgDelay_quiet {P : State → Prop} (htime : ∀ s d, P s → 1 ≤ d → d ≤ s.fgWait → P (passTime d s))
    (hnone : ∀ s, P s → ready s = none) {s : State} (hs : P s) :
    ∃ t, fgDelay s = .next t ∧ P t ∧ delayOver t = true := by
  have hno : ∀ u x, P u → ready u ≠ some x := fun u x hu h => by rw [hnone u hu] at h; cases h
  obtain ⟨t, ht⟩ := fgDelay_total (P := P) (fun s d h _ => htime s d h) (fun u x hu h => absurd h (hno u x hu)) hs
  refine ⟨t, ht, fgDelay_induct (P := P) (fun s d h _ => htime s d h) (fun u x _ hu h => absurd h (hno u x hu)) hs ht, ?_⟩
  by_cases hst : linesSteady s = true
  · exact fgDelay_over hst ht
  by_cases hg : s.gie = true
  case neg =>
    rw [Bool.not_eq_true] at hg
    rw [fgDelay_masked hg] at ht
    cases ht
    exact delayOver_masked (s := advance s.fgWait s) hg
  have hf : s.fgWait < delayFuel s := by
    unfold delayFuel
    rw [if_neg hst]
    omega
  unfold fgDelay at ht
  rw [if_pos hg] at ht
  clear hg hst
  generalize delayFuel s = fuel at hf ht
  induction fuel generalizing s with
  | zero => omega
  | succ fuel ih =>
    rw [fgDelayLoop_succ, hnone s hs] at ht
    simp only at ht
    by_cases hw : s.fgWait = 0
    · rw [if_pos hw] at ht
      cases ht
      exact (delayOver_iff _).2 ⟨hw, hnone _ hs⟩
    · rw [if_neg hw] at ht
      have h1 := cyclesToEdge_pos s (b := s.fgWait) (by omega)
      have h2 : (passTime (cyclesToEdge s.fgWait s) s).fgWait = s.fgWait - cyclesToEdge s.fgWait s := rfl
      exact ih (htime s _ hs h1 (cyclesToEdge_le _ _)) (by omega) ht

/-- Every way a delay and what follows it can answer a next state. -/
theorem afterDelay_spec {k : State → Result} {s t : State} (h : afterDelay k s = .next t) :
    ∃ u, fgDelay s = .next u ∧ ((delayOver u = true ∧ k u = .next t) ∨ (delayOver u = false ∧ t = u)) := by
  obtain ⟨u, hu, h⟩ := (andThen_eq_next _ _ _).1 h
  refine ⟨u, hu, ?_⟩
  cases ho : delayOver u with
  | true => exact .inl ⟨rfl, by simpa [ho] using h⟩
  | false => exact .inr ⟨rfl, by simpa [ho] using h.symm⟩

theorem afterDelay_over {k : State → Result} {s u : State} (hu : fgDelay s = .next u) (ho : delayOver u = true) :
    afterDelay k s = k u := by
  simp [afterDelay, hu, ho]

theorem afterDelay_open {k : State → Result} {s u : State} (hu : fgDelay s = .next u) (ho : delayOver u = false) :
    afterDelay k s = .next u := by
  simp [afterDelay, hu, ho]

end Sys2Proof.Machine
end

