-- ==== Sys2Proof/Laws/Transmit.lean ====
section
/-! SUPPORT. The transmit sequencer: output pins, and the phases of a WRITE from its start level to its stop level in
closed form. -/

namespace Sys2Proof.Machine

open Sys2Proof

/-! ### Output pins -/

@[simp] theorem setPin_setPin (p : Pin) (u v : Level) (m : List (Pin × Level)) :
    setPin p v (setPin p u m) = setPin p v m := by
  induction m with
  | nil => simp [setPin]
  | cons e m ih =>
    obtain ⟨q, w⟩ := e
    by_cases h : p = q <;> simp [setPin, h, ih]

theorem lookup_setPin_same (p : Pin) (v : Level) (m : List (Pin × Level)) : (setPin p v m).lookup p = some v := by
  induction m with
  | nil => simp [setPin]
  | cons e m ih =>
    obtain ⟨q, w⟩ := e
    by_cases h : p = q
    · simp [setPin, h]
    · simp [setPin, h, List.lookup_cons, beq_eq_false_iff_ne.2 h, ih]

theorem lookup_setPin_other {p q : Pin} (h : q ≠ p) (v : Level) (m : List (Pin × Level)) :
    (setPin p v m).lookup q = m.lookup q := by
  induction m with
  | nil => simp [setPin, List.lookup_cons, beq_eq_false_iff_ne.2 h]
  | cons e m ih =>
    obtain ⟨o, w⟩ := e
    by_cases h' : p = o
    · subst h'
      simp [setPin, List.lookup_cons, beq_eq_false_iff_ne.2 h]
    · simp [setPin, h', List.lookup_cons, ih]

/-- The newest update of a pin is what the line shows from its instant on; before that the older ones are. -/
theorem wireLevel_cons_same (rest : Level) (p : Pin) (u t : Nat) (v : Level) (m : List PinEvent) :
    wireLevel rest p u (⟨t, p, v⟩ :: m) = if t ≤ u then v else wireLevel rest p u m := by
  simp [wireLevel]

/-- An update of another pin does not show. -/
theorem wireLevel_cons_other {p q : Pin} (h : q ≠ p) (rest : Level) (u t : Nat) (v : Level) (m : List PinEvent) :
    wireLevel rest p u (⟨t, q, v⟩ :: m) = wireLevel rest p u m := by
  simp [wireLevel, h]

/-! ### The phases in closed form -/

/-- A state `N` cycles into a `WRITE` of `b` on instance `n` (pin `p`), between its start level and its stop level. -/
def txAt (s : State) (n : Nat) (b : Byte) (p : Pin) (N : Nat) (k : Fin 8) (ph : TxPhase) (w : Nat) (v : Level)
    (evs : List PinEvent) : State :=
  { advance N s with
    txInst := n, txB := b, txSavedGie := s.gie, gie := false, txK := k, txPhase := ph, fgWait := w
    pinOut := setPin p v s.pinOut, wire := evs ++ s.wire }

theorem beginWrite_eq (n : Nat) (r : Inst) (b : Byte) (s : State) :
    beginWrite n r b s =
      txAt s n b r.strap.txPin 0 s.txK .start (delayCycles s.cfg (startCount s.cfg r.profile)) (startLevel r.strap)
        [⟨s.now, r.strap.txPin, startLevel r.strap⟩] := by
  simp [txAt, beginWrite, pinWrite]

theorem afterDelay_txAt (f : State → Result) (s : State) (n : Nat) (b : Byte) (p : Pin) (N : Nat) (k : Fin 8)
    (ph : TxPhase) (w : Nat) (v : Level) (evs : List PinEvent) :
    afterDelay f (txAt s n b p N k ph w v evs) = f (txAt s n b p (N + w) k ph 0 v evs) := by
  have h : fgDelay (txAt s n b p N k ph w v evs) = .next (txAt s n b p (N + w) k ph 0 v evs) := by
    rw [fgDelay_masked rfl]
    unfold txAt
    rw [← advance_add]
    rfl
  exact afterDelay_over h (delayOver_masked (s := txAt s n b p (N + w) k ph 0 v evs) rfl)

theorem txEnterBit_txAt {s : State} {n : Nat} {r : Inst} (h : s.insts[n]? = some r) (b : Byte) (N : Nat)
    (k j : Fin 8) (ph : TxPhase) (v : Level) (evs : List PinEvent) :
    txEnterBit j (txAt s n b r.strap.txPin N k ph 0 v evs) =
      .next (txAt s n b r.strap.txPin N j (.bit j) (delayCycles s.cfg r.profile.txDelay)
        (bitLevel r.strap (b.getLsbD j.val))
        (⟨s.now + N, r.strap.txPin, bitLevel r.strap (b.getLsbD j.val)⟩ :: evs)) := by
  have h' : (txAt s n b r.strap.txPin N k ph 0 v evs).insts[(txAt s n b r.strap.txPin N k ph 0 v evs).txInst]? = some r := h
  rw [txEnterBit, withInst_of h']
  simp only [txAt, pinWrite, setPin_setPin]
  rfl

/-- From `T_START` to `T_BIT(0)` (rules R143, R144). -/
theorem txPhase_start {s : State} {n : Nat} {r : Inst} (h : s.insts[n]? = some r) (b : Byte) (N : Nat)
    (k : Fin 8) (w : Nat) (v : Level) (evs : List PinEvent) :
    txPhaseStep (txAt s n b r.strap.txPin N k .start w v evs) =
      .next (txAt s n b r.strap.txPin (N + w) 0 (.bit 0) (delayCycles s.cfg r.profile.txDelay)
        (bitLevel r.strap (b.getLsbD 0))
        (⟨s.now + (N + w), r.strap.txPin, bitLevel r.strap (b.getLsbD 0)⟩ :: evs)) := by
  show afterDelay (txEnterBit 0) (txAt s n b r.strap.txPin N k .start w v evs) = _
  rw [afterDelay_txAt, txEnterBit_txAt h]
  rfl

/-- From `T_BIT(k)` to `T_BIT(k + 1)` (rule R144). -/
theorem txPhase_bit {s : State} {n : Nat} {r : Inst} (h : s.insts[n]? = some r) (b : Byte) (N : Nat)
    (k j : Fin 8) (w : Nat) (v : Level) (evs : List PinEvent) (hk : k ≠ 7) :
    txPhaseStep (txAt s n b r.strap.txPin N k (.bit j) w v evs) =
      .next (txAt s n b r.strap.txPin (N + w) (k + 1) (.bit (k + 1)) (delayCycles s.cfg r.profile.txDelay)
        (bitLevel r.strap (b.getLsbD (k + 1).val))
        (⟨s.now + (N + w), r.strap.txPin, bitLevel r.strap (b.getLsbD (k + 1).val)⟩ :: evs)) := by
  show afterDelay (fun s' => if s'.txK = 7 then txEnterStop s' else txEnterBit (s'.txK + 1) s')
    (txAt s n b r.strap.txPin N k (.bit j) w v evs) = _
  rw [afterDelay_txAt]
  show (if k = 7 then _ else txEnterBit (k + 1) (txAt s n b r.strap.txPin (N + w) k (.bit j) 0 v evs)) = _
  rw [if_neg hk, txEnterBit_txAt h]

/-- From `T_BIT(7)` to `T_STOP` (rule R145). -/
theorem txPhase_lastBit {s : State} {n : Nat} {r : Inst} (h : s.insts[n]? = some r) (b : Byte) (N : Nat)
    (j : Fin 8) (w : Nat) (v : Level) (evs : List PinEvent) :
    txPhaseStep (txAt s n b r.strap.txPin N 7 (.bit j) w v evs) =
      .next { txAt s n b r.strap.txPin (N + w) 7 .stop (delayCycles s.cfg r.profile.txDelay) (idleLevel r.strap)
        (⟨s.now + (N + w), r.strap.txPin, idleLevel r.strap⟩ :: evs) with gie := s.gie } := by
  show afterDelay (fun s' => if s'.txK = 7 then txEnterStop s' else txEnterBit (s'.txK + 1) s')
    (txAt s n b r.strap.txPin N 7 (.bit j) w v evs) = _
  rw [afterDelay_txAt]
  show txEnterStop (txAt s n b r.strap.txPin (N + w) 7 (.bit j) 0 v evs) = _
  have h' : (txAt s n b r.strap.txPin (N + w) 7 (.bit j) 0 v evs).insts[
      (txAt s n b r.strap.txPin (N + w) 7 (.bit j) 0 v evs).txInst]? = some r := h
  rw [txEnterStop, withInst_of h']
  simp only [txAt, pinWrite, setPin_setPin]
  rfl

/-- A `WRITE` at its stop level: all but the stop delay is done, `gie` is restored (rule R145). -/
def atStop (n : Nat) (r : Inst) (b : Byte) (s : State) : State :=
  let A := delayCycles s.cfg (startCount s.cfg r.profile)
  let T := delayCycles s.cfg r.profile.txDelay
  { txAt s n b r.strap.txPin (A + 8 * T) 7 .stop T (idleLevel r.strap) (writeTrace s.now A T r.strap b) with
    gie := s.gie }

/-- The nine phases from the start level to the stop level (rules R142 to R145). -/
theorem write_toStop {s : State} {n : Nat} {r : Inst} (h : s.insts[n]? = some r) (b : Byte) :
    repeatStep txPhaseStep 9 (beginWrite n r b s) = .next (atStop n r b s) := by
  have e1 : (0 : Fin 8) + 1 = 1 := rfl
  have e2 : (1 : Fin 8) + 1 = 2 := rfl
  have e3 : (2 : Fin 8) + 1 = 3 := rfl
  have e4 : (3 : Fin 8) + 1 = 4 := rfl
  have e5 : (4 : Fin 8) + 1 = 5 := rfl
  have e6 : (5 : Fin 8) + 1 = 6 := rfl
  have e7 : (6 : Fin 8) + 1 = 7 := rfl
  rw [beginWrite_eq]
  simp (disch := decide) only [repeatStep, txPhase_start h, txPhase_bit h, txPhase_lastBit h, andThen_next,
    e1, e2, e3, e4, e5, e6, e7]
  have v1 : (1 : Fin 8).val = 1 := rfl
  have v2 : (2 : Fin 8).val = 2 := rfl
  have v3 : (3 : Fin 8).val = 3 := rfl
  have v4 : (4 : Fin 8).val = 4 := rfl
  have v5 : (5 : Fin 8).val = 5 := rfl
  have v6 : (6 : Fin 8).val = 6 := rfl
  have v7 : (7 : Fin 8).val = 7 := rfl
  unfold atStop writeTrace
  simp only [v1, v2, v3, v4, v5, v6, v7]
  generalize delayCycles s.cfg (startCount s.cfg r.profile) = A
  generalize delayCycles s.cfg r.profile.txDelay = T
  have a0 : 0 + A = A + 0 * T := by omega
  have a1 : A + 0 * T + T = A + 1 * T := by omega
  have a2 : A + 1 * T + T = A + 2 * T := by omega
  have a3 : A + 2 * T + T = A + 3 * T := by omega
  have a4 : A + 3 * T + T = A + 4 * T := by omega
  have a5 : A + 4 * T + T = A + 5 * T := by omega
  have a6 : A + 5 * T + T = A + 6 * T := by omega
  have a7 : A + 6 * T + T = A + 7 * T := by omega
  have a8 : A + 7 * T + T = A + 8 * T := by omega
  simp only [a0, a1, a2, a3, a4, a5, a6, a7, a8, Nat.add_assoc]

/-- The stop phase (rule R146). -/
theorem txPhase_stop {s : State} (h : s.txPhase = .stop) :
    txPhaseStep s = afterDelay (fun t => reply (.count 1) { t with txPhase := .idle }) s := by
  unfold txPhaseStep
  rw [h]

/-- A successful `WRITE` is its frame and then its stop phase. -/
theorem execWrite_eq {s : State} {n : Nat} {r : Inst} (h : s.insts[n]? = some r) (b : Byte)
    (ht : r.profile.txDelay ≠ 0) :
    execWrite n b s =
      afterDelay (fun t => reply (.count 1) { t with txPhase := .idle }) (atStop n r b s) := by
  have hr (k : State → Result) (m : Nat) (u : State) :
      repeatStep k (m + 1) u = andThen (repeatStep k m u) k := by
    induction m generalizing u with
    | zero => simp only [repeatStep, andThen_next]; cases k u <;> rfl
    | succ m ih =>
      rw [repeatStep_succ, repeatStep_succ, andThen_assoc]
      congr 1
      funext v
      exact ih v
  rw [execWrite, withPort_of h, if_neg ht, hr txPhaseStep 9, write_toStop h, andThen_next, txPhase_stop rfl]

end Sys2Proof.Machine
end

