-- ==== Sys2Proof/Laws/Step.lean ====
section
/-! SUPPORT. Everything an operation, a phase and a step can do when they answer a next state. -/

namespace Sys2Proof.Machine

open Sys2Proof

/-! ### Overflow flags -/

/-- No overflow flag is cleared on the way. -/
def OverflowLasts (s t : State) : Prop :=
  ∀ (n : Nat) (r : Inst), s.insts[n]? = some r → r.overflow = true → ∃ r', t.insts[n]? = some r' ∧ r'.overflow = true

theorem OverflowLasts.refl (s : State) : OverflowLasts s s := fun _ r h ho => ⟨r, h, ho⟩

theorem OverflowLasts.trans {s t u : State} (h : OverflowLasts s t) (g : OverflowLasts t u) : OverflowLasts s u := by
  intro n r hr ho
  obtain ⟨r', hr', ho'⟩ := h n r hr ho
  exact g n r' hr' ho'

theorem OverflowLasts.of_insts {s t : State} (h : t.insts = s.insts) : OverflowLasts s t :=
  fun _ r hr ho => ⟨r, by rw [h]; exact hr, ho⟩

theorem overflowLasts_setOverflow {s t : State} {m : Nat} (h : t.insts = s.insts.modify m Inst.setOverflow) :
    OverflowLasts s t := by
  intro n r hr ho
  rw [h, List.getElem?_modify]
  by_cases hm : m = n <;> simp [hm, hr, ho]

theorem runHandler_overflowLasts {s t : State} {c : Level} {cells : Byte} (h : runHandler c cells s = .next t) :
    OverflowLasts s t := by
  obtain ⟨r, hr, ⟨_, rfl⟩ | ⟨_, _, rfl⟩ | ⟨_, _, _, rfl⟩⟩ := runHandler_spec h
  · exact .of_insts rfl
  · exact overflowLasts_setOverflow (m := s.rxInst) rfl
  · exact .of_insts rfl

theorem serveInterrupt_overflowLasts {s t : State} {x : SourceId} (hx : ready s = some x)
    (h : serveInterrupt x s = .next t) : OverflowLasts s t := by
  rcases serveInterrupt_spec hx h with ⟨_, rfl⟩ | ⟨n, r, _, _, h⟩
  · exact .of_insts (by simp)
  · exact (OverflowLasts.of_insts (by simp)).trans (runHandler_overflowLasts h)

/-! ### The phases of the handler -/

/-- Every phase of the handler leaves the foreground's state as it is and clears no overflow flag. -/
theorem rxPhaseWith_kept {v : Level} {s t : State} (h : rxPhaseWith v s = .next t) :
    KeptByHandler s t ∧ OverflowLasts s t := by
  unfold rxPhaseWith at h
  split at h
  · cases h
    exact ⟨.refl _, .refl _⟩
  · obtain ⟨r, hr, h⟩ := withInst_eq_next.1 h
    split at h <;> cases h <;> exact ⟨by constructor <;> rfl, .of_insts rfl⟩
  · obtain ⟨r, hr, h⟩ := withInst_eq_next.1 h
    cases h
    exact ⟨by constructor <;> rfl, .of_insts rfl⟩
  · unfold rxSample at h
    simp only at h
    split at h <;> obtain ⟨r, hr, h⟩ := withInst_eq_next.1 h <;> cases h <;>
      exact ⟨by constructor <;> rfl, .of_insts rfl⟩
  · obtain ⟨r, hr, h⟩ := withInst_eq_next.1 h
    cases h
    exact ⟨by constructor <;> rfl, .of_insts rfl⟩
  · obtain ⟨r, hr, h⟩ := withInst_eq_next.1 h
    obtain ⟨u, hu, h⟩ := (andThen_eq_next _ _ _).1 h
    cases h
    rcases bufPush_spec hu with ⟨_, rfl⟩ | ⟨_, _, rfl⟩
    · refine ⟨?_, overflowLasts_setOverflow (m := s.rxInst) rfl⟩
      constructor
      case insts => exact map_modify_setOverflow _ _
      all_goals rfl
    · exact ⟨by constructor <;> rfl, .of_insts rfl⟩

/-! ### A foreground delay -/

/-- What a foreground delay that starts with the handler not running does. -/
theorem fgDelay_spec {s t : State} (hi : s.rxPhase = .idle) (h : fgDelay s = .next t) :
    KeptByHandler { s with fgWait := t.fgWait } t ∧ OverflowLasts s t ∧ t.rxPhase = .idle ∧ t.gie = s.gie ∧
      s.now + s.fgWait ≤ t.now + t.fgWait := by
  refine fgDelay_induct
    (P := fun u => KeptByHandler { s with fgWait := u.fgWait } u ∧ OverflowLasts s u ∧ u.rxPhase = .idle ∧
      u.gie = s.gie ∧ s.now + s.fgWait ≤ u.now + u.fgWait)
    (s := s) (t := t) ?_ ?_ ⟨.refl _, .refl _, hi, rfl, Nat.le_refl _⟩ h
  · rintro u d ⟨h1, h2, h3, h4, h5⟩ _ _ hd
    refine ⟨⟨h1.cfg, h1.insts, h1.active, h1.head, h1.pinOut, h1.enable0, h1.enable1, h1.sense0, h1.sense1,
      h1.txInst, h1.txB, h1.txK, h1.txSavedGie, h1.cfgInst, h1.txPhase, h1.cfgPhase, rfl, h1.lineIn, h1.script,
      h1.rsp, h1.wire⟩, h2, h3, h4, ?_⟩
    show s.now + s.fgWait ≤ u.now + d + (u.fgWait - d)
    omega
  · rintro u x v ⟨h1, h2, h3, h4, h5⟩ hx hv
    obtain ⟨hk, g1, g2, g3⟩ := serveInterrupt_kept hx hv
    have hg := ((fires_iff u x).1 (ready_fires hx)).1
    rw [hk.fgWait]
    refine ⟨h1.trans hk, h2.trans (serveInterrupt_overflowLasts hx hv), g1, ?_, ?_⟩
    · rw [g2, ← h4, hg]
    · omega

/-- A whole interrupt sets no overflow flag but the active listener's. -/
theorem serveInterrupt_insts {s t : State} {x : SourceId} (hx : ready s = some x) (h : serveInterrupt x s = .next t)
    {m : Nat} (hm : some m ≠ s.active) : t.insts[m]? = s.insts[m]? := by
  rcases serveInterrupt_spec hx h with ⟨_, rfl⟩ | ⟨n, _, ha, _, hr⟩
  · simp
  · have hne : n ≠ m := fun e => hm (by rw [ha, e])
    have hi : (enterHandler x s).rxInst = n := by rw [enterHandler_some ha]
    obtain ⟨r, _, ⟨_, rfl⟩ | ⟨_, _, rfl⟩ | ⟨_, _, _, rfl⟩⟩ := runHandler_spec hr
    · show (enterHandler x s).insts[m]? = _
      simp
    · show ((enterHandler x s).insts.modify (enterHandler x s).rxInst Inst.setOverflow)[m]? = _
      simp [hi, hne]
    · show (enterHandler x s).insts[m]? = _
      simp

/-- Nor does a foreground delay. -/
theorem fgDelay_insts {s t : State} (h : fgDelay s = .next t) {m : Nat} (hm : some m ≠ s.active) :
    t.insts[m]? = s.insts[m]? :=
  (fgDelay_induct (P := fun u => u.active = s.active ∧ u.insts[m]? = s.insts[m]?) (fun _ _ h _ _ _ => h)
    (fun _ _ _ h hx ht => ⟨(serveInterrupt_kept hx ht).1.active.trans h.1,
      (serveInterrupt_insts hx ht (by rw [h.1]; exact hm)).trans h.2⟩) ⟨rfl, rfl⟩ h).2

/-! ### Operations -/

/-- Every way `LISTEN`'s part can go. -/
theorem takeOver_cases (n : Nat) (s : State) :
    (s.active = some n ∧ takeOver n s = s) ∨
    (s.active ≠ some n ∧ takeOver n s =
      { modifyInst n Inst.clearOverflow s with head := 0, tail := 0, stored := 0, active := some n }) := by
  unfold takeOver
  by_cases h : s.active = some n
  · exact .inl ⟨h, by simp [h]⟩
  · exact .inr ⟨h, by simp [h]; rfl⟩

/-- Every way `WRITE` can answer a next state. -/
theorem execWrite_spec {n : Nat} {b : Byte} {s t : State} (h : execWrite n b s = .next t) :
    ∃ r, s.insts[n]? = some r ∧
      ((r.profile.txDelay = 0 ∧ t = { modifyInst n Inst.setWriteError s with rsp := some (.count 0) }) ∨
       (r.profile.txDelay ≠ 0 ∧ ∃ u, fgDelay (atStop n r b s) = .next u ∧
          ((delayOver u = true ∧ t = { u with txPhase := .idle, rsp := some (.count 1) }) ∨
           (delayOver u = false ∧ t = u)))) := by
  obtain ⟨r, hr, h'⟩ := withPort_eq_next.1 h
  refine ⟨r, hr, ?_⟩
  by_cases ht : r.profile.txDelay = 0
  · rw [if_pos ht] at h'
    cases h'
    exact .inl ⟨ht, rfl⟩
  · rw [execWrite_eq hr b ht] at h
    obtain ⟨u, hu, ⟨ho, h⟩ | ⟨ho, rfl⟩⟩ := afterDelay_spec h
    · cases h
      exact .inr ⟨ht, u, hu, .inl ⟨ho, rfl⟩⟩
    · exact .inr ⟨ht, t, hu, .inr ⟨ho, rfl⟩⟩

/-- Every way `CONFIGURE` can answer a next state. -/
theorem execConfigure_spec {n : Nat} {baud : BitVec 32} {s t : State} (h : execConfigure n baud s = .next t) :
    ∃ r, s.insts[n]? = some r ∧
      ((rxViable (lookupBaud s.cfg baud) = false ∧
          t = { takeOver n { setProfile n (lookupBaud s.cfg baud) s with cfgPhase := .idle } with rsp := some .done }) ∨
       (rxViable (lookupBaud s.cfg baud) = true ∧ ∃ u,
          fgDelay (beginSettle n r.strap.rxSrc (lookupBaud s.cfg baud) (setProfile n (lookupBaud s.cfg baud) s)) =
            .next u ∧
          ((delayOver u = true ∧ t = { takeOver u.cfgInst { u with cfgPhase := .idle } with rsp := some .done }) ∨
           (delayOver u = false ∧ t = u)))) := by
  obtain ⟨r, hr, h⟩ := withPort_eq_next.1 h
  refine ⟨r, hr, ?_⟩
  by_cases hv : rxViable (lookupBaud s.cfg baud) = true
  · simp only [hv, if_true] at h
    have hp : (beginSettle n r.strap.rxSrc (lookupBaud s.cfg baud) (setProfile n (lookupBaud s.cfg baud) s)).cfgPhase
        = .settle := rfl
    rw [cfgPhaseStep] at h
    simp only [hp] at h
    obtain ⟨u, hu, ⟨ho, h⟩ | ⟨ho, rfl⟩⟩ := afterDelay_spec h
    · obtain ⟨_, _, h⟩ := withInst_eq_next.1 h
      cases h
      exact .inr ⟨hv, u, hu, .inl ⟨ho, rfl⟩⟩
    · exact .inr ⟨hv, t, hu, .inr ⟨ho, rfl⟩⟩
  · rw [Bool.not_eq_true] at hv
    simp only [hv, Bool.false_eq_true, if_false] at h
    obtain ⟨_, _, h⟩ := withInst_eq_next.1 h
    cases h
    exact .inl ⟨hv, rfl⟩

/-- Every way `READ` can answer a next state. -/
theorem execRead_spec {n : Nat} {s t : State} (h : execRead n s = .next t) :
    n < ninst s ∧ (t = { s with rsp := some .noData } ∨
      (s.active = some n ∧ s.head ≠ s.tail ∧ s.head < s.cfg.cap ∧
        t = { s with head := nextIndex s.cfg s.head, rsp := some (.byte (Memory.read s.buf s.head)) })) := by
  obtain ⟨r, hr, h⟩ := withPort_eq_next.1 h
  refine ⟨(List.getElem?_eq_some_iff.1 hr).1, ?_⟩
  by_cases ha : s.active = some n
  · rw [if_neg (by simpa using ha)] at h
    by_cases he : bufEmpty s = true
    · rw [if_pos he] at h
      cases h
      exact .inl rfl
    · rw [if_neg he] at h
      obtain ⟨hh, h⟩ := memRead_spec.1 h
      cases h
      exact .inr ⟨ha, by simpa [bufEmpty] using he, hh, rfl⟩
  · rw [if_pos ha] at h
    cases h
    exact .inl rfl

/-- Every way `PEEK` can answer a next state: only the response is written. -/
theorem execPeek_spec {n : Nat} {s t : State} (h : execPeek n s = .next t) :
    n < ninst s ∧ ∃ v, t = { s with rsp := some v } := by
  obtain ⟨r, hr, h⟩ := withPort_eq_next.1 h
  refine ⟨(List.getElem?_eq_some_iff.1 hr).1, ?_⟩
  by_cases ha : s.active = some n
  · rw [if_neg (by simpa using ha)] at h
    by_cases he : bufEmpty s = true
    · rw [if_pos he] at h
      cases h
      exact ⟨_, rfl⟩
    · rw [if_neg he] at h
      obtain ⟨_, h⟩ := memRead_spec.1 h
      cases h
      exact ⟨_, rfl⟩
  · rw [if_pos ha] at h
    cases h
    exact ⟨_, rfl⟩

theorem execIslisten_spec {n : Nat} {s t : State} (h : execIslisten n s = .next t) :
    n < ninst s ∧ t = { s with rsp := some (.flag (s.active == some n)) } := by
  obtain ⟨r, hr, h⟩ := withPort_eq_next.1 h
  cases h
  exact ⟨(List.getElem?_eq_some_iff.1 hr).1, rfl⟩

theorem execAvail_spec {n : Nat} {s t : State} (h : execAvail n s = .next t) :
    n < ninst s ∧ ∃ v, t = { s with rsp := some v } := by
  obtain ⟨r, hr, h⟩ := withPort_eq_next.1 h
  refine ⟨(List.getElem?_eq_some_iff.1 hr).1, ?_⟩
  split at h <;> cases h <;> exact ⟨_, rfl⟩

theorem execFlush_spec {n : Nat} {s t : State} (h : execFlush n s = .next t) :
    n < ninst s ∧ (t = { s with rsp := some .done } ∨
      (s.active = some n ∧ t = { s with head := 0, tail := 0, stored := 0, rsp := some .done })) := by
  obtain ⟨r, hr, h⟩ := withPort_eq_next.1 h
  refine ⟨(List.getElem?_eq_some_iff.1 hr).1, ?_⟩
  split at h <;> cases h
  · exact .inl rfl
  · rename_i ha
    exact .inr ⟨by simpa using ha, rfl⟩

theorem execStatus_spec {n : Nat} {s t : State} (h : execStatus n s = .next t) :
    n < ninst s ∧ ∃ v, t = { s with rsp := some v } := by
  obtain ⟨r, hr, h⟩ := withPort_eq_next.1 h
  cases h
  exact ⟨(List.getElem?_eq_some_iff.1 hr).1, _, rfl⟩

theorem execListen_spec {n : Nat} {s t : State} (h : execListen n s = .next t) :
    n < ninst s ∧ t = { takeOver n s with rsp := some (.flag (s.active != some n)) } := by
  obtain ⟨r, hr, h⟩ := withPort_eq_next.1 h
  cases h
  exact ⟨(List.getElem?_eq_some_iff.1 hr).1, rfl⟩

theorem execShutdown_spec {n : Nat} {s t : State} (h : execShutdown n s = .next t) :
    ∃ r, s.insts[n]? = some r ∧
      t = { setSource r.strap.rxSrc (fun i => { i with enable := false }) s with gie := false, rsp := some .done } := by
  obtain ⟨r, hr, h⟩ := withPort_eq_next.1 h
  cases h
  exact ⟨r, hr, rfl⟩

/-! ### Phases of the foreground -/

/-- Every way a phase of `WRITE` can answer a next state: it stays within its delay, or goes on. -/
theorem txPhaseStep_spec {s t : State} (h : txPhaseStep s = .next t) :
    (s.txPhase = .idle ∧ t = s) ∨
    (s.txPhase ≠ .idle ∧ ∃ u, fgDelay s = .next u ∧
      ((delayOver u = false ∧ t = u) ∨
       (delayOver u = true ∧
        ((s.txPhase = .stop ∧ t = { u with txPhase := .idle, rsp := some (.count 1) }) ∨
         (s.txPhase ≠ .stop ∧ ∃ r, u.insts[u.txInst]? = some r ∧
          ((∃ k, (s.txPhase = .start ∧ k = 0 ∨ s.txPhase ≠ .start ∧ u.txK ≠ 7 ∧ k = u.txK + 1) ∧
              t = { pinWrite r.strap.txPin (bitLevel r.strap (u.txB.getLsbD k.val)) u with
                txPhase := .bit k, txK := k, fgWait := delayCycles u.cfg r.profile.txDelay }) ∨
           (s.txPhase ≠ .start ∧ u.txK = 7 ∧
              t = { pinWrite r.strap.txPin (idleLevel r.strap) u with
                gie := u.txSavedGie, txPhase := .stop, fgWait := delayCycles u.cfg r.profile.txDelay }))))))) := by
  unfold txPhaseStep at h
  split at h
  · cases h
    exact .inl ⟨‹_›, rfl⟩
  · rename_i hp
    refine .inr ⟨by rw [hp]; exact nofun, ?_⟩
    obtain ⟨u, hu, ⟨ho, h⟩ | ⟨ho, rfl⟩⟩ := afterDelay_spec h
    · obtain ⟨r, hr, h⟩ := withInst_eq_next.1 h
      cases h
      exact ⟨u, hu, .inr ⟨ho, .inr ⟨by rw [hp]; exact nofun, r, hr, .inl ⟨0, .inl ⟨hp, rfl⟩, rfl⟩⟩⟩⟩
    · exact ⟨t, hu, .inl ⟨ho, rfl⟩⟩
  · rename_i k hp
    refine .inr ⟨by rw [hp]; exact nofun, ?_⟩
    obtain ⟨u, hu, ⟨ho, h⟩ | ⟨ho, rfl⟩⟩ := afterDelay_spec h
    · refine ⟨u, hu, .inr ⟨ho, .inr ⟨by rw [hp]; exact nofun, ?_⟩⟩⟩
      split at h
      · rename_i hk
        obtain ⟨r, hr, h⟩ := withInst_eq_next.1 h
        cases h
        exact ⟨r, hr, .inr ⟨by rw [hp]; exact nofun, hk, rfl⟩⟩
      · rename_i hk
        obtain ⟨r, hr, h⟩ := withInst_eq_next.1 h
        cases h
        exact ⟨r, hr, .inl ⟨_, .inr ⟨by rw [hp]; exact nofun, hk, rfl⟩, rfl⟩⟩
    · exact ⟨t, hu, .inl ⟨ho, rfl⟩⟩
  · rename_i hp
    refine .inr ⟨by rw [hp]; exact nofun, ?_⟩
    obtain ⟨u, hu, ⟨ho, h⟩ | ⟨ho, rfl⟩⟩ := afterDelay_spec h
    · cases h
      exact ⟨u, hu, .inr ⟨ho, .inl ⟨hp, rfl⟩⟩⟩
    · exact ⟨t, hu, .inl ⟨ho, rfl⟩⟩

/-- Every way the settle phase of `CONFIGURE` can answer a next state: it stays within its delay, or ends. -/
theorem cfgPhaseStep_spec {s t : State} (h : cfgPhaseStep s = .next t) :
    (s.cfgPhase = .idle ∧ t = s) ∨
    (s.cfgPhase = .settle ∧ ∃ u, fgDelay s = .next u ∧
      ((delayOver u = false ∧ t = u) ∨
       (delayOver u = true ∧ u.cfgInst < ninst u ∧
        t = { takeOver u.cfgInst { u with cfgPhase := .idle } with rsp := some .done }))) := by
  unfold cfgPhaseStep at h
  split at h
  · cases h
    exact .inl ⟨‹_›, rfl⟩
  · rename_i hp
    refine .inr ⟨hp, ?_⟩
    obtain ⟨u, hu, ⟨ho, h⟩ | ⟨ho, rfl⟩⟩ := afterDelay_spec h
    · obtain ⟨r, hr, h⟩ := withInst_eq_next.1 h
      cases h
      exact ⟨u, hu, .inr ⟨ho, (List.getElem?_eq_some_iff.1 hr).1, rfl⟩⟩
    · exact ⟨t, hu, .inl ⟨ho, rfl⟩⟩

/-! ### A step -/

/-- What a command word decodes to is addressed to an instance: no command starts the handler (rule R72). -/
theorem decodeCommand_target {w : CommandWord} {i : Instr} (h : decodeCommand w = .ok i) : i.target ≠ none := by
  unfold decodeCommand at h
  split at h <;> cases h <;> exact nofun

/-- A frame that is fetched is the frame of its first level. -/
theorem decodeFrame_fetchFrame (s : State) (r : Inst) :
    decodeFrame (fetchFrame s r) = .ok
      (match (waveOf s (rxPin s r)).levelAt (checkInstant s) with
       | .L => .rxisr (sampledCells s r)
       | .H => .rxisrInv (sampledCells s r)) := by
  unfold fetchFrame decodeFrame
  simp only [frameWord_start, frameWord_stop, dataCells_frameWord]
  cases (waveOf s (rxPin s r)).levelAt (checkInstant s) <;> rfl

/-- The run of a fetched frame is the handler on what the line carries. -/
theorem exec_fetchFrame {s : State} {r : Inst} {i : Instr} (h : decodeFrame (fetchFrame s r) = .ok i) (u : State) :
    exec i u = runHandler ((waveOf s (rxPin s r)).levelAt (checkInstant s)) (sampledCells s r) u := by
  rw [decodeFrame_fetchFrame] at h
  cases h
  cases (waveOf s (rxPin s r)).levelAt (checkInstant s) <;> rfl

/-- Every way a step can answer a next state. -/
theorem step_spec {s t : State} (h : step s = .next t) :
    configOk s.cfg (straps s) = true ∧
    ((s.rxPhase = .check ∧ ∃ r, s.insts[s.rxInst]? = some r ∧
        runHandler ((waveOf s (rxPin s r)).levelAt (checkInstant s)) (sampledCells s r) s = .next t) ∨
     (s.rxPhase ≠ .idle ∧ s.rxPhase ≠ .check ∧ ∃ r, s.insts[s.rxInst]? = some r ∧
        rxPhaseWith (pinRead (rxPin s r) (isrDelay s)) s = .next t) ∨
     (s.rxPhase = .idle ∧ ∃ x, ready s = some x ∧ t = enterHandler x s) ∨
     (s.rxPhase = .idle ∧ ready s = none ∧ s.txPhase ≠ .idle ∧ txPhaseStep s = .next t) ∨
     (s.rxPhase = .idle ∧ ready s = none ∧ s.txPhase = .idle ∧ s.cfgPhase ≠ .idle ∧ cfgPhaseStep s = .next t) ∨
     (takesCommand s ∧ ready s = none ∧ ∃ c rest i, s.script = c :: rest ∧ c.notBefore ≤ s.now ∧
        decodeCommand c.word = .ok i ∧ exec i { s with script := rest, rsp := none } = .next t) ∨
     (takesCommand s ∧ ready s = none ∧ t = idleAdvance s)) := by
  unfold step nextMove at h
  by_cases hc : configOk s.cfg (straps s) = true
  case neg => simp [hc] at h
  refine ⟨hc, ?_⟩
  rw [if_pos hc] at h
  by_cases h1 : s.rxPhase = .check
  · rw [if_pos h1, handlerMove] at h
    cases hr : s.insts[s.rxInst]? with
    | none => simp [hr] at h
    | some r =>
      simp only [hr] at h
      cases hd : decodeFrame (fetchFrame s r) with
      | error e => rw [decodeFrame_fetchFrame] at hd; cases hd
      | ok i =>
        rw [hd] at h
        exact .inl ⟨h1, r, rfl, (exec_fetchFrame hd s).symm.trans h⟩
  rw [if_neg h1] at h
  by_cases h2 : s.rxPhase = .idle
  case neg =>
    rw [if_pos h2] at h
    obtain ⟨r, hr, h⟩ := withInst_eq_next.1 h
    exact .inr (.inl ⟨h2, h1, r, hr, h⟩)
  rw [if_neg (not_not.2 h2)] at h
  cases hx : ready s with
  | some x =>
    simp only [hx] at h
    cases h
    exact .inr (.inr (.inl ⟨h2, x, rfl, rfl⟩))
  | none =>
    simp only [hx] at h
    by_cases h3 : s.txPhase = .idle
    case neg =>
      rw [if_pos h3] at h
      exact .inr (.inr (.inr (.inl ⟨h2, rfl, h3, h⟩)))
    rw [if_neg (not_not.2 h3)] at h
    by_cases h4 : s.cfgPhase = .idle
    case neg =>
      rw [if_pos h4] at h
      exact .inr (.inr (.inr (.inr (.inl ⟨h2, rfl, h3, h4, h⟩))))
    rw [if_neg (not_not.2 h4), hostMove] at h
    cases hs : s.script with
    | nil =>
      simp only [hs] at h
      cases h
      exact .inr (.inr (.inr (.inr (.inr (.inr ⟨⟨h2, h3, h4⟩, rfl, rfl⟩)))))
    | cons c rest =>
      simp only [hs] at h
      by_cases h5 : c.notBefore ≤ s.now
      · rw [if_pos h5] at h
        cases hd : decodeCommand c.word with
        | error e => simp [hd, runDecoded] at h
        | ok i =>
          rw [hd] at h
          exact .inr (.inr (.inr (.inr (.inr (.inl ⟨⟨h2, h3, h4⟩, rfl, c, rest, i, rfl, h5, hd, h⟩)))))
      · rw [if_neg h5] at h
        cases h
        exact .inr (.inr (.inr (.inr (.inr (.inr ⟨⟨h2, h3, h4⟩, rfl, rfl⟩)))))

end Sys2Proof.Machine
end

