-- ==== Sys2Proof/Laws/Invariants.lean ====
section
/-! SUPPORT. What keeps the invariants of Safety.lean: one lemma per operation over the state; and the arithmetic of the
ring. -/

namespace Sys2Proof.Machine

open Sys2Proof

/-! ### The configuration -/

theorem configOk_iff (c : Config) (l : List Strap) :
    configOk c l = true ↔
      1 ≤ l.length ∧ 2 ≤ c.cap ∧ 1 ≤ c.delayScale ∧ (l.map Strap.txPin).Nodup ∧
        ∀ t ∈ l, t.txPin ≠ c.srcPin0 ∧ t.txPin ≠ c.srcPin1 := by
  simp only [configOk, hasInstance, capOk, scaleOk, txPinsDistinct, txPinsNotReceive, and_assoc, Bool.and_eq_true,
    decide_eq_true_eq, List.all_eq_true, bne_iff_ne]

theorem Inv.cap {s : State} (h : Inv s) : 2 ≤ s.cfg.cap := ((configOk_iff _ _).1 h.config).2.1

/-- Two instances drive two pins (rule R22). -/
theorem Inv.txPin_ne {s : State} (h : Inv s) {m n : Nat} {r q : Inst} (hm : s.insts[m]? = some r)
    (hn : s.insts[n]? = some q) (hne : m ≠ n) : r.strap.txPin ≠ q.strap.txPin := by
  have hd := ((configOk_iff _ _).1 h.config).2.2.2.1
  intro e
  have a : ((straps s).map Strap.txPin)[m]? = some r.strap.txPin := by simp [straps, hm]
  have b : ((straps s).map Strap.txPin)[n]? = some r.strap.txPin := by simp [straps, hn, e]
  exact hne ((List.getElem?_inj (List.getElem?_eq_some_iff.1 a).1 hd).1 (a.trans b.symm))

theorem map_strap_modify {l : List Inst} {n : Nat} {f : Inst → Inst} (hf : ∀ r, (f r).strap = r.strap) :
    (l.modify n f).map Inst.strap = l.map Inst.strap := by
  apply List.ext_getElem?
  intro i
  simp only [List.getElem?_map, List.getElem?_modify]
  split <;> cases l[i]? <;> simp [hf]

/-! ### The ring (rules R40, R41) -/

theorem bufCount_lt (s : State) (hc : 2 ≤ s.cfg.cap) : bufCount s < s.cfg.cap := Nat.mod_lt _ (by omega)

/-- The count is the distance from `head` to `tail`. -/
theorem ringCount_cases {c h t : Nat} (hh : h < c) (ht : t < c) :
    (h ≤ t ∧ (t + c - h) % c = t - h) ∨ (t < h ∧ (t + c - h) % c = t + c - h) := by
  by_cases e : h ≤ t
  · rw [show t + c - h = (t - h) + c by omega, Nat.add_mod_right, Nat.mod_eq_of_lt (by omega)]
    exact .inl ⟨e, rfl⟩
  · exact .inr ⟨by omega, Nat.mod_eq_of_lt (by omega)⟩

/-- The index after `x`. -/
theorem ringNext_cases {c x : Nat} (hx : x < c) :
    (x + 1 = c ∧ (x + 1) % c = 0) ∨ (x + 1 < c ∧ (x + 1) % c = x + 1) := by
  rcases Nat.lt_or_ge (x + 1) c with e | e
  · exact .inr ⟨e, Nat.mod_eq_of_lt e⟩
  · have : x + 1 = c := by omega
    exact .inl ⟨this, by rw [this, Nat.mod_self]⟩

/-- Advancing `tail` adds one to the count when there is room. -/
theorem ringCount_tail {c h t : Nat} (hh : h < c) (ht : t < c) (hf : (t + 1) % c ≠ h) :
    ((t + 1) % c + c - h) % c = (t + c - h) % c + 1 := by
  have hn : (t + 1) % c < c := Nat.mod_lt _ (by omega)
  rcases ringNext_cases ht with ⟨e1, e2⟩ | ⟨e1, e2⟩ <;> rcases ringCount_cases hh ht with ⟨e3, e4⟩ | ⟨e3, e4⟩ <;>
    rcases ringCount_cases hh hn with ⟨e5, e6⟩ | ⟨e5, e6⟩ <;> omega

/-- Advancing `head` takes one from the count when there is something. -/
theorem ringCount_head {c h t : Nat} (hh : h < c) (ht : t < c) (hne : h ≠ t) :
    (t + c - h) % c = (t + c - (h + 1) % c) % c + 1 := by
  have hn : (h + 1) % c < c := Nat.mod_lt _ (by omega)
  rcases ringNext_cases hh with ⟨e1, e2⟩ | ⟨e1, e2⟩ <;> rcases ringCount_cases hh ht with ⟨e3, e4⟩ | ⟨e3, e4⟩ <;>
    rcases ringCount_cases hn ht with ⟨e5, e6⟩ | ⟨e5, e6⟩ <;> omega

/-- The count after `n` bytes stored: `tail` is `n mod c`, so advancing `head` and storing keep step. -/
theorem ringNext_stored {c n t : Nat} (h : t = n % c) : (t + 1) % c = (n + 1) % c := by
  rw [h, Nat.mod_add_mod]

/-- The slot after the last unread byte is the one `tail` names. -/
theorem ringSlot_count {c h t : Nat} (hh : h < c) (ht : t < c) : (h + (t + c - h) % c) % c = t := by
  rw [Nat.add_mod_mod, show h + (t + c - h) = t + c by omega, Nat.add_mod_right, Nat.mod_eq_of_lt ht]

/-- Different distances from `head` are different slots. -/
theorem ringSlot_inj {c h i j : Nat} (hi : i < c) (hj : j < c) (e : (h + i) % c = (h + j) % c) : i = j := by
  have : i % c = j % c := Nat.ModEq.add_left_cancel' h (show h + i ≡ h + j [MOD c] from e)
  rwa [Nat.mod_eq_of_lt hi, Nat.mod_eq_of_lt hj] at this

/-- Rule R35 I-3: every slot that holds an unread byte is one of those the bytes stored since the indices were last 0
went to. -/
theorem Inv.written {s : State} (h : Inv s) {j : Nat} (hj : j < bufCount s) :
    ∃ p, p < s.stored ∧ (s.head + j) % s.cfg.cap = p % s.cfg.cap := by
  have hc := h.count_stored
  refine ⟨s.stored - bufCount s + j, by omega, ?_⟩
  have e : (s.head + bufCount s) % s.cfg.cap = s.stored % s.cfg.cap :=
    (ringSlot_count h.head_lt h.tail_lt).trans h.tail_stored
  have e' : s.head + bufCount s ≡ s.stored - bufCount s + bufCount s [MOD s.cfg.cap] := by
    rw [Nat.sub_add_cancel hc]
    exact e
  exact Nat.ModEq.add_right j (Nat.ModEq.add_right_cancel' _ e')

/-! ### Operations that keep the invariants -/

theorem Inv.advance {s : State} (h : Inv s) (n : Nat) : Inv (advance n s) :=
  { h with wirePast := fun e he => Nat.le_trans (h.wirePast e he) (Nat.le_add_right _ _) }

theorem Inv.passTime {s : State} (h : Inv s) (n : Nat) : Inv (passTime n s) :=
  have h := Inv.advance h n
  { h with }

/-- Neither the response nor the host's commands are looked at. -/
theorem Inv.port {s : State} (h : Inv s) (v : Option Response) (w : List HostCommand) :
    Inv { s with rsp := v, script := w } :=
  { h with }

/-- An instance may change in everything but its straps. -/
theorem Inv.modify {s : State} (h : Inv s) (n : Nat) {f : Inst → Inst} (hf : ∀ r, (f r).strap = r.strap) :
    Inv (modifyInst n f s) :=
  { h with
    config := by
      show configOk s.cfg ((s.insts.modify n f).map Inst.strap) = true
      rw [map_strap_modify hf]
      exact h.config
    active_lt := fun m a => by simpa [ninst] using h.active_lt m a
    rxInst_lt := fun a => by simpa [ninst] using h.rxInst_lt a
    txInst_lt := fun a => by simpa [ninst] using h.txInst_lt a
    cfgInst_lt := fun a => by simpa [ninst] using h.cfgInst_lt a
    pinsRest := fun m r a b => by
      simp only [modifyInst, List.getElem?_modify] at a
      cases hm : s.insts[m]? with
      | none => simp [hm] at a
      | some q =>
        have e : r.strap = q.strap := by
          by_cases hh : n = m <;> simp [hh, hm] at a <;> subst a <;> simp [hf]
        rw [e]
        exact h.pinsRest m q hm b }

/-- A push that finds room (rule R42). -/
theorem Inv.push {s : State} (h : Inv s) (hf : bufFull s = false) (v : Byte) :
    Inv { s with
      buf := Memory.write s.buf s.tail v, tail := nextIndex s.cfg s.tail, stored := s.stored + 1 } :=
  { h with
    tail_lt := Nat.mod_lt _ (by have := h.cap; omega)
    buf_wf := Memory.write_wf h.buf_wf _ _
    buf_range := fun c hc => by
      rcases Memory.mem_write hc with h1 | h1
      · rw [h1]
        exact h.tail_lt
      · exact h.buf_range c h1
    tail_stored := ringNext_stored h.tail_stored
    count_stored := by
      have hff : (s.tail + 1) % s.cfg.cap ≠ s.head := by simpa [bufFull, nextIndex] using hf
      have := ringCount_tail h.head_lt h.tail_lt hff
      have hc := h.count_stored
      unfold bufCount at hc
      show ((s.tail + 1) % s.cfg.cap + s.cfg.cap - s.head) % s.cfg.cap ≤ s.stored + 1
      omega }

/-- A read that takes a byte (rule R43). -/
theorem Inv.pop {s : State} (h : Inv s) (hne : s.head ≠ s.tail) : Inv { s with head := nextIndex s.cfg s.head } :=
  { h with
    head_lt := Nat.mod_lt _ (by have := h.cap; omega)
    count_stored := by
      have := ringCount_head h.head_lt h.tail_lt hne
      have hc := h.count_stored
      unfold bufCount at hc
      show (s.tail + s.cfg.cap - (s.head + 1) % s.cfg.cap) % s.cfg.cap ≤ s.stored
      omega }

/-- Both indices reset (rules R121, R164). -/
theorem Inv.resetIndices {s : State} (h : Inv s) : Inv (resetIndices s) :=
  have hc : 0 < s.cfg.cap := by have := h.cap; omega
  { h with
    head_lt := hc
    tail_lt := hc
    tail_stored := (Nat.zero_mod _).symm
    count_stored := by simp [bufCount] }

/-- `LISTEN`'s part (rules R121, R122). -/
theorem Inv.takeOver {s : State} (h : Inv s) {n : Nat} (hn : n < ninst s) : Inv (takeOver n s) := by
  rcases takeOver_cases n s with ⟨_, e⟩ | ⟨_, e⟩ <;> rw [e]
  · exact h
  · have hm := Inv.resetIndices (Inv.modify h n (f := Inst.clearOverflow) fun _ => rfl)
    exact { hm with active_lt := fun m a => by cases a; simpa [ninst] using hn }

theorem Inv.setProfile {s : State} (h : Inv s) (n : Nat) (p : Profile) : Inv (setProfile n p s) :=
  Inv.modify h n (f := fun r => { r with profile := p }) fun _ => rfl

theorem Inv.cfgIdle {s : State} (h : Inv s) : Inv { s with cfgPhase := .idle } :=
  { h with cfgInst_lt := fun a => absurd rfl a, oneOp := .inr rfl }

/-- The settle delay begins (rule R126). -/
theorem Inv.beginSettle {s : State} (h : Inv s) {n : Nat} (x : SourceId) (p : Profile) (hn : n < ninst s)
    (hc : takesCommand s) : Inv (beginSettle n x p s) := by
  have hx : ∀ {a : Prop}, s.txPhase.masking = true → a := fun e => by rw [hc.2.1] at e; cases e
  cases x <;>
    exact
      { h with
        cfgInst_lt := fun _ => hn
        oneOp := .inl hc.2.1
        rxMasks := fun a => absurd hc.1 a
        txMasks := fun a => hx a }

/-! ### The handler -/

theorem Inv.notMasking_of_rx {s : State} (h : Inv s) (hr : s.rxPhase ≠ .idle) : s.txPhase.masking = false := by
  cases hm : s.txPhase.masking with
  | false => rfl
  | true => exact absurd (h.txMasks hm).2 hr

theorem Inv.notMasking_of_gie {s : State} (h : Inv s) (hr : s.gie = true) : s.txPhase.masking = false := by
  cases hm : s.txPhase.masking with
  | false => rfl
  | true =>
    rw [(h.txMasks hm).1] at hr
    cases hr

/-- The return of the handler (rule R191). -/
theorem Inv.handlerReturn {s : State} (h : Inv s) (ht : s.txPhase.masking = false) (w : Nat) (d : Byte) (k : Fin 8) :
    Inv { s with rxPhase := .idle, gie := true, rxWait := w, rxD := d, rxK := k } :=
  { h with
    rxInst_lt := fun a => absurd rfl a
    rxK_eq := nofun
    rxMasks := fun a => absurd rfl a
    txMasks := fun a => by
      rw [ht] at a
      exact nomatch a }

theorem Inv.runHandler {s t : State} (h : Inv s) (hn : s.txPhase.masking = false) {c : Level} {cells : Byte}
    (hr : runHandler c cells s = .next t) : Inv t := by
  obtain ⟨r, hr, ⟨_, rfl⟩ | ⟨_, _, rfl⟩ | ⟨_, hf, _, rfl⟩⟩ := runHandler_spec hr
  · exact Inv.handlerReturn (Inv.advance h s.rxWait) hn _ _ _
  · exact Inv.modify (f := Inst.setOverflow) (Inv.handlerReturn (Inv.advance h _) hn 0 _ 7) s.rxInst fun _ => rfl
  · exact Inv.push (s := returnHandler (atStore s r cells)) (Inv.handlerReturn (Inv.advance h _) hn 0 _ 7) hf _

theorem Inv.enterHandler {s : State} (h : Inv s) {x : SourceId} (hx : ready s = some x) : Inv (enterHandler x s) := by
  have hi := (fires_iff s x).1 (ready_fires hx)
  have hm : ∀ {a : Prop}, s.txPhase.masking = true → a := fun e => by
    rw [h.notMasking_of_gie hi.1] at e
    cases e
  cases ha : s.active with
  | none =>
    rw [enterHandler_none ha]
    cases x <;> exact { h with rxMasks := fun a => absurd hi.2.2.2 a, txMasks := fun a => hm a }
  | some n =>
    rw [enterHandler_some ha]
    cases x <;>
      exact
        { h with
          rxInst_lt := fun _ => h.active_lt n ha
          rxK_eq := nofun
          rxMasks := fun _ => rfl
          txMasks := fun a => hm a }

theorem Inv.serveInterrupt {s t : State} (h : Inv s) {x : SourceId} (hx : ready s = some x)
    (hs : serveInterrupt x s = .next t) : Inv t := by
  have hi := (fires_iff s x).1 (ready_fires hx)
  rcases serveInterrupt_spec hx hs with ⟨_, rfl⟩ | ⟨n, r, _, _, hr⟩
  · exact Inv.enterHandler h hx
  · refine Inv.runHandler (Inv.enterHandler h hx) ?_ hr
    rw [(enterHandler_kept x s).txPhase]
    exact h.notMasking_of_gie hi.1

/-- One phase of the handler. -/
theorem Inv.rxPhaseWith {s t : State} {v : Level} (h : Inv s) (hn : s.rxPhase ≠ .idle)
    (hp : rxPhaseWith v s = .next t) : Inv t := by
  have hm := h.notMasking_of_rx hn
  have ha := (Inv.advance h s.rxWait).wirePast
  have hl := h.rxInst_lt hn
  have hg := h.rxMasks hn
  have hx : ∀ {a : Prop}, s.txPhase.masking = true → a := fun e => by rw [hm] at e; cases e
  unfold Machine.rxPhaseWith at hp
  split at hp
  · exact absurd ‹_› hn
  · obtain ⟨r, hr, hp⟩ := withInst_eq_next.1 hp
    split at hp <;> cases hp
    · exact { h with rxInst_lt := fun _ => hl, rxK_eq := nofun, rxMasks := fun _ => hg, txMasks := fun e => hx e,
                     wirePast := ha }
    · exact Inv.handlerReturn (Inv.advance h _) hm 0 _ _
  · obtain ⟨r, hr, hp⟩ := withInst_eq_next.1 hp
    cases hp
    exact { h with rxInst_lt := fun _ => hl, rxK_eq := fun k e => (by cases e; rfl), rxMasks := fun _ => hg,
                   txMasks := fun e => hx e, wirePast := ha }
  · unfold rxSample at hp
    simp only at hp
    split at hp <;> obtain ⟨r, hr, hp⟩ := withInst_eq_next.1 hp <;> cases hp
    · exact { h with rxInst_lt := fun _ => hl, rxK_eq := nofun, rxMasks := fun _ => hg, txMasks := fun e => hx e,
                     wirePast := ha }
    · exact { h with rxInst_lt := fun _ => hl, rxK_eq := fun k e => (by cases e; rfl), rxMasks := fun _ => hg,
                     txMasks := fun e => hx e, wirePast := ha }
  · obtain ⟨r, hr, hp⟩ := withInst_eq_next.1 hp
    cases hp
    exact { h with rxInst_lt := fun _ => hl, rxK_eq := nofun, rxMasks := fun _ => hg, txMasks := fun e => hx e,
                   wirePast := ha }
  · obtain ⟨r, hr, hp⟩ := withInst_eq_next.1 hp
    obtain ⟨u, hu, hp⟩ := (andThen_eq_next _ _ _).1 hp
    cases hp
    rcases bufPush_spec hu with ⟨_, rfl⟩ | ⟨hf, _, rfl⟩
    · exact Inv.handlerReturn (Inv.modify (f := Inst.setOverflow) h s.rxInst fun _ => rfl) hm _ _ _
    · exact Inv.handlerReturn (Inv.push h hf s.rxD) hm _ _ _

/-! ### Delays and the transmit phases -/

theorem Inv.fgDelay {s t : State} (h : Inv s) (hs : fgDelay s = .next t) : Inv t :=
  fgDelay_induct (P := Inv) (fun _ d h _ _ _ => Inv.passTime h d) (fun _ _ _ h hx ht => Inv.serveInterrupt h hx ht)
    h hs

/-- A foreground delay answers a next state. -/
theorem Inv.fgDelay_total {s : State} (h : Inv s) : ∃ t, Machine.fgDelay s = .next t :=
  Machine.fgDelay_total (P := Inv) (fun _ d h _ _ _ => Inv.passTime h d)
    (fun u x h hx => by
      obtain ⟨t, ht⟩ := serveInterrupt_total hx h.active_lt h.tail_lt
      exact ⟨t, ht, Inv.serveInterrupt h hx ht⟩) h

theorem Inv.txIdle {s : State} (h : Inv s) (ht : s.txPhase.masking = false) : Inv { s with txPhase := .idle } :=
  { h with
    txInst_lt := fun a => absurd rfl a
    txK_eq := nofun
    oneOp := .inl rfl
    txMasks := nofun
    pinsRest := fun m r a _ => h.pinsRest m r a (.inl ht) }

/-- A `WRITE` at its stop level. -/
theorem Inv.atStop {s : State} (h : Inv s) (hc : takesCommand s) {n : Nat} {r : Inst} (hr : s.insts[n]? = some r)
    (b : Byte) : Inv (atStop n r b s) := by
  obtain ⟨e1, e2, e3⟩ := hc
  refine
    { h with
      txInst_lt := fun _ => (List.getElem?_eq_some_iff.1 hr).1
      txK_eq := nofun
      oneOp := .inr e3
      txMasks := nofun
      pinsRest := ?_
      wirePast := ?_ }
  · intro m q hq _
    replace hq : s.insts[m]? = some q := hq
    show (setPin r.strap.txPin (idleLevel r.strap) s.pinOut).lookup q.strap.txPin = _
    by_cases hm : m = n
    · subst hm
      rw [hr] at hq
      cases hq
      exact lookup_setPin_same _ _ _
    · rw [lookup_setPin_other (h.txPin_ne hq hr hm)]
      exact h.pinsRest m q hq (.inl (by rw [e2]; rfl))
  · intro e he
    have hnow : (Machine.atStop n r b s).now = s.now +
      (delayCycles s.cfg (startCount s.cfg r.profile) + 8 * delayCycles s.cfg r.profile.txDelay) := rfl
    rw [hnow]
    simp only [Machine.atStop, txAt, writeTrace] at he
    rcases List.mem_append.1 he with he | he
    · simp only [List.mem_cons, List.not_mem_nil, or_false] at he
      rcases he with rfl | rfl | rfl | rfl | rfl | rfl | rfl | rfl | rfl | rfl <;> simp <;> omega
    · have := h.wirePast e he
      omega

/-! ### The unread bytes (rules R42, R43) -/

/-- A push that finds room puts its byte behind the unread ones. -/
theorem unread_push {s : State} (h : Inv s) (hf : bufFull s = false) (v : Byte) :
    unread { s with
      buf := Memory.write s.buf s.tail v, tail := nextIndex s.cfg s.tail, stored := s.stored + 1 } =
        unread s ++ [v] := by
  have hff : (s.tail + 1) % s.cfg.cap ≠ s.head := by simpa [bufFull, nextIndex] using hf
  have hb : bufCount { s with
      buf := Memory.write s.buf s.tail v, tail := nextIndex s.cfg s.tail, stored := s.stored + 1 } = bufCount s + 1 :=
    ringCount_tail h.head_lt h.tail_lt hff
  unfold unread
  rw [hb, List.range_succ, List.map_append]
  congr 1
  · apply List.map_congr_left
    intro j hj
    have hj := List.mem_range.1 hj
    have hlt := bufCount_lt s h.cap
    apply Memory.read_write_other
    intro e
    have : j = bufCount s := ringSlot_inj (h := s.head) (c := s.cfg.cap) (by omega) hlt
      (e.trans (ringSlot_count h.head_lt h.tail_lt).symm)
    omega
  · simp only [List.map_cons, List.map_nil]
    congr 1
    show Memory.read (Memory.write s.buf s.tail v) ((s.head + bufCount s) % s.cfg.cap) = v
    rw [show (s.head + bufCount s) % s.cfg.cap = s.tail from ringSlot_count h.head_lt h.tail_lt,
      Memory.read_write_same]

end Sys2Proof.Machine
end

