-- ==== Sys2Proof/Laws/PerInstr.lean ====
section
/-! SUPPORT. One family of lemmas over the constructors of `Instr`: the word of an instruction is a word of its row of
the opcode table (30_encoding.md rules R60, R72). -/

namespace Sys2Proof

/-- The `match` column of an instruction's row (rule R72); the two rows of the line frame (rule R60) have none. -/
def tableMatch : Instr → Option CommandWord
  | .configure _ _ => some 0x1000000000
  | .shutdown _ => some 0x2000000000
  | .listen _ => some 0x3000000000
  | .islisten _ => some 0x4000000000
  | .read _ => some 0x5000000000
  | .peek _ => some 0x6000000000
  | .avail _ => some 0x7000000000
  | .write _ _ => some 0x8000000000
  | .flush _ => some 0x9000000000
  | .status _ => some 0xA000000000
  | .rxisr _ => none
  | .rxisrInv _ => none

/-- The opcode alone decides the masked word, whatever the instance and the operand are. -/
theorem commandWord_masked (op : BitVec 4) (n : Nat) (x : BitVec 32) :
    commandWord op n x &&& 0xF000000000#40 = op ++ 0#36 := by
  apply BitVec.eq_of_getLsbD_eq
  intro i hi
  rw [BitVec.getLsbD_and]
  have hm : (0xF000000000#40).getLsbD i = decide (36 ≤ i) := by
    have : ∀ j : Fin 40, (0xF000000000#40).getLsbD j.val = decide (36 ≤ j.val) := by decide
    exact this ⟨i, hi⟩
  rw [hm]
  unfold commandWord
  simp only [BitVec.getLsbD_append]
  by_cases h : 36 ≤ i
  · have h1 : ¬ i < 32 := by omega
    have h2 : ¬ i - 32 < 4 := by omega
    have h3 : ¬ i < 36 := by omega
    simp only [h, h1, h2, h3, if_false, decide_true, Bool.and_true]
    congr 1
  · have h3 : i < 36 := by omega
    simp [h, h3]

namespace Laws.RowMatch

/-- The encoding of `i` is a command word with `w & mask = match` of its row, or a frame whose start and stop cells are
those of its row's pattern. -/
def Statement (i : Instr) : Prop :=
  match encode i, tableMatch i with
  | .command w, some m => w &&& 0xF000000000#40 = m
  | .frame w, none => (w.getLsbD 9 = false ∧ w.getLsbD 0 = true ∧ ∃ c, i = .rxisr c) ∨
      (w.getLsbD 9 = true ∧ w.getLsbD 0 = false ∧ ∃ c, i = .rxisrInv c)
  | _, _ => False

theorem configure (n : Nat) (baud : BitVec 32) : Statement (.configure n baud) := commandWord_masked 0x1 n baud
theorem shutdown (n : Nat) : Statement (.shutdown n) := commandWord_masked 0x2 n 0
theorem listen (n : Nat) : Statement (.listen n) := commandWord_masked 0x3 n 0
theorem islisten (n : Nat) : Statement (.islisten n) := commandWord_masked 0x4 n 0
theorem read (n : Nat) : Statement (.read n) := commandWord_masked 0x5 n 0
theorem peek (n : Nat) : Statement (.peek n) := commandWord_masked 0x6 n 0
theorem avail (n : Nat) : Statement (.avail n) := commandWord_masked 0x7 n 0
theorem write (n : Nat) (b : Byte) : Statement (.write n b) := commandWord_masked 0x8 n (b.setWidth 32)
theorem flush (n : Nat) : Statement (.flush n) := commandWord_masked 0x9 n 0
theorem status (n : Nat) : Statement (.status n) := commandWord_masked 0xA n 0

theorem rxisr (cells : Byte) : Statement (.rxisr cells) := by
  show _ ∨ _
  exact .inl ⟨frameWord_start _ _ _, frameWord_stop _ _ _, cells, rfl⟩

theorem rxisrInv (cells : Byte) : Statement (.rxisrInv cells) := by
  show _ ∨ _
  exact .inr ⟨frameWord_start _ _ _, frameWord_stop _ _ _, cells, rfl⟩

end Laws.RowMatch

end Sys2Proof
end

