-- ==== Sys2Proof/Laws/Reception.lean ====
section
/-! SUPPORT. Correct reception (41_receive_sampler.md rule R112): the conditions on counts are the conditions on
instants. -/

namespace Sys2Proof.Machine

open Sys2Proof

theorem delayCycles_of_ne_zero {c : Config} {n : Count} (h : n ≠ 0) : delayCycles c n = c.delayScale * n.toNat := by
  rw [delayCycles, if_neg h]

@[simp] theorem cellStart_zero (B0 A T : Nat) : cellStart B0 A T 0 = B0 := rfl

@[simp] theorem cellStart_succ (B0 A T k : Nat) : cellStart B0 A T (k + 1) = B0 + A + k * T := by
  simp [cellStart]

/-- For a peer that is this block's transmit sequencer, with all counts at least 1 and the first read `LAT_ENTRY` cycles
after the frame began, (W1), (W2) and (W3) are (W1'), (W2') and (W3') (rule R112). -/
theorem wellTuned_iff_counts {s : State} {r : Inst} {B0 : Nat} {A T : Count} (hc : r.profile.rxCentering ≠ 0)
    (hi : r.profile.rxIntrabit ≠ 0) (hs : r.profile.rxStopbit ≠ 0) (hA : A ≠ 0) (hT : T ≠ 0)
    (hE : checkInstant s = B0 + s.cfg.latEntry) :
    WellTuned (cellStart B0 (delayCycles s.cfg A) (delayCycles s.cfg T)) (checkInstant s) (sampleInstant s r)
        (returnInstant s r) ↔
      WellTunedCounts s.cfg r.profile A T := by
  have hS (k : Nat) : sampleInstant s r k =
      B0 + (s.cfg.latEntry + s.cfg.delayScale * (r.profile.rxCentering.toNat + (k + 1) * r.profile.rxIntrabit.toNat)) := by
    rw [sampleInstant, hE, delayCycles_of_ne_zero hc, delayCycles_of_ne_zero hi]
    ring
  have hR : returnInstant s r = B0 + (s.cfg.latEntry + s.cfg.delayScale *
      (r.profile.rxCentering.toNat + 8 * r.profile.rxIntrabit.toNat + r.profile.rxStopbit.toNat)) := by
    rw [returnInstant, hS, delayCycles_of_ne_zero hs]
    ring
  have hB (k : Nat) : cellStart B0 (delayCycles s.cfg A) (delayCycles s.cfg T) (k + 1) =
      B0 + s.cfg.delayScale * (A.toNat + k * T.toNat) := by
    rw [cellStart_succ, delayCycles_of_ne_zero hA, delayCycles_of_ne_zero hT]
    ring
  constructor
  · rintro ⟨⟨h1, h2⟩, h3⟩
    rw [hE, hB 0] at h1
    rw [hB 8, hR] at h3
    refine ⟨by simpa using h1, fun k hk => ?_, by omega⟩
    have := h2 k hk
    rw [hB k, hB (k + 1), hS] at this
    omega
  · rintro ⟨h1, h2, h3⟩
    refine ⟨⟨⟨by simp [hE], by rw [hE, hB 0]; simpa using h1⟩, fun k hk => ?_⟩, by rw [hB 8, hR]; omega⟩
    have := h2 k hk
    rw [hB k, hB (k + 1), hS]
    omega

end Sys2Proof.Machine
end

