-- ==== Sys2Proof/Tests/Slice0.lean ====
section
/-! SUPPORT. The model's own tests, expected values from 95_test_vectors.md (`V-...`) and the rules named; and for every
statement with hypotheses a state and operands that meet them (`witness_...`). -/

namespace Sys2Proof.Tests

open Sys2Proof Sys2Proof.Machine

/-! ### Helpers -/

/-- The answer is a next state that passes a check. -/
def answers (r : Result) (p : State → Bool) : Bool :=
  match r with
  | .next t => p t
  | .fault _ => false
  | .refused _ => false

theorem answers_next {r : Result} {p : State → Bool} (h : answers r p = true) : ∃ t, r = .next t ∧ p t = true := by
  unfold answers at h
  split at h
  · exact ⟨_, rfl, h⟩
  · cases h
  · cases h

/-- What the invariants say of a state whose sequencers are idle, as a check. -/
def quietOk (s : State) : Bool :=
  configOk s.cfg (straps s) && decide (s.head < s.cfg.cap) && decide (s.tail < s.cfg.cap) && decide (Memory.wf s.buf) &&
  s.buf.all (fun c => decide (c.1 < s.cfg.cap)) &&
  decide (s.tail = s.stored % s.cfg.cap) && decide (bufCount s ≤ s.stored) &&
  s.active.all (fun n => decide (n < ninst s)) &&
  s.insts.all (fun r => decide (s.pinOut.lookup r.strap.txPin = some (idleLevel r.strap))) &&
  s.wire.all (fun e => decide (e.time ≤ s.now)) &&
  decide (s.rxPhase = .idle) && decide (s.txPhase = .idle) && decide (s.cfgPhase = .idle)

theorem inv_of_quietOk {s : State} (h : quietOk s = true) : Inv s := by
  simp only [quietOk, Bool.and_eq_true, decide_eq_true_eq, List.all_eq_true, and_assoc] at h
  obtain ⟨h1, h2, h3, h4, h4', h5, h6, h6', h7, h8, h9, h10, h11, h12⟩ := h
  refine ⟨h1, h2, h3, ⟨h4, h4'⟩, h5, h6, h6', fun n hn => ?_, fun a => absurd h10 a,
    fun k a => ?_, fun a => absurd h11 a, fun k a => ?_, fun a => absurd h12 a, .inl h11, fun a => absurd h10 a,
    fun a => ?_, fun n r hr _ => h8 r (List.mem_of_getElem? hr), h9⟩
  · rw [hn] at h7
    simpa using h7
  · rw [h10] at a
    cases a
  · rw [h11] at a
    cases a
  · rw [h11] at a
    cases a

/-- The configuration of 95_test_vectors.md section 2. -/
def exCfg : Config :=
  { srcPin0 := 2, srcPin1 := 3, cap := 64
    table := [⟨9600, ⟨114, 236, 236, 233⟩⟩, ⟨19200, ⟨54, 117, 117, 114⟩⟩, ⟨115200, ⟨1, 17, 17, 12⟩⟩]
    startAdj := 5, delayScale := 1, delayZero := 262144, latEntry := 0, gieReset := false }

def exStraps : List Strap := [⟨.s0, 4, false⟩, ⟨.s1, 5, false⟩]

/-- Its reset state. -/
def ex0 : State :=
  State.powerOn ⟨exCfg, exStraps⟩ { PowerOn.chosen with lineIn := [(2, ⟨.H, [], .steady⟩), (3, ⟨.H, [], .steady⟩)] }

/-- Its state "after setup". -/
def setup : State :=
  { ex0 with
    insts := [⟨⟨.s0, 4, false⟩, ⟨114, 236, 236, 233⟩, false, false⟩, ⟨⟨.s1, 5, false⟩, ⟨0, 0, 0, 0⟩, false, false⟩]
    now := 233, src0 := ⟨true, .anyEdge, false⟩, gie := true, active := some 0, rsp := some .done }

/-- After setup, three unread bytes over the end of the ring, both overflow flags and one write error set. -/
def hub : State :=
  { setup with
    insts := [⟨⟨.s0, 4, false⟩, ⟨114, 236, 236, 233⟩, true, true⟩, ⟨⟨.s1, 5, false⟩, ⟨0, 0, 0, 0⟩, true, false⟩]
    head := 62, tail := 1, buf := [(0, 0x43), (62, 0x41), (63, 0x42)], stored := 65 }

theorem inv_setup : Inv setup := inv_of_quietOk (by decide)
theorem inv_hub : Inv hub := inv_of_quietOk (by decide)


/-- The host presents `w` now. -/
def withCommand (w : CommandWord) (s : State) : State := { s with script := [⟨s.now, w⟩] }

/-- The frame of `0x55` with the boundaries of V-TX1, on the pin of source 0, cell 0 at `b`. -/
def frame55 (b : Nat) : Wave :=
  ⟨.H, [(b, .L), (b + 238, .H), (b + 471, .L), (b + 704, .H), (b + 937, .L), (b + 1170, .H), (b + 1403, .L),
    (b + 1636, .H), (b + 1869, .L), (b + 2102, .H)], .steady⟩

/-- After setup, the handler waiting in `R_CHECK` as instance 0 at instant 1000 on the line `w`. -/
def waiting (w : Wave) : State :=
  { setup with
    lineIn := [(2, w), (3, ⟨.H, [], .steady⟩)], now := 1000, gie := false, rxPhase := .check, rxInst := 0, rxWait := 0 }

/-- A profile of small counts, start cell and bit cells of two cycles, for which the sampler is well tuned. -/
def tuned : Profile := ⟨1, 2, 1, 2⟩

/-- A sender of two-cycle cells that sends `0xFF` at instant 0. -/
def tunedSender : State :=
  { setup with
    cfg := { exCfg with startAdj := 0 }, insts := [⟨⟨.s0, 4, false⟩, tuned, false, false⟩], pinOut := [(4, .H)]
    now := 0, gie := false }

/-- The same block with bit cells of one cycle, the receive interrupt on, its latch set, and an edge on its receive line
every cycle, for ever. -/
def starved : State :=
  { tunedSender with
    insts := [⟨⟨.s0, 4, false⟩, ⟨1, 1, 1, 1⟩, false, false⟩], src0 := ⟨true, .anyEdge, true⟩
    lineIn := [(2, ⟨.H, [], .cyclic 0 [.L, .H]⟩), (3, ⟨.H, [], .steady⟩)], gie := true, rsp := none }

/-- After setup, within the stop delay of a `WRITE`. -/
def stopping : State := { setup with txPhase := .stop, fgWait := 233, rsp := none }

theorem inv_stopping : Inv stopping := by
  have q : quietOk setup = true := by decide
  have i := inv_of_quietOk q
  exact { i with
    rxInst_lt := fun h => absurd rfl h, rxK_eq := nofun, txInst_lt := fun _ => by decide, txK_eq := nofun
    cfgInst_lt := fun h => absurd rfl h, oneOp := .inr rfl, rxMasks := fun h => absurd rfl h, txMasks := nofun
    pinsRest := fun n r h _ => i.pinsRest n r h (.inl rfl) }

/-! ### Well-formedness: each check refuses an ill-formed term -/

theorem test_illformed_inst_not_encodable : (Instr.read 16).wellFormed 20 = false := by decide
theorem test_illformed_inst_absent : (Instr.read 3).wellFormed 2 = false := by decide
theorem test_illformed_no_instance : hasInstance [] = false ∧ configOk exCfg [] = false := by decide
theorem test_illformed_cap : capOk { exCfg with cap := 1 } = false ∧ configOk { exCfg with cap := 1 } exStraps = false := by
  decide
theorem test_illformed_scale :
    scaleOk { exCfg with delayScale := 0 } = false ∧ configOk { exCfg with delayScale := 0 } exStraps = false := by decide
theorem test_illformed_same_txPin :
    txPinsDistinct [⟨.s0, 4, false⟩, ⟨.s1, 4, false⟩] = false ∧
      configOk exCfg [⟨.s0, 4, false⟩, ⟨.s1, 4, false⟩] = false := by decide
theorem test_illformed_txPin_is_srcPin :
    txPinsNotReceive exCfg [⟨.s0, 3, false⟩] = false ∧ configOk exCfg [⟨.s0, 3, false⟩] = false := by decide
theorem test_wellformed : configOk exCfg exStraps = true ∧ (Instr.read 1).wellFormed 2 = true := by decide
theorem test_bad_configuration_refused :
    step { ex0 with cfg := { exCfg with cap := 1 } } = .refused .badConfiguration := by rfl

/-! ### Decoding: words written out from rules R60, R71, R72 (V-EN1 to V-EN18, V-FR1 to V-FR7) -/

theorem test_decode_configure : decode (.command 0x110001C200) = .ok (.configure 1 115200) := by decide
theorem test_decode_shutdown : decode (.command 0x2000000000) = .ok (.shutdown 0) := by decide
theorem test_decode_listen : decode (.command 0x3100000000) = .ok (.listen 1) := by decide
theorem test_decode_islisten : decode (.command 0x4000000000) = .ok (.islisten 0) := by decide
theorem test_decode_read : decode (.command 0x50DEADBEEF) = .ok (.read 0) := by decide
theorem test_decode_peek : decode (.command 0x6000000000) = .ok (.peek 0) := by decide
theorem test_decode_avail : decode (.command 0x7100000000) = .ok (.avail 1) := by decide
theorem test_decode_write : decode (.command 0x8000000141) = .ok (.write 0 0x41) := by decide
theorem test_decode_flush : decode (.command 0x9000000000) = .ok (.flush 0) := by decide
theorem test_decode_status : decode (.command 0xA100000000) = .ok (.status 1) := by decide
theorem test_decode_frames_normal :
    decode (.frame 0b0100000101) = .ok (.rxisr 0x41) ∧ decode (.frame 0b0000000001) = .ok (.rxisr 0x00) ∧
    decode (.frame 0b0111111111) = .ok (.rxisr 0xFF) ∧ decode (.frame 0b0101001011) = .ok (.rxisr 0xA5) ∧
    decode (.frame 0b0101010101) = .ok (.rxisr 0x55) := by decide
theorem test_decode_frames_inverse :
    decode (.frame 0b1011111010) = .ok (.rxisrInv (~~~0x41)) ∧
    decode (.frame 0b1010101010) = .ok (.rxisrInv (~~~0x55)) := by decide
theorem test_decode_reserved :
    decode (.command 0x0000000000) = .error (.reservedOpcode 0x0) ∧
    decode (.command 0xB000000000) = .error (.reservedOpcode 0xB) ∧
    decode (.command 0xF0FFFFFFFF) = .error (.reservedOpcode 0xF) := by decide
theorem test_decode_no_frame :
    decode (.frame 0b0100000100) = .error (.notAFrame 0b0100000100) ∧
    decode (.frame 0b1011111011) = .error (.notAFrame 0b1011111011) := by decide
theorem test_encode :
    encode (.configure 0 1200) = .command 0x10000004B0 ∧ encode (.write 0 0x55) = .command 0x8000000055 ∧
    encode (.rxisr 0xA5) = .frame 0b0101001011 := by decide
theorem test_decodeTableWord :
    decodeTableWord 40 0x1000002580 = some (.configure 0 9600) ∧ decodeTableWord 40 0xB000000000 = none ∧
    decodeTableWord 16 0b0100000101 = some (.rxisr 0x41) ∧ decodeTableWord 16 0b1011111010 = some (.rxisrInv 0xBE) ∧
    decodeTableWord 16 0b10100000101 = none := by decide

/-! ### Operands -/

/-- V-LK1, V-LK2, V-LK3. -/
theorem test_lookup :
    lookupBaud exCfg 9600 = ⟨114, 236, 236, 233⟩ ∧ lookupBaud exCfg 115200 = ⟨1, 17, 17, 12⟩ ∧
    lookupBaud exCfg 9601 = ⟨0, 0, 0, 0⟩ ∧ lookupBaud exCfg 0 = ⟨0, 0, 0, 0⟩ := by decide
/-- V-LK5. -/
theorem test_lookup_first_row :
    lookupBaud { exCfg with table := [⟨9600, ⟨1, 2, 3, 4⟩⟩, ⟨9600, ⟨5, 6, 7, 8⟩⟩] } 9600 = ⟨1, 2, 3, 4⟩ := by decide
/-- V-DL1 to V-DL4. -/
theorem test_delay :
    delayCycles { exCfg with delayScale := 4 } 236 = 944 ∧ delayCycles exCfg 1 = 1 ∧ delayCycles exCfg 0 = 262144 ∧
    delayCycles { exCfg with delayScale := 4 } 65535 = 262140 := by decide
/-- V-SC1 to V-SC4. -/
theorem test_startCount :
    startCount exCfg ⟨0, 0, 0, 233⟩ = 238 ∧ startCount { exCfg with startAdj := -20 } ⟨0, 0, 0, 12⟩ = 65528 ∧
    startCount exCfg ⟨0, 0, 0, 65535⟩ = 4 ∧ startCount { exCfg with startAdj := -5 } ⟨0, 0, 0, 5⟩ = 0 := by decide

/-- V-WT1, V-WT3, and V-WT4 at its upper bounds. -/
theorem test_wellTuned :
    WellTunedCounts exCfg ⟨114, 236, 236, 233⟩ 238 233 ∧ WellTunedCounts exCfg ⟨54, 117, 117, 114⟩ 119 114 ∧
    WellTunedCounts { exCfg with latEntry := 99 } ⟨114, 236, 236, 233⟩ 238 233 ∧
    WellTunedCounts { exCfg with latEntry := 399, delayScale := 4 } ⟨114, 236, 236, 233⟩ 238 233 :=
  ⟨⟨by decide, by decide, by decide⟩, ⟨by decide, by decide, by decide⟩, ⟨by decide, by decide, by decide⟩,
    ⟨by decide, by decide, by decide⟩⟩
/-- V-WT2 (sample 3 is not in its cell), and V-WT4 one cycle above its bound (sample 7 is not). -/
theorem test_not_wellTuned :
    ¬WellTunedCounts exCfg ⟨1, 17, 17, 12⟩ 17 12 ∧
    ¬WellTunedCounts { exCfg with latEntry := 100 } ⟨114, 236, 236, 233⟩ 238 233 :=
  ⟨fun h => absurd (h.w2 3 (by decide)) (by decide), fun h => absurd (h.w2 7 (by decide)) (by decide)⟩

/-! ### One step each -/

/-- Section 2: the state after setup. -/
theorem test_configure_setup : answers (exec (.configure 0 9600) ex0) (fun t => decide (t = setup)) = true := by decide
/-- V-CF1. -/
theorem test_configure_unknown :
    answers (exec (.configure 0 1200) ex0) (fun t => decide (t = { ex0 with active := some 0, rsp := some .done })) =
      true := by decide
/-- V-SD1. -/
theorem test_shutdown :
    answers (exec (.shutdown 0) setup)
      (fun t => !t.src0.enable && !t.gie && decide (t.active = some 0) && decide (t.src0.sense = .anyEdge)) = true := by
  decide
/-- V-LS1, on `hub`: both overflow flags set, another owner. -/
theorem test_listen_changing :
    answers (exec (.listen 1) hub) (fun t =>
      decide (t.insts.map Inst.overflow = [true, false] ∧ t.head = 0 ∧ t.tail = 0 ∧ t.active = some 1 ∧
        t.gie = true ∧ t.rsp = some (.flag true))) = true := by decide
/-- V-LS2. -/
theorem test_listen_unchanged :
    answers (exec (.listen 0) hub) (fun t => decide (t = { hub with rsp := some (.flag false) })) = true := by decide
/-- V-LS3. -/
theorem test_islisten :
    answers (exec (.islisten 1) { ex0 with active := some 1 }) (fun t => decide (t.rsp = some (.flag true))) = true ∧
    answers (exec (.islisten 0) { ex0 with active := some 1 }) (fun t => decide (t.rsp = some (.flag false))) = true := by
  decide
/-- V-CN2: a read over the end of the ring, of a byte `0xFF` that is not `NoData`. -/
theorem test_read :
    answers (exec (.read 0) { hub with head := 63, buf := [(63, 0xFF)], tail := 0 })
      (fun t => decide (t.head = 0 ∧ t.rsp.map Response.word = some 0x000000FF)) = true := by decide
/-- Rules R25, R34: a slot that nothing has written holds a byte too, and a stored byte of any value reads back. -/
theorem test_slot_always_readable :
    answers (exec (.read 0) { hub with buf := [] }) (fun t => decide (t.head = 63 ∧ t.rsp = some (.byte 0x00))) = true ∧
    answers (memWrite 63 0x00 hub) (fun t => decide (t.buf = [(0, 0x43), (62, 0x41)] ∧ Memory.read t.buf 63 = 0x00)) =
      true := by decide
/-- V-CN1. -/
theorem test_read_not_listening :
    answers (exec (.read 0) ex0) (fun t => decide (t.rsp.map Response.word = some 0xFFFFFFFF ∧ t.head = 0)) = true := by
  decide
/-- V-CN2. -/
theorem test_peek :
    answers (exec (.peek 0) hub) (fun t => decide (t = { hub with rsp := some (.byte 0x41) })) = true := by decide
/-- V-BUF2: `(0 + 4 - 1) mod 4 = 3`. -/
theorem test_avail_wrapped :
    answers (exec (.avail 0) { setup with cfg := { exCfg with cap := 4 }, head := 1, tail := 0 })
      (fun t => decide (t.rsp = some (.count 3))) = true := by decide
/-- V-CN3. -/
theorem test_flush :
    answers (exec (.flush 0) hub) (fun t => decide (t = { hub with head := 0, tail := 0, stored := 0, rsp := some .done })) = true := by
  decide
/-- V-ST2, V-ST4. -/
theorem test_status :
    answers (exec (.status 0) setup) (fun t => decide (t.rsp.map Response.word = some 0x00000019)) = true ∧
    answers (exec (.status 1) setup) (fun t => decide (t.rsp.map Response.word = some 0x00000000)) = true := by decide
/-- V-TX1 (rule R153), from `now = 0`. -/
theorem test_write_waveform :
    answers (exec (.write 0 0x55) { setup with now := 0 }) (fun t =>
      decide (t.wire.map (fun e => (e.level, e.time)) =
          [(.H, 2102), (.L, 1869), (.H, 1636), (.L, 1403), (.H, 1170), (.L, 937), (.H, 704), (.L, 471), (.H, 238), (.L, 0)] ∧
        t.now = 2335 ∧ t.gie = true ∧ t.rsp = some (.count 1))) = true := by decide
/-- V-TX3. -/
theorem test_write_refused :
    answers (exec (.write 0 0x41) ex0) (fun t =>
      decide (t.insts.map Inst.writeError = [true, false] ∧ t.pinOut = ex0.pinOut ∧ t.now = 0 ∧
        t.rsp = some (.count 0))) = true := by decide
/-- V-RX1 (rule R115), by a step that fetches the frame from the line. -/
theorem test_rxisr_step :
    answers (step (waiting (frame55 1000))) (fun t =>
      decide (t.buf = [(0, 0x55)] ∧ t.tail = 1 ∧ t.now = 3238 ∧ t.gie = true ∧ t.src0.pending = true)) = true := by decide
/-- V-RX7. -/
theorem test_rxisr_overflow :
    answers (exec (.rxisr 0x44) { waiting (frame55 1000) with cfg := { exCfg with cap := 4 }, tail := 3 }) (fun t =>
      decide (t.insts.map Inst.overflow = [true, false] ∧ t.buf = [] ∧ t.tail = 3)) = true := by decide
/-- V-RX3: cells `L, H, ..` of `0x55` under inverse logic, complemented. -/
theorem test_rxisrInv :
    answers (exec (.rxisrInv 0xAA) { waiting (frame55 1000) with
        insts := [⟨⟨.s0, 4, true⟩, ⟨114, 236, 236, 233⟩, false, false⟩] }) (fun t =>
      decide (t.buf = [(0, 0x55)] ∧ t.tail = 1 ∧ t.now = 3238)) = true := by decide
/-- V-RX6: the run reads the idle level and takes no time. -/
theorem test_rxisrInv_spurious :
    answers (exec (.rxisrInv 0x00) (waiting (frame55 1000))) (fun t =>
      decide (t.buf = [] ∧ t.tail = 0 ∧ t.now = 1000 ∧ t.gie = true)) = true := by decide

/-! ### Interrupts -/

/-- V-IN4: source 0 first, run as the active listener. -/
theorem test_entry_priority :
    answers (step { setup with src0 := ⟨true, .anyEdge, true⟩, src1 := ⟨true, .anyEdge, true⟩ }) (fun t =>
      decide (t.src0.pending = false ∧ t.src1.pending = true ∧ t.gie = false ∧ t.rxPhase = .check ∧ t.rxInst = 0)) =
        true := by decide
/-- V-IN3: no listener. -/
theorem test_entry_no_listener :
    answers (step { setup with active := none, src0 := ⟨true, .anyEdge, true⟩ }) (fun t =>
      decide (t.src0.pending = false ∧ t.gie = true ∧ t.rxPhase = .idle ∧ t.now = 233)) = true := by decide
/-- V-IN2: an edge on a disabled source is latched; the idle step stops at the edge. -/
theorem test_edge_latched :
    answers (step { setup with lineIn := [(2, ⟨.H, [], .steady⟩), (3, ⟨.H, [(500, .L)], .steady⟩)] }) (fun t =>
      decide (t.now = 500 ∧ t.src1.pending = true ∧ t.src0.pending = false)) = true := by decide
/-- V-IN3 inside an operation: the stale latch is taken in the settle delay. -/
theorem test_stale_latch_in_settle :
    answers (exec (.configure 0 9600) { ex0 with src0 := ⟨false, .other, true⟩ }) (fun t =>
      decide (t = setup)) = true := by decide

/-- Rules R13, R191: an edge every cycle keeps the handler running through the whole step: the stop delay of
`WRITE` has not gone on. -/
theorem test_endless_edges_starve_foreground :
    answers (txPhaseStep { starved with txPhase := .stop, fgWait := 1 }) (fun t =>
      decide (t.txPhase = .stop ∧ t.rsp = none ∧ t.gie = true ∧ t.fgWait = 1 ∧ 10 ≤ t.now)) = true := by decide
/-- Rule R6: a line may hold any level at any instant. -/
theorem test_free_line (n u : Nat) :
    (⟨.H, [], .free 0 n⟩ : Wave).levelAt u = Level.ofBool (Config.freeLine n u) := rfl
/-- Rule R6: a line that never comes to rest, two cycles low and one high from instant 10 on. -/
theorem test_cyclic_line :
    (List.range 17).map (⟨.H, [(4, .L)], .cyclic 10 [.L, .L, .H]⟩ : Wave).levelAt =
      [.H, .H, .H, .H, .L, .L, .L, .L, .L, .L, .L, .L, .H, .L, .L, .H, .L] := by decide

/-! ### The next instruction after reset -/

theorem test_reset_runs_command :
    answers (step (State.reset.withFetchWord 40 0x8000000041)) (fun t =>
      decide (t.insts.map Inst.writeError = [true, false] ∧ t.rsp = some (.count 0) ∧ t.script = [])) = true := by decide
theorem test_reset_runs_frame :
    answers (step (State.reset.withFetchWord 16 0b0101001011)) (fun t =>
      decide (t.buf = [(0, 0xA5)] ∧ t.tail = 1 ∧ t.rxPhase = .idle)) = true := by decide
theorem test_reset_runs_inverse_frame :
    answers (step (State.reset.withFetchWord 16 0b1010101010)) (fun t =>
      decide (t.buf = [(0, 0x55)] ∧ t.tail = 1 ∧ t.rxPhase = .idle)) = true := by decide
theorem test_reset_refuses_reserved :
    step (State.reset.withFetchWord 40 0xB000000000) = .refused (.undecodable (.reservedOpcode 0xB)) := by rfl

/-! ### Witnesses: states and operands that meet the hypotheses of the statements -/

/-- Operands at both ends of their ranges. -/
theorem witness_DecodeOfEncode :
    (Instr.configure 0 0).wellFormed 1 = true ∧ (Instr.configure 15 0xFFFFFFFF).wellFormed 16 = true ∧
    (Instr.write 15 0xFF).wellFormed 16 = true ∧ (Instr.rxisr 0xFF).wellFormed 1 = true ∧
    (Instr.rxisrInv 0).wellFormed 1 = true := by decide

/-- A word or more for each of the eleven clauses, with unused bits set. -/
theorem witness_CommandRowsByMatchAndMask :
    (0x1FFFFFFFFF#40 &&& 0xF000000000#40 = 0x1000000000#40) ∧ (0x2000000000#40 &&& 0xF000000000#40 = 0x2000000000#40) ∧
    (0x3FFFFFFFFF#40 &&& 0xF000000000#40 = 0x3000000000#40) ∧ (0x4000000001#40 &&& 0xF000000000#40 = 0x4000000000#40) ∧
    (0x5FFFFFFFFF#40 &&& 0xF000000000#40 = 0x5000000000#40) ∧ (0x6000000001#40 &&& 0xF000000000#40 = 0x6000000000#40) ∧
    (0x7FFFFFFFFF#40 &&& 0xF000000000#40 = 0x7000000000#40) ∧ (0x8F000000FF#40 &&& 0xF000000000#40 = 0x8000000000#40) ∧
    (0x9FFFFFFFFF#40 &&& 0xF000000000#40 = 0x9000000000#40) ∧ (0xA000000001#40 &&& 0xF000000000#40 = 0xA000000000#40) ∧
    (0x0FFFFFFFFF#40 &&& 0xF000000000#40 = 0) ∧ (0xB000000000#40 ≤ 0xB000000001#40 &&& 0xF000000000#40) ∧
    (0xB000000000#40 ≤ 0xFFFFFFFFFF#40 &&& 0xF000000000#40) := by decide

theorem witness_UnusedOperandBitsIgnored :
    ((0x50DEADBEEF#40).extractLsb' 32 8 = (0x5000000000#40).extractLsb' 32 8 ∧
      (0x50DEADBEEF#40).extractLsb' 36 4 ≠ 0x1#4 ∧ (0x50DEADBEEF#40).extractLsb' 36 4 ≠ 0x8#4) ∧
    ((0x8000000141#40).extractLsb' 32 8 = (0x80FFFFFF41#40).extractLsb' 32 8 ∧
      (0x8000000141#40).extractLsb' 36 4 = 0x8#4 ∧
      (0x8000000141#40).extractLsb' 0 8 = (0x80FFFFFF41#40).extractLsb' 0 8) := by decide

/-- V-EN16, V-EN17, V-EN18, and `inst = NINST`. -/
theorem witness_UndecodableCommandRefused :
    ∀ w ∈ [0x0000000000#40, 0xB000000000#40, 0xF0FFFFFFFF#40, 0x5300000000#40, 0x5200000000#40],
      configOk (withCommand w ex0).cfg (straps (withCommand w ex0)) = true ∧ takesCommand (withCommand w ex0) ∧
      ready (withCommand w ex0) = none ∧ (withCommand w ex0).script = [⟨0, w⟩] ∧ 0 ≤ (withCommand w ex0).now ∧
      (w.extractLsb' 36 4 = 0x0#4 ∨ 0xB#4 ≤ w.extractLsb' 36 4 ∨
        ninst (withCommand w ex0) ≤ (w.extractLsb' 32 4).toNat) := by
  have h : ∀ w ∈ [0x0000000000#40, 0xB000000000#40, 0xF0FFFFFFFF#40, 0x5300000000#40, 0x5200000000#40],
      w.extractLsb' 36 4 = 0x0#4 ∨ 0xB#4 ≤ w.extractLsb' 36 4 ∨ 2 ≤ (w.extractLsb' 32 4).toNat := by
    intro w hw
    simp only [List.mem_cons, List.not_mem_nil, or_false] at hw
    rcases hw with rfl | rfl | rfl | rfl | rfl <;> decide
  have hc : configOk ex0.cfg (straps ex0) = true := by decide
  exact fun w hw => ⟨hc, ⟨rfl, rfl, rfl⟩, rfl, rfl, Nat.le_refl _, h w hw⟩

/-- V-FR1, V-FR2. -/
theorem witness_FrameDecodesByPolarity :
    (∀ j, j < 10 → (0b0100000101#10).getLsbD (9 - j) = (frameCell ⟨.s0, 4, false⟩ 0x41 j).toBool) ∧
    (∀ j, j < 10 → (0b1011111010#10).getLsbD (9 - j) = (frameCell ⟨.s0, 4, true⟩ 0x41 j).toBool) := by decide

theorem witness_ResetValues : Build.chosen.straps[1]? = some ⟨.s1, 5, true⟩ := by decide

/-- A buffer whose slots hold something at reset, up to the last one. -/
theorem witness_ResetMeetsInvariants :
    configOk exCfg exStraps = true ∧ Memory.wf [(0, 0x41), (63, 0x42)] ∧
    ∀ c ∈ ([(0, 0x41), (63, 0x42)] : Memory), c.1 < exCfg.cap := by decide

theorem witness_StepKeepsInvariants :
    ∃ s t, Inv s ∧ step s = .next t ∧ t.head ≠ s.head := by
  obtain ⟨t, h, p⟩ := answers_next
    (show answers (step (withCommand 0x5000000000 hub)) (fun t => decide (t.head ≠ 62)) = true by decide)
  exact ⟨_, t, inv_of_quietOk (by decide), h, of_decide_eq_true p⟩

theorem witness_NoStepFaults : Inv (withCommand 0x5000000000 hub) := inv_of_quietOk (by decide)

/-- All three clauses; of the first, lines at rest and a line that never rests. -/
theorem witness_EveryOperationCompletes :
    (Inv hub ∧ takesCommand hub ∧ hub.rxInst < ninst hub ∧
      (Instr.write 1 0x55).wellFormed (ninst hub) = true ∧ (Instr.write 1 0x55).target ≠ none ∧
      (Instr.rxisr 0x55).wellFormed (ninst hub) = true ∧ (Instr.rxisr 0x55).target = none) ∧
    (Inv starved ∧ takesCommand starved ∧ (Instr.write 0 0x55).wellFormed (ninst starved) = true) ∧
    (Inv stopping ∧ linesSteady stopping = true ∧ stopping.rxPhase = .idle ∧ ready stopping = none ∧
      stopping.txPhase = .stop) :=
  ⟨⟨inv_hub, ⟨rfl, rfl, rfl⟩, by decide, by decide, by decide, by decide, rfl⟩,
    ⟨inv_of_quietOk (by decide), ⟨rfl, rfl, rfl⟩, by decide⟩, inv_stopping, rfl, rfl, rfl, rfl⟩

/-- The smallest ring, full and empty, and a wrapped one. -/
theorem witness_EmptyAndFullByCount :
    ∀ p ∈ [(2, 1, 0), (2, 1, 1), (64, 63, 0)],
      let s := { setup with cfg := { exCfg with cap := p.1 }, head := p.2.1, tail := p.2.2 }
      2 ≤ s.cfg.cap ∧ s.head < s.cfg.cap ∧ s.tail < s.cfg.cap := by decide

/-- A step whose host takes the buffer away from its owner: the hypotheses of the four whole-machine statements. -/
theorem witness_ParametersNeverChange_OwnershipNeverLapses_WriteErrorIsSticky_OverflowClearedByTakeoverOnly :
    ∃ t, step (withCommand 0x3100000000 hub) = .next t ∧ hub.active ≠ none ∧
      (∃ r, hub.insts[0]? = some r ∧ r.writeError = true) ∧
      ∃ r r', hub.insts[1]? = some r ∧ t.insts[1]? = some r' ∧ r.overflow = true ∧ r'.overflow = false := by
  obtain ⟨t, h, p⟩ := answers_next
    (show answers (step (withCommand 0x3100000000 hub))
      (fun t => decide (t.insts[1]? = some ⟨⟨.s1, 5, false⟩, ⟨0, 0, 0, 0⟩, false, false⟩)) = true by decide)
  exact ⟨t, h, nofun, ⟨_, rfl, rfl⟩, _, _, rfl, of_decide_eq_true p, rfl, rfl⟩

theorem witness_ProfileChangedByConfigureOnly :
    (∃ t, exec (.write 0 0x55) hub = .next t) ∧ ∀ baud, Instr.write 0 0x55 ≠ .configure 0 baud :=
  ⟨(answers_next (show answers (exec (.write 0 0x55) hub) (fun _ => true) = true by decide)).imp fun _ h => h.1, nofun⟩

theorem witness_InterruptBitsWrittenByFewOnly :
    (∃ t, exec (.listen 1) { hub with src0 := ⟨true, .anyEdge, true⟩ } = .next t) ∧
    (∀ n baud, Instr.listen 1 ≠ .configure n baud) ∧ (∀ n, Instr.listen 1 ≠ .shutdown n) ∧
    (∀ n b, Instr.listen 1 ≠ .write n b) ∧
    (source { hub with src0 := ⟨true, .anyEdge, true⟩ } .s0).enable = true ∧
    (source { hub with src0 := ⟨true, .anyEdge, true⟩ } .s0).pending = true :=
  ⟨(answers_next (show answers (exec (.listen 1) { hub with src0 := ⟨true, .anyEdge, true⟩ }) (fun _ => true) = true by
    decide)).imp fun _ h => h.1, nofun, nofun, nofun, rfl, rfl⟩

theorem witness_StepRunsHostCommand :
    let s := withCommand 0x8000000141 hub
    configOk s.cfg (straps s) = true ∧ takesCommand s ∧ ready s = none ∧ s.script = [⟨233, 0x8000000141⟩] ∧
    233 ≤ s.now ∧ decode (.command 0x8000000141) = .ok (.write 0 0x41) :=
  ⟨by decide, ⟨rfl, rfl, rfl⟩, rfl, rfl, Nat.le_refl _, by decide⟩

theorem witness_StepRunsSampledFrame :
    let s := waiting (frame55 1000)
    configOk s.cfg (straps s) = true ∧ s.rxPhase = .check ∧ ∃ r, s.insts[s.rxInst]? = some r :=
  ⟨by decide, rfl, _, rfl⟩

/-- Both clauses: both latches set, and source 1's alone. -/
theorem witness_ReadyInterruptGoesFirst :
    let s := { setup with src0 := ⟨true, .anyEdge, true⟩, src1 := ⟨true, .anyEdge, true⟩ }
    let s' := { setup with src0 := ⟨false, .anyEdge, true⟩, src1 := ⟨true, .anyEdge, true⟩ }
    (configOk s.cfg (straps s) = true ∧ s.rxPhase = .idle ∧ s.gie = true ∧ s.src0.enable = true ∧ s.src0.pending = true) ∧
    (configOk s'.cfg (straps s') = true ∧ s'.rxPhase = .idle ∧ s'.gie = true ∧
      ¬(s'.src0.enable = true ∧ s'.src0.pending = true) ∧ s'.src1.enable = true ∧ s'.src1.pending = true) := by decide

theorem witness_HandlerEntry : setup.active = some 0 ∧ ex0.active = none := by decide

theorem witness_HandlerSuspendsForeground :
    ∃ t, (waiting (frame55 1000)).rxPhase ≠ .idle ∧ step (waiting (frame55 1000)) = .next t := by
  obtain ⟨t, h, _⟩ := answers_next (show answers (step (waiting (frame55 1000))) (fun _ => true) = true by decide)
  exact ⟨t, nofun, h⟩

/-- No command at all, and one that is due one cycle later. -/
theorem witness_IdleStepLetsTimePass :
    (configOk setup.cfg (straps setup) = true ∧ takesCommand setup ∧ ready setup = none ∧
      ∀ c rest, setup.script = c :: rest → setup.now < c.notBefore) ∧
    (let s := { setup with script := [⟨234, 0x5000000000⟩] }
     configOk s.cfg (straps s) = true ∧ takesCommand s ∧ ready s = none ∧
      ∀ c rest, s.script = c :: rest → s.now < c.notBefore) := by
  refine ⟨⟨by decide, ⟨rfl, rfl, rfl⟩, rfl, nofun⟩, ⟨by decide, ⟨rfl, rfl, rfl⟩, rfl, ?_⟩⟩
  intro c rest h
  cases h
  decide

theorem witness_DelayDuration : 1 ≤ (1 : Count).toNat ∧ 1 ≤ (65535 : Count).toNat ∧ (0 : Count).toNat = 0 := by decide

/-- Lines at rest, a line that never rests, and `gie` 0 on that line. -/
theorem witness_ForegroundDelayEnds :
    (Inv stopping ∧ stopping.rxPhase = .idle ∧ linesSteady stopping = true) ∧
    (let s := { starved with fgWait := 2 }
     Inv s ∧ s.rxPhase = .idle ∧ linesSteady s = false) ∧
    (let s := { starved with fgWait := 2, gie := false }
     Inv s ∧ s.rxPhase = .idle ∧ s.gie = false) :=
  ⟨⟨inv_stopping, rfl, rfl⟩, ⟨inv_of_quietOk (by decide), rfl, rfl⟩, inv_of_quietOk (by decide), rfl, rfl⟩

/-- The last row, a row behind another of its baud, and no row. -/
theorem witness_LookupIsExactFirstRow :
    (exCfg.table = [⟨9600, ⟨114, 236, 236, 233⟩⟩, ⟨19200, ⟨54, 117, 117, 114⟩⟩] ++ ⟨115200, ⟨1, 17, 17, 12⟩⟩ :: [] ∧
      ∀ q ∈ [Row.mk 9600 ⟨114, 236, 236, 233⟩, ⟨19200, ⟨54, 117, 117, 114⟩⟩], q.baud ≠ 115200) ∧
    (∀ q ∈ exCfg.table, q.baud ≠ 9601) := by decide

/-- The last instance there is. -/
theorem witness_ListenTakesOver_IsListenAnswers_NotListeningGuard : 1 < ninst hub ∧ hub.active ≠ some 1 := by decide

theorem witness_ListenUnchanged_ReadPopsOldest_PeekLeavesOldest_AvailCounts_FlushResetsIndices :
    0 < ninst hub ∧ hub.active = some 0 ∧ 2 ≤ hub.cfg.cap ∧
    (hub.head ≠ hub.tail ∧ hub.head < hub.cfg.cap ∧ Memory.read hub.buf hub.head = 0x41) ∧
    (0 < ninst setup ∧ setup.active = some 0 ∧ setup.head = setup.tail) := by decide

/-- An instance of source 0 and one of source 1. -/
theorem witness_ShutdownDisables :
    (∃ r, hub.insts[0]? = some r ∧ r.strap.rxSrc = .s0) ∧ ∃ r, hub.insts[1]? = some r ∧ r.strap.rxSrc = .s1 :=
  ⟨⟨_, rfl, rfl⟩, _, rfl, rfl⟩

/-- Both clauses: an unknown baud by the owner and by another instance. -/
theorem witness_ConfigureNotViable :
    0 < ninst hub ∧ 1 < ninst hub ∧ (lookupBaud hub.cfg 1200).rxStopbit = 0 ∧ hub.active = some 0 ∧ hub.active ≠ some 1 := by
  decide

/-- Lines at rest, and a line that never rests. -/
theorem witness_ConfigureViable :
    (Inv hub ∧ takesCommand hub ∧ (∃ r, hub.insts[1]? = some r) ∧ (lookupBaud hub.cfg 9600).rxStopbit ≠ 0) ∧
    (Inv starved ∧ takesCommand starved ∧ (∃ r, starved.insts[0]? = some r) ∧
      (lookupBaud starved.cfg 115200).rxStopbit ≠ 0) :=
  ⟨⟨inv_hub, ⟨rfl, rfl, rfl⟩, ⟨_, rfl⟩, by decide⟩, inv_of_quietOk (by decide), ⟨rfl, rfl, rfl⟩, ⟨_, rfl⟩, by decide⟩

/-- The settle delay of 233 cycles ends one cycle before the line changes. -/
theorem witness_ConfigureUndisturbed :
    let s := { hub with lineIn := [(2, ⟨.H, [(467, .L)], .steady⟩), (3, ⟨.H, [], .steady⟩)] }
    (∃ r, s.insts[1]? = some r) ∧ (lookupBaud s.cfg 9600).rxStopbit ≠ 0 ∧ s.src0.pending = false ∧
    s.src1.pending = false ∧
    ∀ x, (waveOf s (s.cfg.srcPin x)).edgeWithin s.now
      (s.now + delayCycles s.cfg (lookupBaud s.cfg 9600).txDelay) = false :=
  ⟨⟨_, rfl⟩, by decide, rfl, rfl, fun x => by cases x <;> decide⟩

theorem witness_FlushThenAvailIsZero : ∃ t, exec (.flush 0) hub = .next t :=
  (answers_next (show answers (exec (.flush 0) hub) (fun _ => true) = true by decide)).imp fun _ h => h.1

theorem witness_StatusWordBits : ∃ r, hub.insts[0]? = some r := ⟨_, rfl⟩

theorem witness_ResponsePatterns : 2 ^ 32 - 1 < 2 ^ 32 := by decide

/-- A state with room, a full one, and a byte to read. -/
theorem witness_BytesComeOutInOrder :
    (Inv hub ∧ bufFull hub = false ∧ 0 < ninst hub ∧ hub.active = some 0 ∧ hub.head ≠ hub.tail) ∧
    (let s := { hub with cfg := { exCfg with cap := 2 }, head := 1, tail := 0, buf := [(1, 0x41)], stored := 2 }
     Inv s ∧ bufFull s = true ∧ ∃ r, s.insts[0]? = some r) :=
  ⟨⟨inv_hub, by decide, by decide, rfl, by decide⟩, inv_of_quietOk (by decide), by decide, _, rfl⟩

theorem witness_FrameOfConsumers :
    (∃ t, exec (.peek 0) hub = .next t) ∧ Instr.peek 0 ∈ [Instr.islisten 0, .peek 0, .avail 0, .status 0] ∧
    ∃ t, exec (.read 0) hub = .next t :=
  ⟨(answers_next (show answers (exec (.peek 0) hub) (fun _ => true) = true by decide)).imp fun _ h => h.1, by decide,
    (answers_next (show answers (exec (.read 0) hub) (fun _ => true) = true by decide)).imp fun _ h => h.1⟩

theorem witness_FrameOfLifecycle :
    ∀ i ∈ [Instr.listen 1, .flush 1, .shutdown 1], ∃ t, exec i hub = .next t := by
  have h : ∀ i ∈ [Instr.listen 1, .flush 1, .shutdown 1], answers (exec i hub) (fun _ => true) = true := by decide
  exact fun i hi => (answers_next (h i hi)).imp fun _ h => h.1

/-- Both polarities. -/
theorem witness_SpuriousRunReturns :
    (∃ r, hub.insts[hub.rxInst]? = some r ∧ r.strap.inverse = false) ∧
    (let s := { hub with insts := [⟨⟨.s0, 4, true⟩, ⟨114, 236, 236, 233⟩, false, false⟩] }
     ∃ r, s.insts[s.rxInst]? = some r ∧ r.strap.inverse = true) :=
  ⟨⟨_, rfl, rfl⟩, _, rfl, rfl⟩

theorem witness_DecodingRunStores :
    (∃ r, hub.insts[hub.rxInst]? = some r ∧ r.strap.inverse = false) ∧
    (let s := { hub with insts := [⟨⟨.s0, 4, true⟩, ⟨114, 236, 236, 233⟩, false, false⟩] }
     ∃ r, s.insts[s.rxInst]? = some r ∧ r.strap.inverse = true) ∧
    hub.tail < hub.cfg.cap ∧ bufFull hub = false :=
  ⟨⟨_, rfl, rfl⟩, ⟨_, rfl, rfl⟩, by decide, by decide⟩

/-- V-RX7, and the same under inverse logic. -/
theorem witness_DecodingRunOverflows :
    (let s := { setup with cfg := { exCfg with cap := 4 }, head := 0, tail := 3 }
     (∃ r, s.insts[s.rxInst]? = some r ∧ r.strap.inverse = false) ∧ bufFull s = true) ∧
    (let s := { setup with
       cfg := { exCfg with cap := 4 }, head := 0, tail := 3
       insts := [⟨⟨.s0, 4, true⟩, ⟨114, 236, 236, 233⟩, false, false⟩] }
     (∃ r, s.insts[s.rxInst]? = some r ∧ r.strap.inverse = true) ∧ bufFull s = true) :=
  ⟨⟨⟨_, rfl, rfl⟩, by decide⟩, ⟨_, rfl, rfl⟩, by decide⟩

theorem witness_FrameOfHandler : ∀ i ∈ [Instr.rxisr 0x41, .rxisrInv 0x41], ∃ t, exec i hub = .next t := by
  have h : ∀ i ∈ [Instr.rxisr 0x41, .rxisrInv 0x41], answers (exec i hub) (fun _ => true) = true := by decide
  exact fun i hi => (answers_next (h i hi)).imp fun _ h => h.1

theorem witness_HandlerIsItsPhases :
    let s := waiting (frame55 1000)
    s.rxPhase = .check ∧ ∃ r i, s.insts[s.rxInst]? = some r ∧ decode (.frame (fetchFrame s r)) = .ok i :=
  ⟨rfl, _, .rxisr 0x55, rfl, by decide⟩

/-- A block that waits for the frame of `0x55` with cell `j` from instant `2 j + 2` on. -/
def tunedWaiting : State :=
  { waiting ⟨.H, [(2, .L), (4, .H), (6, .L), (8, .H), (10, .L), (12, .H), (14, .L), (16, .H), (18, .L), (20, .H)],
      .steady⟩ with
    insts := [⟨⟨.s0, 4, false⟩, tuned, false, false⟩], now := 2 }

/-- With room and with the buffer full; and a run that is followed by another before a next frame could begin. -/
theorem witness_WellTunedFrameIsReceived :
    let s := tunedWaiting
    let r : Inst := ⟨⟨.s0, 4, false⟩, tuned, false, false⟩
    let B := fun j => 2 * j + 2
    configOk s.cfg (straps s) = true ∧ s.rxPhase = .check ∧ s.insts[s.rxInst]? = some r ∧ s.tail < s.cfg.cap ∧
    bufFull s = false ∧ bufFull { s with cfg := { exCfg with cap := 4 }, tail := 3 } = true ∧
    FrameOnLine (waveOf s (rxPin s r)) r.strap 0x55 B 30 ∧
    WellTuned B (checkInstant s) (sampleInstant s r) (returnInstant s r) ∧
    returnInstant s r + s.cfg.latEntry < 30 ∧ s.active = some s.rxInst ∧
    ∃ t, step s = .next t ∧ ready t = some .s0 := by
  have h : ∀ j, j < 10 → ∀ u, u < 22 → 2 * j + 2 ≤ u → u < 2 * (j + 1) + 2 →
      (waveOf tunedWaiting (rxPin tunedWaiting ⟨⟨.s0, 4, false⟩, tuned, false, false⟩)).levelAt u =
        frameCell ⟨.s0, 4, false⟩ 0x55 j := by decide
  have h' : ∀ u, u < 30 → 20 ≤ u →
      (waveOf tunedWaiting (rxPin tunedWaiting ⟨⟨.s0, 4, false⟩, tuned, false, false⟩)).levelAt u = .H := by decide
  refine ⟨by decide, rfl, rfl, by decide, by decide, by decide,
    ⟨by decide, fun j hj u h1 h2 => ?_, by decide, fun u h1 h2 => h' u h2 h1⟩,
    ⟨⟨by decide, by decide⟩, by decide⟩, by decide, rfl, ?_⟩
  · exact h j hj u (by omega) h1 h2
  · obtain ⟨t, h, p⟩ := answers_next
      (show answers (step tunedWaiting) (fun t => decide (ready t = some .s0)) = true by decide)
    exact ⟨t, h, of_decide_eq_true p⟩

theorem witness_WriteRefusedWhenUnconfigured :
    ∃ r, hub.insts[1]? = some r ∧ r.profile.txDelay = 0 := ⟨_, rfl, rfl⟩

/-- Lines at rest, and a line that never rests. -/
theorem witness_WriteCompletes :
    (Inv hub ∧ takesCommand hub ∧ ∃ r, hub.insts[0]? = some r ∧ r.profile.txDelay ≠ 0) ∧
    (Inv starved ∧ takesCommand starved ∧ ∃ r, starved.insts[0]? = some r ∧ r.profile.txDelay ≠ 0) :=
  ⟨⟨inv_hub, ⟨rfl, rfl, rfl⟩, _, rfl, by decide⟩, inv_of_quietOk (by decide), ⟨rfl, rfl, rfl⟩, _, rfl, by decide⟩

/-- With `gie` 1, the enabled source at rest and the other's line one edge; and with `gie` 0 on any line. -/
theorem witness_WriteUndisturbed :
    (let s := { hub with lineIn := [(2, ⟨.H, [], .steady⟩), (3, ⟨.H, [(500, .L)], .steady⟩)] }
     (∃ r, s.insts[0]? = some r ∧ r.profile.txDelay ≠ 0) ∧ s.gie = true ∧ s.src0.enable = true ∧
      ∀ x, (source s x).enable = true →
        (source s x).pending = false ∧ (waveOf s (s.cfg.srcPin x)).edgeWithin s.now (s.now + (238 + 9 * 233)) = false) ∧
    (∃ r, starved.insts[0]? = some r ∧ r.profile.txDelay ≠ 0) ∧ { starved with gie := false }.gie = false :=
  ⟨⟨⟨_, rfl, by decide⟩, rfl, rfl, fun x => by cases x <;> decide⟩, ⟨_, rfl, by decide⟩, rfl⟩

theorem witness_WriteWaveform :
    Inv hub ∧ takesCommand hub ∧ (∃ r, hub.insts[0]? = some r ∧ r.profile.txDelay ≠ 0) ∧
    ∃ t, exec (.write 0 0x55) hub = .next t :=
  ⟨inv_hub, ⟨rfl, rfl, rfl⟩, ⟨_, rfl, by decide⟩,
    (answers_next (show answers (exec (.write 0 0x55) hub) (fun _ => true) = true by decide)).imp fun _ h => h.1⟩

/-- `T_START` and `T_BIT(7)`. -/
theorem witness_NoReceptionWhileTransmitting : (∃ r, hub.insts[0]? = some r) ∧ 0 ≤ 8 ∧ 8 ≤ 8 := ⟨⟨_, rfl⟩, by decide⟩

/-- Its peer, whose line is low from 0 to 2. -/
def tunedPeer : State :=
  { tunedWaiting with
    lineIn := [(2, ⟨.H, [(0, .L), (2, .H)], .steady⟩), (3, ⟨.H, [], .steady⟩)], now := 0 }

/-- Both clauses. -/
theorem witness_WrittenByteIsReceivedByPeer :
    let r : Inst := ⟨⟨.s0, 4, false⟩, tuned, false, false⟩
    Inv tunedSender ∧ takesCommand tunedSender ∧ tunedSender.insts[0]? = some r ∧ r.profile.txDelay ≠ 0 ∧
    configOk tunedPeer.cfg (straps tunedPeer) = true ∧ tunedPeer.rxPhase = .check ∧
    tunedPeer.insts[tunedPeer.rxInst]? = some r ∧ tunedPeer.tail < tunedPeer.cfg.cap ∧ bufFull tunedPeer = false ∧
    delayCycles tunedSender.cfg (startCount tunedSender.cfg r.profile) = 2 ∧
    delayCycles tunedSender.cfg r.profile.txDelay = 2 ∧
    tunedSender.now ≤ checkInstant tunedPeer ∧ checkInstant tunedPeer < tunedSender.now + 2 ∧
    (∀ k, k < 8 → tunedSender.now + 2 + k * 2 ≤ sampleInstant tunedPeer r k ∧
      sampleInstant tunedPeer r k < tunedSender.now + 2 + (k + 1) * 2) ∧
    (tunedPeer.cfg.delayScale = tunedSender.cfg.delayScale ∧ startCount tunedSender.cfg r.profile ≠ 0 ∧
      r.profile.rxCentering ≠ 0 ∧ r.profile.rxIntrabit ≠ 0 ∧ r.profile.rxStopbit ≠ 0 ∧
      checkInstant tunedPeer = tunedSender.now + tunedPeer.cfg.latEntry ∧
      WellTunedCounts tunedPeer.cfg r.profile (startCount tunedSender.cfg r.profile) r.profile.txDelay) ∧
    ∃ t, exec (.write 0 0xFF) tunedSender = .next t ∧
      ∀ u, (waveOf tunedPeer (rxPin tunedPeer r)).levelAt u = wireLevel (idleLevel r.strap) r.strap.txPin u t.wire := by
  refine ⟨inv_of_quietOk (by decide), ⟨rfl, rfl, rfl⟩, rfl, by decide, by decide, rfl, rfl, by decide, by decide,
    by decide, by decide, by decide, by decide, by decide,
    ⟨rfl, by decide, by decide, by decide, by decide, rfl, ⟨by decide, by decide, by decide⟩⟩, ?_⟩
  obtain ⟨t, h, p⟩ := answers_next
    (show answers (exec (.write 0 0xFF) tunedSender) (fun t => decide (t.wire =
      [⟨18, 4, .H⟩, ⟨16, 4, .H⟩, ⟨14, 4, .H⟩, ⟨12, 4, .H⟩, ⟨10, 4, .H⟩, ⟨8, 4, .H⟩, ⟨6, 4, .H⟩, ⟨4, 4, .H⟩,
        ⟨2, 4, .H⟩, ⟨0, 4, .L⟩])) = true by decide)
  refine ⟨t, h, fun u => ?_⟩
  rw [of_decide_eq_true p]
  show (if 2 ≤ u then Level.H else if 0 ≤ u then .L else .H) = _
  simp only [wireLevel_cons_same]
  repeat' split
  all_goals first | rfl | omega

end Sys2Proof.Tests
end

section
/-! PROOFS. What a step of an idle block is: the host's command, or time that passes (00_scope.md rule R8). -/

namespace Sys2Proof.Machine

open Sys2Proof

/-- The step of a block that takes a command is the host's move. -/
theorem nextMove_of_takesCommand {s : State} (hcfg : configOk s.cfg (straps s) = true) (hc : takesCommand s)
    (hr : ready s = none) : nextMove s = hostMove s := by
  obtain ⟨hrx, htx, hcf⟩ := hc
  simp [nextMove, hcfg, hrx, htx, hcf, hr]

theorem hostMove_of_due {s : State} {c : HostCommand} {rest : List HostCommand} (hs : s.script = c :: rest)
    (hdue : c.notBefore ≤ s.now) :
    hostMove s = runDecoded (decodeCommand c.word) { s with script := rest, rsp := none } := by
  simp only [hostMove, hs, if_pos hdue]

theorem hostMove_of_none_due {s : State} (h : ∀ c rest, s.script = c :: rest → s.now < c.notBefore) :
    hostMove s = .did (.next (idleAdvance s)) := by
  unfold hostMove
  cases hs : s.script with
  | nil => rfl
  | cons c rest => exact if_neg (Nat.not_le.2 (h c rest hs))

/-- An idle step goes to the first edge within some bound of at least one cycle; with a command to come the bound is the
distance to its instant. -/
theorem idleAdvance_eq_advance (s : State) :
    ∃ b, idleAdvance s = advance (cyclesToEdge (max 1 b) s) s ∧
      ∀ c rest, s.script = c :: rest → b = c.notBefore - s.now := by
  unfold idleAdvance
  cases s.script with
  | nil => exact ⟨_, rfl, nofun⟩
  | cons c rest =>
    refine ⟨_, rfl, fun c' rest' h => ?_⟩
    cases h
    rfl

/-- Settles O20: the step follows the host's move, which takes the due command. -/
theorem stepRunsHostCommand : Obligations.StepRunsHostCommand := by
  intro s c rest i hcfg hc hr hs hdue hdec
  have hdec' : decodeCommand c.word = .ok i := hdec
  have hmove : nextMove s = .run i { s with script := rest, rsp := none } := by
    rw [nextMove_of_takesCommand hcfg hc hr, hostMove_of_due hs hdue, hdec', runDecoded]
  rw [step, hmove]

/-- Settles O25: the step goes `cyclesToEdge` of a bound that ends at the next command's instant, so it passes neither
an edge nor that instant. -/
theorem idleStepLetsTimePass : Obligations.IdleStepLetsTimePass := by
  intro s hcfg hc hr hwait
  obtain ⟨b, hadv, hb⟩ := idleAdvance_eq_advance s
  have hmove : nextMove s = .did (.next (advance (cyclesToEdge (max 1 b) s) s)) := by
    rw [nextMove_of_takesCommand hcfg hc hr, hostMove_of_none_due hwait, hadv]
  refine ⟨_, cyclesToEdge_pos s (Nat.le_max_left 1 b), by rw [step, hmove], fun x t hnow ht => ?_, fun c rest hs => ?_⟩
  · rw [Bool.eq_false_iff]
    intro hedge
    exact absurd (cyclesToEdge_le_edge hedge hnow) (Nat.not_le.2 ht)
  · have hle := cyclesToEdge_le (max 1 b) s
    have hbound := hb c rest hs
    have hlater := hwait c rest hs
    omega

end Sys2Proof.Machine
end

section
/-! PROOFS. The invariants of 10_state.md rule R35: they hold after reset (rule R34) and every step keeps them; and what
one step does of a foreground delay (rule R13). -/

namespace Sys2Proof.Machine

open Sys2Proof

/-! ### The two sequenced operations by their phases -/

/-- `CONFIGURE` writes the four counts and goes straight to its last part, or begins its settle phase. -/
theorem execConfigure_phases {n : Nat} {baud : BitVec 32} {s t : State} (h : execConfigure n baud s = .next t) :
    ∃ p, n < ninst s ∧ (finishConfigure n (setProfile n p s) = .next t ∨
      ∃ x, cfgPhaseStep (beginSettle n x p (setProfile n p s)) = .next t) := by
  obtain ⟨r, hr, h⟩ := withPort_eq_next.1 h
  refine ⟨lookupBaud s.cfg baud, (List.getElem?_eq_some_iff.1 hr).1, ?_⟩
  by_cases hv : rxViable (lookupBaud s.cfg baud) = true
  · rw [if_pos hv] at h
    exact .inr ⟨_, h⟩
  · rw [if_neg hv] at h
    exact .inl h

/-- `WRITE` is refused, or is its stop phase from the stop level on. -/
theorem execWrite_phases {n : Nat} {b : Byte} {s t : State} (h : execWrite n b s = .next t) :
    ∃ r, s.insts[n]? = some r ∧ (t = { modifyInst n Inst.setWriteError s with rsp := some (.count 0) } ∨
      txPhaseStep (atStop n r b s) = .next t) := by
  obtain ⟨r, hr, ⟨_, ht⟩ | ⟨hd, _⟩⟩ := execWrite_spec h
  · exact ⟨r, hr, .inl ht⟩
  · rw [execWrite_eq hr b hd] at h
    exact ⟨r, hr, .inr ((txPhase_stop rfl).trans h)⟩

theorem finishConfigure_spec {n : Nat} {s t : State} (h : finishConfigure n s = .next t) :
    n < ninst s ∧ t = { takeOver n { s with cfgPhase := .idle } with rsp := some .done } := by
  obtain ⟨r, hr, h⟩ := withInst_eq_next.1 h
  cases h
  exact ⟨(List.getElem?_eq_some_iff.1 hr).1, rfl⟩

/-! ### What the phases of the foreground keep -/

theorem TxPhase.masking_of_ne {p : TxPhase} (hi : p ≠ .idle) (hs : p ≠ .stop) : p.masking = true := by
  cases p with
  | idle => exact absurd rfl hi
  | start => rfl
  | bit k => rfl
  | stop => exact absurd rfl hs

/-- Between its start level and its stop level a `WRITE` drives no pin but its own instance's. -/
theorem Inv.lookup_drivenPin {s : State} (h : Inv s) {r q : Inst} {m : Nat} (v : Level)
    (hr : s.insts[s.txInst]? = some r) (hq : s.insts[m]? = some q) (hm : s.txInst ≠ m) :
    (setPin r.strap.txPin v s.pinOut).lookup q.strap.txPin = some (idleLevel q.strap) := by
  rw [lookup_setPin_other (h.txPin_ne hq hr (Ne.symm hm))]
  exact h.pinsRest m q hq (.inr hm)

/-- A `PinWrite` is traced at its own instant. -/
theorem Inv.wirePast_pinWrite {s : State} (h : Inv s) (p : Pin) (v : Level) :
    ∀ e ∈ (pinWrite p v s).wire, e.time ≤ s.now := by
  intro e he
  rcases List.mem_cons.1 he with rfl | he
  · exact Nat.le_refl _
  · exact h.wirePast e he

/-- A data phase of `WRITE` is entered (rule R144). -/
theorem Inv.enterBit {s : State} (h : Inv s) (hm : s.txPhase.masking = true) {r : Inst}
    (hr : s.insts[s.txInst]? = some r) (v : Level) (k : Fin 8) (w : Nat) :
    Inv { pinWrite r.strap.txPin v s with txPhase := .bit k, txK := k, fgWait := w } :=
  { h with
    txInst_lt := fun _ => (List.getElem?_eq_some_iff.1 hr).1
    txK_eq := fun j e => by cases e; rfl
    oneOp := .inr (h.oneOp.resolve_left fun e => by rw [e] at hm; cases hm)
    txMasks := fun _ => h.txMasks hm
    pinsRest := fun m q hq hrest => h.lookup_drivenPin v hr hq (hrest.resolve_left nofun)
    wirePast := h.wirePast_pinWrite _ _ }

/-- The stop phase of `WRITE` is entered (rule R145). -/
theorem Inv.enterStop {s : State} (h : Inv s) (hm : s.txPhase.masking = true) {r : Inst}
    (hr : s.insts[s.txInst]? = some r) (g : Bool) (w : Nat) :
    Inv { pinWrite r.strap.txPin (idleLevel r.strap) s with gie := g, txPhase := .stop, fgWait := w } :=
  { h with
    txInst_lt := fun _ => (List.getElem?_eq_some_iff.1 hr).1
    txK_eq := nofun
    oneOp := .inr (h.oneOp.resolve_left fun e => by rw [e] at hm; cases hm)
    rxMasks := fun hrx => absurd (h.txMasks hm).2 hrx
    txMasks := nofun
    pinsRest := fun m q hq _ => by
      by_cases hown : s.txInst = m
      · obtain rfl : r = q := Option.some.inj (hr.symm.trans (hown ▸ hq))
        exact lookup_setPin_same _ _ _
      · exact h.lookup_drivenPin _ hr hq hown
    wirePast := h.wirePast_pinWrite _ _ }

theorem Inv.txPhaseStep {s t : State} (h : Inv s) (hi : s.rxPhase = .idle) (hs : txPhaseStep s = .next t) : Inv t := by
  obtain ⟨_, rfl⟩ | ⟨hne, u, hu, hend⟩ := txPhaseStep_spec hs
  · exact h
  have hInv : Inv u := h.fgDelay hu
  have hph : u.txPhase = s.txPhase := (fgDelay_spec hi hu).1.txPhase
  obtain ⟨_, rfl⟩ | ⟨_, ⟨hstop, rfl⟩ | ⟨hstop, r, hr, hgo⟩⟩ := hend
  · exact hInv
  · exact (hInv.txIdle (by rw [hph, hstop]; rfl)).port _ _
  · have hm : u.txPhase.masking = true := TxPhase.masking_of_ne (by rwa [hph]) (by rwa [hph])
    obtain ⟨k, _, rfl⟩ | ⟨_, _, rfl⟩ := hgo
    · exact hInv.enterBit hm hr _ k _
    · exact hInv.enterStop hm hr _ _

theorem Inv.finishConfigure {n : Nat} {s t : State} (h : Inv s) (hf : finishConfigure n s = .next t) : Inv t := by
  obtain ⟨hn, rfl⟩ := finishConfigure_spec hf
  exact (h.cfgIdle.takeOver hn).port _ _

theorem Inv.cfgPhaseStep {s t : State} (h : Inv s) (hs : cfgPhaseStep s = .next t) : Inv t := by
  obtain ⟨_, rfl⟩ | ⟨_, u, hu, ⟨_, rfl⟩ | ⟨_, hn, rfl⟩⟩ := cfgPhaseStep_spec hs
  · exact h
  · exact h.fgDelay hu
  · exact ((h.fgDelay hu).cfgIdle.takeOver hn).port _ _

/-! ### Operations and steps -/

/-- `SHUTDOWN`'s part (rule R128): no source fires any more. -/
theorem Inv.disable {s : State} (h : Inv s) (x : SourceId) (f : IntSource → IntSource) :
    Inv { setSource x f s with gie := false } := by
  have hg : s.txPhase.masking = true → false = false ∧ s.rxPhase = .idle := fun hm => ⟨rfl, (h.txMasks hm).2⟩
  cases x <;> exact { h with rxMasks := fun _ => rfl, txMasks := hg }

/-- Every operation of a block that takes a command keeps the invariants. -/
theorem Inv.exec {s t : State} (h : Inv s) (hc : takesCommand s) {i : Instr} (he : exec i s = .next t) : Inv t := by
  have hm : s.txPhase.masking = false := by rw [hc.2.1]; rfl
  cases i with
  | configure n baud =>
    obtain ⟨p, hn, hfin | ⟨x, hset⟩⟩ := execConfigure_phases he
    · exact (h.setProfile n p).finishConfigure hfin
    · exact ((h.setProfile n p).beginSettle x p (by simpa [ninst] using hn) hc).cfgPhaseStep hset
  | shutdown n =>
    obtain ⟨r, _, rfl⟩ := execShutdown_spec he
    exact (h.disable _ _).port _ _
  | listen n =>
    obtain ⟨hn, rfl⟩ := execListen_spec he
    exact (h.takeOver hn).port _ _
  | islisten n =>
    obtain ⟨_, rfl⟩ := execIslisten_spec he
    exact h.port _ _
  | read n =>
    obtain ⟨_, rfl | ⟨_, hne, _, rfl⟩⟩ := execRead_spec he
    · exact h.port _ _
    · exact (h.pop hne).port _ _
  | peek n =>
    obtain ⟨_, v, rfl⟩ := execPeek_spec he
    exact h.port _ _
  | avail n =>
    obtain ⟨_, v, rfl⟩ := execAvail_spec he
    exact h.port _ _
  | write n b =>
    obtain ⟨r, hr, rfl | hstop⟩ := execWrite_phases he
    · exact (h.modify n (f := Inst.setWriteError) fun _ => rfl).port _ _
    · exact (h.atStop hc hr b).txPhaseStep hc.1 hstop
  | flush n =>
    obtain ⟨_, rfl | ⟨_, rfl⟩⟩ := execFlush_spec he
    · exact h.port _ _
    · exact h.resetIndices.port _ _
  | status n =>
    obtain ⟨_, v, rfl⟩ := execStatus_spec he
    exact h.port _ _
  | rxisr cells => exact h.runHandler hm he
  | rxisrInv cells => exact h.runHandler hm he

theorem Inv.idleAdvance {s : State} (h : Inv s) : Inv (idleAdvance s) := by
  obtain ⟨b, hadv, _⟩ := idleAdvance_eq_advance s
  rw [hadv]
  exact h.advance _

/-- Settles O10: each of the seven things a step can do keeps the invariants. -/
theorem stepKeepsInvariants : Obligations.StepKeepsInvariants := by
  intro s t h hs
  obtain ⟨_, ⟨hp, r, _, hrun⟩ | ⟨hp, _, r, _, hph⟩ | ⟨_, x, hx, rfl⟩ | ⟨hi, _, _, htx⟩ | ⟨_, _, _, _, hcf⟩ |
    ⟨hc, _, c, rest, i, _, _, _, he⟩ | ⟨_, _, rfl⟩⟩ := step_spec hs
  · exact h.runHandler (h.notMasking_of_rx (by rw [hp]; exact nofun)) hrun
  · exact h.rxPhaseWith hp hph
  · exact h.enterHandler hx
  · exact h.txPhaseStep hi htx
  · exact h.cfgPhaseStep hcf
  · exact (h.port none rest).exec hc he
  · exact h.idleAdvance

/-! ### The foreground delay -/

/-- A foreground delay ends within the step on lines that come to rest, and with `gie = 0` on any. -/
theorem fgDelay_ends {s t : State} (h : fgDelay s = .next t) (hend : linesSteady s = true ∨ s.gie = false) :
    delayOver t = true := by
  rcases hend with hs | hg
  · exact fgDelay_over hs h
  · rw [fgDelay_masked hg] at h
    cases h
    exact delayOver_masked (s := advance s.fgWait s) hg

/-- Settles O28: under the invariants the delay answers a next state, and `fgDelay_spec` says what it is. -/
theorem foregroundDelayEnds : Obligations.ForegroundDelayEnds := by
  intro s h hi
  obtain ⟨t, ht⟩ := h.fgDelay_total
  obtain ⟨hkept, _, hidle, hgie, htime⟩ := fgDelay_spec hi ht
  exact ⟨t, ht, hidle, hgie, htime, hkept, fun hend => (delayOver_iff t).1 (fgDelay_ends ht hend)⟩

/-! ### Reset -/

@[simp] theorem straps_powerOn (b : Build) (u : PowerOn) : straps (State.powerOn b u) = b.straps := by
  simp [straps, State.powerOn, Inst.reset, Function.comp_def]

/-- With different pins on different instances, the list of idle levels holds each instance's own. -/
theorem lookup_idleLevels {l : List Strap} (hd : (l.map Strap.txPin).Nodup) {t : Strap} (ht : t ∈ l) :
    (l.map fun t => (t.txPin, idleLevel t)).lookup t.txPin = some (idleLevel t) := by
  induction l with
  | nil => cases ht
  | cons a l ih =>
    obtain ⟨ha, hd⟩ := List.nodup_cons.1 hd
    rcases List.mem_cons.1 ht with rfl | ht
    · simp
    · have hne : t.txPin ≠ a.txPin := fun e => ha (e ▸ List.mem_map_of_mem ht)
      simpa [List.lookup_cons, beq_eq_false_iff_ne.2 hne] using ih hd ht

/-- The reset state of a build whose parameters are a configuration meets the invariants. -/
theorem inv_powerOn {b : Build} {u : PowerOn} (hb : configOk b.cfg b.straps = true) (hwf : Memory.wf u.buf)
    (hrange : ∀ c ∈ u.buf, c.1 < b.cfg.cap) : Inv (State.powerOn b u) := by
  obtain ⟨_, hcap, _, hpins, _⟩ := (configOk_iff _ _).1 hb
  have hpos : 0 < b.cfg.cap := by omega
  exact
    { config := by rw [straps_powerOn]; exact hb
      head_lt := hpos
      tail_lt := hpos
      buf_wf := hwf
      buf_range := hrange
      tail_stored := (Nat.zero_mod _).symm
      count_stored := by simp [bufCount, State.powerOn]
      active_lt := nofun
      rxInst_lt := fun hne => absurd rfl hne
      rxK_eq := nofun
      txInst_lt := fun hne => absurd rfl hne
      txK_eq := nofun
      cfgInst_lt := fun hne => absurd rfl hne
      oneOp := .inl rfl
      rxMasks := fun hne => absurd rfl hne
      txMasks := nofun
      pinsRest := fun n r hr _ => by
        have hmem : r.strap ∈ straps (State.powerOn b u) := List.mem_map_of_mem (List.mem_of_getElem? hr)
        rw [straps_powerOn] at hmem
        exact lookup_idleLevels hpins hmem
      wirePast := nofun }

/-- Settles O8: `State.reset` is the reset state of one such build, with an empty list of buffer cells. -/
theorem resetMeetsInvariants : Obligations.ResetMeetsInvariants :=
  ⟨inv_powerOn (by decide) State.reset_buf_wf nofun, fun _ _ hb hwf hrange => inv_powerOn hb hwf hrange⟩

/-- Settles O7: `State.powerOn` writes every value rule R34 gives, whatever `u` has for the others. -/
theorem resetValues : Obligations.ResetValues := by
  intro b u
  refine ⟨fun n t ht => ?_, rfl, rfl, rfl, rfl, rfl, rfl, rfl, rfl, rfl, rfl, rfl, rfl, rfl⟩
  show (b.straps.map Inst.reset)[n]? = _
  rw [List.getElem?_map, ht]
  rfl

end Sys2Proof.Machine
end

section
/-! PROOFS. What an operation and a step do to the parameters, the profiles, the owner of the buffer and the overflow
flags (10_state.md rules R10, R15, R21 to R23): one relation for all of them, proved once for every operation. -/

namespace Sys2Proof.Machine

open Sys2Proof

/-! ### The relation -/

/-- The profiles of the instances (rule R21). -/
def profiles (s : State) : List Profile := s.insts.map Inst.profile

theorem profiles_getElem? (s : State) (n : Nat) : (profiles s)[n]? = (s.insts[n]?).map Inst.profile :=
  List.getElem?_map

/-- Parameters, straps, waveforms, profiles and the owner of the buffer are as before, and no overflow flag is
cleared. -/
structure SameOwner (s t : State) : Prop where
  cfg      : t.cfg = s.cfg
  straps   : straps t = straps s
  lineIn   : t.lineIn = s.lineIn
  profiles : profiles t = profiles s
  active   : t.active = s.active
  overflow : OverflowLasts s t

/-- Ownership of the buffer moves at most once: all is `SameOwner`, or so before and after a takeover. -/
def OwnerMovesOnce (s t : State) : Prop :=
  SameOwner s t ∨ ∃ n u, SameOwner s u ∧ SameOwner (takeOver n u) t

theorem SameOwner.trans {s t u : State} (h : SameOwner s t) (g : SameOwner t u) : SameOwner s u where
  cfg := g.cfg.trans h.cfg
  straps := g.straps.trans h.straps
  lineIn := g.lineIn.trans h.lineIn
  profiles := g.profiles.trans h.profiles
  active := g.active.trans h.active
  overflow := h.overflow.trans g.overflow

theorem SameOwner.of_insts {s t : State} (hc : t.cfg = s.cfg) (hi : t.insts = s.insts) (hl : t.lineIn = s.lineIn)
    (ha : t.active = s.active) : SameOwner s t :=
  ⟨hc, by simp [Machine.straps, hi], hl, by simp [Machine.profiles, hi], ha, .of_insts hi⟩

theorem SameOwner.refl (s : State) : SameOwner s s := .of_insts rfl rfl rfl rfl

/-- The response port and the host's commands are no part of it. -/
theorem sameOwner_port (s : State) (v : Option Response) (w : List HostCommand) :
    SameOwner s { s with rsp := v, script := w } :=
  .of_insts rfl rfl rfl rfl

theorem SameOwner.of_kept {s t : State} (h : KeptByHandler s t) (ho : OverflowLasts s t) : SameOwner s t where
  cfg := h.cfg
  straps := by simpa [Machine.straps, Function.comp_def] using congrArg (List.map Prod.fst) h.insts
  lineIn := h.lineIn
  profiles := by simpa [Machine.profiles, Function.comp_def] using congrArg (List.map fun x => x.2.1) h.insts
  active := h.active
  overflow := ho

theorem OwnerMovesOnce.after {s t u : State} (h : SameOwner s t) : OwnerMovesOnce t u → OwnerMovesOnce s u
  | .inl g => .inl (h.trans g)
  | .inr ⟨n, v, g, k⟩ => .inr ⟨n, v, h.trans g, k⟩

/-! ### Instances that change -/

theorem overflowLasts_modify {s : State} {n : Nat} {f : Inst → Inst}
    (hf : ∀ r, r.overflow = true → (f r).overflow = true) : OverflowLasts s (modifyInst n f s) := by
  intro m r hr ho
  by_cases hm : n = m <;> simp [hm, hr, ho, hf]

theorem profiles_modifyInst (n : Nat) (f : Inst → Inst) (s : State) (hf : ∀ r, (f r).profile = r.profile) :
    profiles (modifyInst n f s) = profiles s := by
  apply List.ext_getElem?
  intro m
  simp only [profiles_getElem?, modifyInst_insts, List.getElem?_modify]
  by_cases hm : n = m <;> cases s.insts[m]? <;> simp [hm, hf]

theorem profiles_setProfile_other {m n : Nat} (h : m ≠ n) (p : Profile) (s : State) :
    (profiles (setProfile m p s))[n]? = (profiles s)[n]? := by
  simp [profiles_getElem?, h]

theorem straps_modifyInst (n : Nat) (f : Inst → Inst) (s : State) (hf : ∀ r, (f r).strap = r.strap) :
    straps (modifyInst n f s) = straps s :=
  map_strap_modify hf

theorem sameOwner_setWriteError (n : Nat) (s : State) : SameOwner s (modifyInst n Inst.setWriteError s) :=
  ⟨rfl, straps_modifyInst n _ s fun _ => rfl, rfl, profiles_modifyInst n _ s fun _ => rfl, rfl,
    overflowLasts_modify fun _ ho => ho⟩

/-! ### What a takeover does -/

@[simp] theorem straps_takeOver (n : Nat) (s : State) : straps (takeOver n s) = straps s := by
  rcases takeOver_cases n s with ⟨_, e⟩ | ⟨_, e⟩ <;> rw [e]
  exact straps_modifyInst n Inst.clearOverflow s fun _ => rfl

@[simp] theorem profiles_takeOver (n : Nat) (s : State) : profiles (takeOver n s) = profiles s := by
  rcases takeOver_cases n s with ⟨_, e⟩ | ⟨_, e⟩ <;> rw [e]
  exact profiles_modifyInst n Inst.clearOverflow s fun _ => rfl

/-- A takeover clears no overflow flag but that of an instance that had not the buffer (rule R121). -/
theorem takeOver_overflow {m n : Nat} {s : State} {r : Inst} (hr : s.insts[n]? = some r) (ho : r.overflow = true) :
    (m = n ∧ s.active ≠ some n) ∨ ∃ q, (takeOver m s).insts[n]? = some q ∧ q.overflow = true := by
  rcases takeOver_cases m s with ⟨_, e⟩ | ⟨ha, e⟩ <;> rw [e]
  · exact .inr ⟨r, hr, ho⟩
  · by_cases hm : m = n
    · exact .inl ⟨hm, hm ▸ ha⟩
    · exact .inr ⟨r, by simpa [hm] using hr, ho⟩

/-! ### Delays, phases and operations -/

theorem runHandler_sameOwner {s t : State} {c : Level} {cells : Byte} (h : runHandler c cells s = .next t) :
    SameOwner s t :=
  .of_kept (runHandler_kept h).1 (runHandler_overflowLasts h)

theorem fgDelay_sameOwner {s t : State} (h : fgDelay s = .next t) : SameOwner s t :=
  fgDelay_induct (P := SameOwner s) (fun _ _ hu _ _ _ => hu.trans (.of_insts rfl rfl rfl rfl))
    (fun _ _ _ hu hx hv => hu.trans (.of_kept (serveInterrupt_kept hx hv).1 (serveInterrupt_overflowLasts hx hv)))
    (.refl s) h

theorem txPhaseStep_sameOwner {s t : State} (h : txPhaseStep s = .next t) : SameOwner s t := by
  obtain ⟨_, rfl⟩ | ⟨_, u, hu, hend⟩ := txPhaseStep_spec h
  · exact .refl _
  refine (fgDelay_sameOwner hu).trans ?_
  obtain ⟨_, rfl⟩ | ⟨_, ⟨_, rfl⟩ | ⟨_, r, _, ⟨k, _, rfl⟩ | ⟨_, _, rfl⟩⟩⟩ := hend <;> exact .of_insts rfl rfl rfl rfl

theorem ownerMovesOnce_finishConfigure {n : Nat} {s t : State} (h : finishConfigure n s = .next t) :
    OwnerMovesOnce s t := by
  obtain ⟨_, rfl⟩ := finishConfigure_spec h
  exact .inr ⟨n, { s with cfgPhase := .idle }, .of_insts rfl rfl rfl rfl, .of_insts rfl rfl rfl rfl⟩

theorem ownerMovesOnce_cfgPhaseStep {s t : State} (h : cfgPhaseStep s = .next t) : OwnerMovesOnce s t := by
  obtain ⟨_, rfl⟩ | ⟨_, u, hu, ⟨_, rfl⟩ | ⟨_, _, rfl⟩⟩ := cfgPhaseStep_spec h
  · exact .inl (.refl _)
  · exact .inl (fgDelay_sameOwner hu)
  · exact .inr ⟨u.cfgInst, { u with cfgPhase := .idle }, (fgDelay_sameOwner hu).trans (.of_insts rfl rfl rfl rfl),
      .of_insts rfl rfl rfl rfl⟩

/-- `CONFIGURE` writes a profile first. -/
theorem ownerMovesOnce_configure {n : Nat} {baud : BitVec 32} {s t : State}
    (h : exec (.configure n baud) s = .next t) : ∃ p, OwnerMovesOnce (setProfile n p s) t := by
  obtain ⟨p, _, hfin | ⟨x, hset⟩⟩ := execConfigure_phases h
  · exact ⟨p, ownerMovesOnce_finishConfigure hfin⟩
  · exact ⟨p, (ownerMovesOnce_cfgPhaseStep hset).after (.of_insts (by simp) (by simp) (by simp) (by simp))⟩

theorem ownerMovesOnce_exec {i : Instr} {s t : State} (h : exec i s = .next t)
    (hi : ∀ n baud, i ≠ .configure n baud) : OwnerMovesOnce s t := by
  cases i with
  | configure n baud => exact absurd rfl (hi n baud)
  | shutdown n =>
    obtain ⟨r, _, rfl⟩ := execShutdown_spec h
    exact .inl (.of_insts (by simp) (by simp) (by simp) (by simp))
  | listen n =>
    obtain ⟨_, rfl⟩ := execListen_spec h
    exact .inr ⟨n, s, .refl s, .of_insts rfl rfl rfl rfl⟩
  | islisten n =>
    obtain ⟨_, rfl⟩ := execIslisten_spec h
    exact .inl (sameOwner_port s _ _)
  | read n =>
    obtain ⟨_, rfl | ⟨_, _, _, rfl⟩⟩ := execRead_spec h
    · exact .inl (sameOwner_port s _ _)
    · exact .inl (.of_insts rfl rfl rfl rfl)
  | peek n =>
    obtain ⟨_, v, rfl⟩ := execPeek_spec h
    exact .inl (sameOwner_port s _ _)
  | avail n =>
    obtain ⟨_, v, rfl⟩ := execAvail_spec h
    exact .inl (sameOwner_port s _ _)
  | write n b =>
    obtain ⟨r, _, rfl | hstop⟩ := execWrite_phases h
    · exact .inl ((sameOwner_setWriteError n s).trans (.of_insts rfl rfl rfl rfl))
    · have hat : SameOwner s (atStop n r b s) := .of_insts rfl rfl rfl rfl
      exact .inl (hat.trans (txPhaseStep_sameOwner hstop))
  | flush n =>
    obtain ⟨_, rfl | ⟨_, rfl⟩⟩ := execFlush_spec h
    · exact .inl (sameOwner_port s _ _)
    · exact .inl (.of_insts rfl rfl rfl rfl)
  | status n =>
    obtain ⟨_, v, rfl⟩ := execStatus_spec h
    exact .inl (sameOwner_port s _ _)
  | rxisr cells => exact .inl (runHandler_sameOwner h)
  | rxisrInv cells => exact .inl (runHandler_sameOwner h)

/-- Everything a step does to the owner and what goes with it: ownership moves at most once, in the state it starts from
or after one instance's profile was written there. -/
theorem step_ownerMovesOnce {s t : State} (h : step s = .next t) :
    OwnerMovesOnce s t ∨ ∃ n p, OwnerMovesOnce (setProfile n p s) t := by
  obtain ⟨_, ⟨_, r, _, hrun⟩ | ⟨_, _, r, _, hph⟩ | ⟨_, x, _, rfl⟩ | ⟨_, _, _, htx⟩ | ⟨_, _, _, _, hcf⟩ |
    ⟨_, _, c, rest, i, _, _, _, he⟩ | ⟨_, _, rfl⟩⟩ := step_spec h
  · exact .inl (.inl (runHandler_sameOwner hrun))
  · obtain ⟨hk, ho⟩ := rxPhaseWith_kept hph
    exact .inl (.inl (.of_kept hk ho))
  · exact .inl (.inl (.of_insts (by simp) (by simp) (by simp) (by simp)))
  · exact .inl (.inl (txPhaseStep_sameOwner htx))
  · exact .inl (ownerMovesOnce_cfgPhaseStep hcf)
  · by_cases hi : ∃ n baud, i = .configure n baud
    · obtain ⟨n, baud, rfl⟩ := hi
      obtain ⟨p, hp⟩ := ownerMovesOnce_configure he
      exact .inr ⟨n, p, hp.after (sameOwner_port (setProfile n p s) none rest)⟩
    · have hne : ∀ n baud, i ≠ .configure n baud := fun n baud e => hi ⟨n, baud, e⟩
      exact .inl ((ownerMovesOnce_exec he hne).after (sameOwner_port s none rest))
  · exact .inl (.inl (.of_insts rfl rfl rfl rfl))

/-! ### What follows from it -/

theorem OwnerMovesOnce.parameters {s t : State} (h : OwnerMovesOnce s t) :
    t.cfg = s.cfg ∧ straps t = straps s ∧ t.lineIn = s.lineIn := by
  obtain h | ⟨n, u, h, g⟩ := h
  · exact ⟨h.cfg, h.straps, h.lineIn⟩
  · exact ⟨g.cfg.trans ((takeOver_cfg n u).trans h.cfg), g.straps.trans ((straps_takeOver n u).trans h.straps),
      g.lineIn.trans ((takeOver_lineIn n u).trans h.lineIn)⟩

theorem OwnerMovesOnce.profiles {s t : State} (h : OwnerMovesOnce s t) : profiles t = profiles s := by
  obtain h | ⟨n, u, h, g⟩ := h
  · exact h.profiles
  · exact g.profiles.trans ((profiles_takeOver n u).trans h.profiles)

theorem OwnerMovesOnce.active_ne_none {s t : State} (h : OwnerMovesOnce s t) (ha : s.active ≠ none) :
    t.active ≠ none := by
  obtain h | ⟨n, u, _, g⟩ := h
  · rw [h.active]
    exact ha
  · rw [g.active, takeOver_active]
    exact nofun

/-- A cleared overflow flag is the new owner's. -/
theorem OwnerMovesOnce.cleared {s t : State} (h : OwnerMovesOnce s t) {n : Nat} {r q : Inst}
    (hr : s.insts[n]? = some r) (ho : r.overflow = true) (hq : t.insts[n]? = some q) (hc : q.overflow = false) :
    t.active = some n ∧ s.active ≠ some n := by
  have hlost {u : State} (hu : OverflowLasts u t) {v : Inst} (hv : u.insts[n]? = some v) : v.overflow ≠ true := by
    intro hvo
    obtain ⟨w, hw, hwo⟩ := hu n v hv hvo
    rw [hq] at hw
    cases hw
    rw [hc] at hwo
    cases hwo
  obtain h | ⟨m, u, h, g⟩ := h
  · exact absurd ho (hlost h.overflow hr)
  · obtain ⟨v, hv, hvo⟩ := h.overflow n r hr ho
    obtain ⟨rfl, ha⟩ | ⟨w, hw, hwo⟩ := takeOver_overflow (m := m) hv hvo
    · exact ⟨g.active.trans (takeOver_active m u), h.active ▸ ha⟩
    · exact absurd hwo (hlost g.overflow hw)

/-- Settles O14: a written profile and a takeover leave the parameters. -/
theorem parametersNeverChange : Obligations.ParametersNeverChange := by
  intro s t hs
  obtain h | ⟨n, p, h⟩ := step_ownerMovesOnce hs
  · exact h.parameters
  · obtain ⟨hcfg, hstraps, hline⟩ := h.parameters
    exact ⟨hcfg, hstraps.trans (straps_modifyInst n _ s fun _ => rfl), hline⟩

/-- Settles O15: a takeover gives the buffer to an instance. -/
theorem ownershipNeverLapses : Obligations.OwnershipNeverLapses := by
  intro s t hs ha
  obtain h | ⟨n, p, h⟩ := step_ownerMovesOnce hs
  · exact h.active_ne_none ha
  · exact h.active_ne_none ha

/-- Settles O17: the only clearing of a step is its takeover's. -/
theorem overflowClearedByTakeoverOnly : Obligations.OverflowClearedByTakeoverOnly := by
  intro s t n r q hs hr hq ho hc
  obtain h | ⟨m, p, h⟩ := step_ownerMovesOnce hs
  · exact h.cleared hr ho hq hc
  · have hlast : OverflowLasts s (setProfile m p s) := overflowLasts_modify fun _ hf => hf
    obtain ⟨r', hr', ho'⟩ := hlast n r hr ho
    exact h.cleared hr' ho' hq hc

/-- Settles O18: no takeover and no handler run writes a profile, and a `CONFIGURE` writes its own instance's. -/
theorem profileChangedByConfigureOnly : Obligations.ProfileChangedByConfigureOnly := by
  intro i s t n he hi
  rw [← profiles_getElem?, ← profiles_getElem?]
  by_cases hc : ∃ m baud, i = .configure m baud
  · obtain ⟨m, baud, rfl⟩ := hc
    have hm : m ≠ n := fun e => hi baud (by rw [e])
    obtain ⟨p, h⟩ := ownerMovesOnce_configure he
    rw [h.profiles, profiles_setProfile_other hm]
  · rw [(ownerMovesOnce_exec he fun m baud e => hc ⟨m, baud, e⟩).profiles]

end Sys2Proof.Machine
end

section
/-! PROOFS. The receive buffer (20_memory.md): its three derived quantities, the order of the bytes, what the consumer
operations of the active listener give, and what a decoding handler run stores. -/

namespace Sys2Proof.Machine

open Sys2Proof

/-! ### Empty, full and count (rule R41) -/

theorem bufEmpty_iff (s : State) : bufEmpty s = true ↔ s.head = s.tail := beq_iff_eq

theorem bufFull_iff (s : State) : bufFull s = true ↔ (s.tail + 1) % s.cfg.cap = s.head := beq_iff_eq

/-- The distance from `head` to `tail` is 0 where they meet. -/
theorem ringCount_eq_zero_iff {c h t : Nat} (hh : h < c) (ht : t < c) : h = t ↔ (t + c - h) % c = 0 := by
  rcases ringCount_cases hh ht with ⟨hle, hcount⟩ | ⟨hlt, hcount⟩ <;> omega

/-- The distance is the largest there is where `tail` is one slot behind `head`. -/
theorem ringCount_eq_max_iff {c h t : Nat} (hh : h < c) (ht : t < c) :
    (t + 1) % c = h ↔ (t + c - h) % c = c - 1 := by
  rcases ringNext_cases ht with ⟨hwrap, hnext⟩ | ⟨hroom, hnext⟩ <;>
    rcases ringCount_cases hh ht with ⟨hle, hcount⟩ | ⟨hlt, hcount⟩ <;> omega

theorem bufCount_le (s : State) (hc : 2 ≤ s.cfg.cap) : bufCount s ≤ s.cfg.cap - 1 :=
  Nat.le_sub_one_of_lt (bufCount_lt s hc)

/-- Settles O13: both equivalences with the count are facts of the ring. -/
theorem emptyAndFullByCount : Obligations.EmptyAndFullByCount := by
  intro s hcap hh ht
  exact ⟨bufEmpty_iff s, bufFull_iff s, rfl, (bufEmpty_iff s).trans (ringCount_eq_zero_iff hh ht),
    (bufFull_iff s).trans (ringCount_eq_max_iff hh ht), bufCount_le s hcap⟩

/-! ### Consumer operations of the active listener (rules R161 to R163) -/

theorem memRead_of_lt {idx : Nat} {s : State} (h : idx < s.cfg.cap) (k : Byte → Result) :
    memRead idx s k = k (Memory.read s.buf idx) := if_pos h

/-- A command that looks at nothing of its instance only needs the instance to exist. -/
theorem withPort_const {n : Nat} {s : State} (h : n < ninst s) (x : Result) : withPort n s (fun _ => x) = x :=
  withPort_of (List.getElem?_eq_getElem h) _

section
variable {n : Nat} {s : State} (hn : n < ninst s) (ha : s.active = some n)
include hn ha

theorem execRead_of_active :
    execRead n s = if bufEmpty s then reply .noData s else bufPop s fun v s' => reply (.byte v) s' := by
  rw [execRead, withPort_const hn, if_neg (not_not_intro ha)]

theorem execPeek_of_active :
    execPeek n s = if bufEmpty s then reply .noData s else bufFront s fun v => reply (.byte v) s := by
  rw [execPeek, withPort_const hn, if_neg (not_not_intro ha)]

theorem execAvail_of_active : execAvail n s = .next { s with rsp := some (.count (bufCount s)) } := by
  rw [execAvail, withPort_const hn, if_neg (not_not_intro ha), reply]

theorem execRead_of_empty (he : s.head = s.tail) : execRead n s = .next { s with rsp := some .noData } := by
  rw [execRead_of_active hn ha, if_pos ((bufEmpty_iff s).2 he), reply]

theorem execPeek_of_empty (he : s.head = s.tail) : execPeek n s = .next { s with rsp := some .noData } := by
  rw [execPeek_of_active hn ha, if_pos ((bufEmpty_iff s).2 he), reply]

theorem execRead_of_nonempty (hne : s.head ≠ s.tail) (hh : s.head < s.cfg.cap) :
    execRead n s = .next { s with
      head := nextIndex s.cfg s.head, rsp := some (.byte (Memory.read s.buf s.head)) } := by
  rw [execRead_of_active hn ha, if_neg (mt (bufEmpty_iff s).1 hne), bufPop, memRead_of_lt hh, reply]

theorem execPeek_of_nonempty (hne : s.head ≠ s.tail) (hh : s.head < s.cfg.cap) :
    execPeek n s = .next { s with rsp := some (.byte (Memory.read s.buf s.head)) } := by
  rw [execPeek_of_active hn ha, if_neg (mt (bufEmpty_iff s).1 hne), bufFront, memRead_of_lt hh, reply]

end

/-- Settles O39: the empty and the non-empty case of `READ`. -/
theorem readPopsOldest : Obligations.ReadPopsOldest :=
  fun _ _ hn ha => ⟨execRead_of_empty hn ha, execRead_of_nonempty hn ha⟩

/-- Settles O40: the empty and the non-empty case of `PEEK`. -/
theorem peekLeavesOldest : Obligations.PeekLeavesOldest :=
  fun _ _ hn ha => ⟨execPeek_of_empty hn ha, execPeek_of_nonempty hn ha⟩

/-- Settles O41: the response is `bufCount`, which is below `CAP`. -/
theorem availCounts : Obligations.AvailCounts :=
  fun s _ hn ha => ⟨execAvail_of_active hn ha, bufCount_le s⟩

/-! ### The order of the bytes (rules R42, R43) -/

/-- A push at a full buffer drops its byte. -/
theorem bufPush_of_full {s : State} (hf : bufFull s = true) (n : Nat) (v : Byte) :
    bufPush n v s = .next (modifyInst n Inst.setOverflow s) := if_pos hf

theorem bufPush_of_room {s : State} (hf : bufFull s = false) (ht : s.tail < s.cfg.cap) (n : Nat) (v : Byte) :
    bufPush n v s = .next { s with
      buf := Memory.write s.buf s.tail v, tail := nextIndex s.cfg s.tail, stored := s.stored + 1 } := by
  rw [bufPush, if_neg (Bool.eq_false_iff.1 hf), memWrite, if_pos ht, andThen_next]

/-- Advancing `head` over a buffer that is not empty takes the first unread byte away. -/
theorem unread_pop {s : State} (hh : s.head < s.cfg.cap) (ht : s.tail < s.cfg.cap) (hne : s.head ≠ s.tail) :
    unread s = Memory.read s.buf s.head :: unread { s with head := nextIndex s.cfg s.head } := by
  have hcount : bufCount s = bufCount { s with head := nextIndex s.cfg s.head } + 1 := ringCount_head hh ht hne
  have hslot (j : Nat) : (s.head + (j + 1)) % s.cfg.cap = (nextIndex s.cfg s.head + j) % s.cfg.cap := by
    rw [nextIndex, Nat.mod_add_mod, Nat.add_assoc, Nat.add_comm 1 j]
  rw [unread, hcount, List.range_succ_eq_map, List.map_cons, List.map_map, Nat.add_zero, Nat.mod_eq_of_lt hh]
  exact congrArg _ (List.map_congr_left fun j _ => congrArg (Memory.read s.buf) (hslot j))

/-- Settles O46: a push with room and a read by what they do to the unread bytes; a push without room leaves the buffer
and both indices. -/
theorem bytesComeOutInOrder : Obligations.BytesComeOutInOrder := by
  intro s hs
  refine ⟨fun n v hf => ?_, fun n v r hf hr => ?_, fun n hn ha hne => ?_⟩
  · exact ⟨_, bufPush_of_room hf hs.tail_lt n v, unread_push hs hf v⟩
  · refine ⟨_, bufPush_of_full hf n v, rfl, ?_⟩
    rw [modifyInst_insts, List.getElem?_modify_eq, hr]
    rfl
  · exact ⟨_, _, execRead_of_nonempty hn ha hne hs.head_lt, rfl, unread_pop hs.head_lt hs.tail_lt hne⟩

/-! ### A decoding handler run (rules R103 to R109) -/

theorem startLevel_of_normal {t : Strap} (h : t.inverse = false) : startLevel t = .L := by simp [startLevel, h]
theorem startLevel_of_inverse {t : Strap} (h : t.inverse = true) : startLevel t = .H := by simp [startLevel, h]
theorem polarity_of_normal {t : Strap} (h : t.inverse = false) (d : Byte) : polarity t d = d := by simp [polarity, h]
theorem polarity_of_inverse {t : Strap} (h : t.inverse = true) (d : Byte) : polarity t d = ~~~d := by
  simp [polarity, h]

/-- Settles O50: the closed form of a run that finds a free slot, in either polarity. -/
theorem decodingRunStores : Obligations.DecodingRunStores := by
  intro s r cells hr ht hf
  refine ⟨fun hp => ?_, fun hp => ?_⟩
  · have hrun := runHandler_stored hr (startLevel_of_normal hp).symm cells hf ht
    rwa [atStore, polarity_of_normal hp] at hrun
  · have hrun := runHandler_stored hr (startLevel_of_inverse hp).symm cells hf ht
    rwa [atStore, polarity_of_inverse hp] at hrun

/-- Settles O51: the closed form of a run that finds the buffer full, in either polarity. -/
theorem decodingRunOverflows : Obligations.DecodingRunOverflows := by
  intro s r cells hr hf
  refine ⟨fun hp => ?_, fun hp => ?_⟩
  · have hrun := runHandler_full hr (startLevel_of_normal hp).symm cells hf
    rwa [atStore, polarity_of_normal hp] at hrun
  · have hrun := runHandler_full hr (startLevel_of_inverse hp).symm cells hf
    rwa [atStore, polarity_of_inverse hp] at hrun

end Sys2Proof.Machine
end

section
/-! PROOFS. The encodings (30_encoding.md): the fields of a command word, the decoder row by row, the cells of a frame,
a word that is refused, and the words of the response port. -/

namespace Sys2Proof

/-! ### The fields of a command word (rule R71) -/

section
variable (op : BitVec 4) (n : Nat) (x : BitVec 32)

theorem commandWord_toNat : (commandWord op n x).toNat = (op.toNat * 2 ^ 4 + n % 2 ^ 4) * 2 ^ 32 + x.toNat := by
  rw [commandWord, BitVec.toNat_append, BitVec.toNat_append, BitVec.toNat_ofNat,
    ← Nat.shiftLeft_add_eq_or_of_lt (Nat.mod_lt n (by decide)), ← Nat.shiftLeft_add_eq_or_of_lt x.isLt,
    Nat.shiftLeft_eq, Nat.shiftLeft_eq]

@[simp] theorem opcodeField_commandWord : opcodeField (commandWord op n x) = op := by
  apply BitVec.eq_of_toNat_eq
  rw [opcodeField, BitVec.extractLsb'_toNat, commandWord_toNat, Nat.shiftRight_eq_div_pow]
  omega

theorem instField_commandWord {n : Nat} (h : n < 16) : instField (commandWord op n x) = n := by
  rw [instField, BitVec.extractLsb'_toNat, commandWord_toNat, Nat.shiftRight_eq_div_pow]
  omega

@[simp] theorem operandField_commandWord : operandField (commandWord op n x) = x := by
  apply BitVec.eq_of_toNat_eq
  rw [operandField, BitVec.extractLsb'_toNat, commandWord_toNat, Nat.shiftRight_eq_div_pow]
  omega

end

/-- The byte of a `WRITE` is the low byte of the operand (rule R73). -/
theorem byteField_eq (w : CommandWord) : byteField w = (operandField w).setWidth 8 := by
  apply BitVec.eq_of_toNat_eq
  simp only [byteField, operandField, BitVec.extractLsb'_toNat, BitVec.toNat_setWidth]
  omega

/-- A command word is its three fields. -/
theorem commandWord_fields (w : CommandWord) : commandWord (opcodeField w) (instField w) (operandField w) = w := by
  apply BitVec.eq_of_toNat_eq
  have hw := w.isLt
  rw [commandWord_toNat]
  simp only [opcodeField, instField, operandField, BitVec.extractLsb'_toNat, Nat.shiftRight_eq_div_pow]
  omega

/-- Under the mask only the opcode is left of a word (rule R72). -/
theorem masked_eq_opcodeField (w : CommandWord) : w &&& 0xF000000000#40 = opcodeField w ++ 0#36 := by
  simpa only [commandWord_fields] using commandWord_masked (opcodeField w) (instField w) (operandField w)

/-- A word whose masked value is that of an opcode has that opcode. -/
theorem opcodeField_of_masked {w : CommandWord} {op : BitVec 4} (h : w &&& 0xF000000000#40 = op ++ 0#36) :
    opcodeField w = op :=
  (BitVec.append_left_inj 0#36).1 ((masked_eq_opcodeField w).symm.trans h)

/-- The opcodes with masked word 0 or `0xB000000000` and up are the reserved ones (rule R77). -/
theorem reserved_of_masked :
    ∀ op : BitVec 4, op ++ 0#36 = 0 ∨ 0xB000000000#40 ≤ op ++ 0#36 → op = 0x0 ∨ 0xB ≤ op := by decide

theorem instField_eq_shift_and (w : CommandWord) : ((w >>> 32) &&& 0xF#40).toNat = instField w := by
  rw [BitVec.toNat_and, BitVec.toNat_ushiftRight, instField, BitVec.extractLsb'_toNat]
  exact Nat.and_two_pow_sub_one_eq_mod _ 4

theorem operandField_eq_and (w : CommandWord) : (w &&& 0xFFFFFFFF#40).setWidth 32 = operandField w := by
  apply BitVec.eq_of_toNat_eq
  have hand : w.toNat &&& 0xFFFFFFFF = w.toNat % 2 ^ 32 := Nat.and_two_pow_sub_one_eq_mod _ 32
  rw [BitVec.toNat_setWidth, BitVec.toNat_and, operandField, BitVec.extractLsb'_toNat]
  exact (congrArg (· % 2 ^ 32) hand).trans (Nat.mod_mod ..)

/-- `bits[39:32]` hold the opcode and the instance. -/
theorem opcodeField_instField_of_high {w w' : CommandWord} (h : w.extractLsb' 32 8 = w'.extractLsb' 32 8) :
    opcodeField w = opcodeField w' ∧ instField w = instField w' := by
  have hnat := congrArg BitVec.toNat h
  simp only [BitVec.extractLsb'_toNat, Nat.shiftRight_eq_div_pow] at hnat
  constructor
  · apply BitVec.eq_of_toNat_eq
    simp only [opcodeField, BitVec.extractLsb'_toNat, Nat.shiftRight_eq_div_pow]
    omega
  · simp only [instField, BitVec.extractLsb'_toNat, Nat.shiftRight_eq_div_pow]
    omega

/-! ### The decoder of command words, row by row (rules R72, R77) -/

section
variable {w : CommandWord}

theorem decodeCommand_configure (h : opcodeField w = 0x1) :
    decodeCommand w = .ok (.configure (instField w) (operandField w)) := by rw [decodeCommand, h]; rfl
theorem decodeCommand_shutdown (h : opcodeField w = 0x2) : decodeCommand w = .ok (.shutdown (instField w)) := by
  rw [decodeCommand, h]; rfl
theorem decodeCommand_listen (h : opcodeField w = 0x3) : decodeCommand w = .ok (.listen (instField w)) := by
  rw [decodeCommand, h]; rfl
theorem decodeCommand_islisten (h : opcodeField w = 0x4) : decodeCommand w = .ok (.islisten (instField w)) := by
  rw [decodeCommand, h]; rfl
theorem decodeCommand_read (h : opcodeField w = 0x5) : decodeCommand w = .ok (.read (instField w)) := by
  rw [decodeCommand, h]; rfl
theorem decodeCommand_peek (h : opcodeField w = 0x6) : decodeCommand w = .ok (.peek (instField w)) := by
  rw [decodeCommand, h]; rfl
theorem decodeCommand_avail (h : opcodeField w = 0x7) : decodeCommand w = .ok (.avail (instField w)) := by
  rw [decodeCommand, h]; rfl
theorem decodeCommand_write (h : opcodeField w = 0x8) :
    decodeCommand w = .ok (.write (instField w) (byteField w)) := by rw [decodeCommand, h]; rfl
theorem decodeCommand_flush (h : opcodeField w = 0x9) : decodeCommand w = .ok (.flush (instField w)) := by
  rw [decodeCommand, h]; rfl
theorem decodeCommand_status (h : opcodeField w = 0xA) : decodeCommand w = .ok (.status (instField w)) := by
  rw [decodeCommand, h]; rfl

theorem decodeCommand_reserved (h : opcodeField w = 0x0 ∨ 0xB ≤ opcodeField w) :
    decodeCommand w = .error (.reservedOpcode (opcodeField w)) := by
  unfold decodeCommand
  split
  case h_11 => rfl
  all_goals
    rename_i hop
    rcases h with h | h
    · rw [h] at hop
      contradiction
    · rw [BitVec.le_def, hop] at h
      contradiction

/-- What a command word decodes to is addressed to its `inst` field. -/
theorem decodeCommand_target_eq {i : Instr} (h : decodeCommand w = .ok i) : i.target = some (instField w) := by
  unfold decodeCommand at h
  split at h <;> cases h <;> rfl

/-- Decoding looks at the opcode and the instance; only `CONFIGURE` looks at the whole operand, and only `WRITE` at its
low byte (rules R73, R78). -/
theorem decodeCommand_congr {w' : CommandWord} (hop : opcodeField w = opcodeField w')
    (hinst : instField w = instField w') (hbaud : opcodeField w = 0x1 → operandField w = operandField w')
    (hbyte : opcodeField w = 0x8 → byteField w = byteField w') : decodeCommand w = decodeCommand w' := by
  unfold decodeCommand
  rw [← hop, ← hinst]
  split
  case h_1 h => rw [hbaud (BitVec.eq_of_toNat_eq h)]
  case h_8 h => rw [hbyte (BitVec.eq_of_toNat_eq h)]
  all_goals rfl

end

/-! ### The decoder of frames (rule R60) -/

section
variable {w : FrameWord}

theorem decodeFrame_of_low_start (hstart : w.getLsbD 9 = false) (hstop : w.getLsbD 0 = true) :
    decodeFrame w = .ok (.rxisr (dataCells w)) := by simp only [decodeFrame, hstart, hstop]

theorem decodeFrame_of_high_start (hstart : w.getLsbD 9 = true) (hstop : w.getLsbD 0 = false) :
    decodeFrame w = .ok (.rxisrInv (dataCells w)) := by simp only [decodeFrame, hstart, hstop]

end

/-- Data cell `k` is bit `8 - k` of the frame word. -/
theorem dataCells_getLsbD (w : FrameWord) {k : Nat} (hk : k < 8) : (dataCells w).getLsbD k = w.getLsbD (8 - k) := by
  simp only [dataCells, BitVec.getLsbD_append, BitVec.getLsbD_ofBool]
  interval_cases k <;> simp

/-! ### Decoding, from the rows -/

/-- Settles O1: the row of each word, its fields by evaluation. -/
theorem specWordsDecode : Obligations.SpecWordsDecode :=
  ⟨decodeCommand_configure (w := 0x1000002580) rfl, decodeCommand_configure (w := 0x110001C200) rfl,
    decodeCommand_listen (w := 0x3100000000) rfl, decodeCommand_write (w := 0x8000000141) rfl,
    decodeCommand_read (w := 0x50DEADBEEF) rfl, decodeCommand_reserved (w := 0xB000000000) (.inr (by decide)),
    decodeFrame_of_low_start (w := 0b0100000101) rfl rfl, decodeFrame_of_high_start (w := 0b1011111010) rfl rfl⟩

/-- Settles O2: a command word decodes by its row to the fields it was put together from, a frame word to its data
cells. -/
theorem decodeOfEncode : Obligations.DecodeOfEncode := by
  intro ninst i hwf
  have henc : i.encodable = true := (Bool.and_eq_true_iff.1 hwf).1
  have hinst (op : BitVec 4) (x : BitVec 32) {n : Nat} (h : decide (n < 16) = true) :
      instField (commandWord op n x) = n := instField_commandWord op x (of_decide_eq_true h)
  cases i with
  | configure n baud =>
    refine (decodeCommand_configure (opcodeField_commandWord ..)).trans ?_
    rw [hinst _ _ henc, operandField_commandWord]
  | write n b =>
    refine (decodeCommand_write (opcodeField_commandWord ..)).trans ?_
    rw [hinst _ _ henc, byteField_eq, operandField_commandWord, BitVec.setWidth_setWidth_of_le _ (by decide),
      BitVec.setWidth_eq]
  | shutdown n => exact (decodeCommand_shutdown (opcodeField_commandWord ..)).trans (by rw [hinst _ _ henc])
  | listen n => exact (decodeCommand_listen (opcodeField_commandWord ..)).trans (by rw [hinst _ _ henc])
  | islisten n => exact (decodeCommand_islisten (opcodeField_commandWord ..)).trans (by rw [hinst _ _ henc])
  | read n => exact (decodeCommand_read (opcodeField_commandWord ..)).trans (by rw [hinst _ _ henc])
  | peek n => exact (decodeCommand_peek (opcodeField_commandWord ..)).trans (by rw [hinst _ _ henc])
  | avail n => exact (decodeCommand_avail (opcodeField_commandWord ..)).trans (by rw [hinst _ _ henc])
  | flush n => exact (decodeCommand_flush (opcodeField_commandWord ..)).trans (by rw [hinst _ _ henc])
  | status n => exact (decodeCommand_status (opcodeField_commandWord ..)).trans (by rw [hinst _ _ henc])
  | rxisr cells =>
    exact (decodeFrame_of_low_start (frameWord_start ..) (frameWord_stop ..)).trans (by rw [dataCells_frameWord])
  | rxisrInv cells =>
    exact (decodeFrame_of_high_start (frameWord_start ..) (frameWord_stop ..)).trans (by rw [dataCells_frameWord])

/-- Settles O3: the masked word gives the opcode, and the opcode the row. -/
theorem commandRowsByMatchAndMask : Obligations.CommandRowsByMatchAndMask := by
  intro w
  simp only [instField_eq_shift_and, operandField_eq_and, ← byteField_eq]
  exact ⟨fun h => decodeCommand_configure (opcodeField_of_masked h),
    fun h => decodeCommand_shutdown (opcodeField_of_masked h),
    fun h => decodeCommand_listen (opcodeField_of_masked h),
    fun h => decodeCommand_islisten (opcodeField_of_masked h),
    fun h => decodeCommand_read (opcodeField_of_masked h),
    fun h => decodeCommand_peek (opcodeField_of_masked h),
    fun h => decodeCommand_avail (opcodeField_of_masked h),
    fun h => decodeCommand_write (opcodeField_of_masked h),
    fun h => decodeCommand_flush (opcodeField_of_masked h),
    fun h => decodeCommand_status (opcodeField_of_masked h),
    fun h => decodeCommand_reserved (reserved_of_masked _ (masked_eq_opcodeField w ▸ h))⟩

/-- Settles O4: the decoder looks at the operand bits of `CONFIGURE` and at the low byte of `WRITE` alone. -/
theorem unusedOperandBitsIgnored : Obligations.UnusedOperandBitsIgnored := by
  intro w w' h
  obtain ⟨hop, hinst⟩ := opcodeField_instField_of_high h
  refine ⟨fun ⟨hconf, hwrite⟩ => ?_, fun hwrite hbyte => ?_⟩
  · exact decodeCommand_congr hop hinst (absurd · hconf) (absurd · hwrite)
  · refine decodeCommand_congr hop hinst (fun hconf => ?_) fun _ => hbyte
    exact absurd (hconf.symm.trans hwrite) (by decide)

namespace Machine

/-! ### The frame of a byte (rules R60 to R62) -/

/-- A data cell carries the bit of the byte, complemented under inverse logic. -/
theorem bitLevel_toBool (t : Strap) (b : Byte) {k : Nat} (hk : k < 8) :
    (bitLevel t (b.getLsbD k)).toBool = (polarity t b).getLsbD k := by
  cases ht : t.inverse <;> simp [bitLevel, polarity, ht, hk]

theorem frameCell_data (t : Strap) (b : Byte) {k : Nat} (hk : k < 8) :
    frameCell t b (k + 1) = bitLevel t (b.getLsbD k) := by
  rw [frameCell, if_neg (Nat.succ_ne_zero k), if_pos (Nat.succ_le_of_lt hk), Nat.add_sub_cancel]

/-- The data cells of ten levels that are the frame of a byte. -/
theorem dataCells_of_frameCells {t : Strap} {b : Byte} {w : FrameWord}
    (h : ∀ j, j < 10 → w.getLsbD (9 - j) = (frameCell t b j).toBool) : dataCells w = polarity t b := by
  apply BitVec.eq_of_getLsbD_eq
  intro k hk
  calc (dataCells w).getLsbD k
      = w.getLsbD (9 - (k + 1)) := by rw [dataCells_getLsbD w hk, Nat.add_sub_add_right 8 1 k]
    _ = (frameCell t b (k + 1)).toBool := h (k + 1) (by omega)
    _ = (polarity t b).getLsbD k := by rw [frameCell_data t b hk, bitLevel_toBool t b hk]

/-- Settles O6: the start and the stop cell select the row, and the data cells are the byte in the strap's polarity. -/
theorem frameDecodesByPolarity : Obligations.FrameDecodesByPolarity := by
  intro t b w h
  have hstart : w.getLsbD 9 = (startLevel t).toBool := h 0 (by decide)
  have hstop : w.getLsbD 0 = (startLevel t).flip.toBool := h 9 (by decide)
  have hdata := dataCells_of_frameCells h
  cases ht : t.inverse with
  | false =>
    rw [startLevel_of_normal ht] at hstart hstop
    rw [polarity_of_normal ht] at hdata
    rw [decode, decodeFrame_of_low_start hstart hstop, hdata]
    rfl
  | true =>
    rw [startLevel_of_inverse ht] at hstart hstop
    rw [polarity_of_inverse ht] at hdata
    rw [decode, decodeFrame_of_high_start hstart hstop, hdata]
    rfl

/-! ### A word that is refused (rule R77) -/

theorem withPort_of_absent {n : Nat} {s : State} (h : ninst s ≤ n) (k : Inst → Result) :
    withPort n s k = .refused (.noSuchPort n) := by
  rw [withPort, List.getElem?_eq_none h]

/-- Every operation looks its instance up first. -/
theorem exec_of_absent {i : Instr} {n : Nat} {s : State} (ht : i.target = some n) (hn : ninst s ≤ n) :
    exec i s = .refused (.noSuchPort n) := by
  cases i <;> cases ht <;> exact withPort_of_absent hn _

/-- Settles O5: a reserved opcode does not decode, and what any other word decodes to looks up an instance that is not
there. -/
theorem undecodableCommandRefused : Obligations.UndecodableCommandRefused := by
  intro s c rest hcfg hc hr hs hdue hbad
  have hmove : nextMove s = runDecoded (decodeCommand c.word) { s with script := rest, rsp := none } := by
    rw [nextMove_of_takesCommand hcfg hc hr, hostMove_of_due hs hdue]
  rw [step, hmove]
  cases hd : decodeCommand c.word with
  | error e => exact ⟨_, rfl⟩
  | ok i =>
    have habsent : ninst s ≤ instField c.word := by
      rcases hbad with hop | hop | hinst
      · exact absurd (hd.symm.trans (decodeCommand_reserved (.inl hop))) nofun
      · exact absurd (hd.symm.trans (decodeCommand_reserved (.inr hop))) nofun
      · exact hinst
    exact ⟨_, exec_of_absent (decodeCommand_target_eq hd) habsent⟩

/-! ### The response port (rules R74, R75, R168) -/

/-- The status word's bits, from bit 0 up; above them it is 0 (rule R75). -/
theorem statusWord_getLsbD (a : Option Nat) (n : Nat) (r : Inst) (k : Nat) :
    (statusWord a n r).getLsbD k =
      [a == some n, r.overflow, r.writeError, r.profile.rxStopbit != 0, r.profile.txDelay != 0].getD k false := by
  have hword : statusWord a n r = (((((0#27).concat (r.profile.txDelay != 0)).concat (r.profile.rxStopbit != 0)).concat
    r.writeError).concat r.overflow).concat (a == some n) := rfl
  rw [hword]
  match k with
  | 0 | 1 | 2 | 3 | 4 => simp only [BitVec.getLsbD_concat_succ, BitVec.getLsbD_concat_zero]; rfl
  | k + 5 => simp only [BitVec.getLsbD_concat_succ, BitVec.getLsbD_zero]; rfl

/-- Settles O44: the word is `statusWord`, bit by bit. -/
theorem statusWordBits : Obligations.StatusWordBits := by
  intro s n r hr
  have hbit (k : Nat) := statusWord_getLsbD s.active n r k
  refine ⟨statusWord s.active n r, withPort_of hr _, ?_, hbit 1, hbit 2, ?_, ?_, fun k hk => ?_⟩
  · exact (Bool.eq_iff_iff.1 (hbit 0)).trans beq_iff_eq
  · exact (Bool.eq_iff_iff.1 (hbit 3)).trans bne_iff_ne
  · exact (Bool.eq_iff_iff.1 (hbit 4)).trans bne_iff_ne
  · exact (hbit k).trans (List.getD_eq_default _ _ hk)

theorem byte_word_toNat (v : Byte) : (Response.byte v).word.toNat = v.toNat :=
  BitVec.toNat_setWidth_of_le (by decide)

/-- Settles O45: a byte is below 256, and `NoData` is not. -/
theorem responsePatterns : Obligations.ResponsePatterns := by
  refine ⟨rfl, rfl, rfl, rfl, fun v => ⟨byte_word_toNat v, fun h => ?_⟩, fun n hn => ?_, fun _ => rfl⟩
  · have hv : v.toNat = 0xFFFFFFFF := (byte_word_toNat v).symm.trans (congrArg BitVec.toNat h)
    exact absurd v.isLt (by omega)
  · exact (BitVec.toNat_ofNat n 32).trans (Nat.mod_eq_of_lt hn)

end Machine

end Sys2Proof
end

section
/-! PROOFS. Time and operands: durations, the start-bit count and the baud lookup (40_timing_and_delay.md rules R86,
R87, R90, R94), and a foreground delay in which no interrupt becomes ready (rule R91). -/

namespace Sys2Proof.Machine

open Sys2Proof

/-! ### Operands -/

theorem delayCycles_zero (c : Config) : delayCycles c 0 = c.delayZero := rfl

/-- Settles O27: a count is 0 exactly when its value is. -/
theorem delayDuration : Obligations.DelayDuration := by
  intro c n
  refine ⟨fun hpos => delayCycles_of_ne_zero ?_, fun hzero => ?_⟩
  · rintro rfl
    exact absurd hpos (by decide)
  · obtain rfl : n = 0 := BitVec.eq_of_toNat_eq hzero
    exact delayCycles_zero c

/-- Settles O29: the pattern of an integer is its value modulo `2 ^ 16`, which is not negative. -/
theorem startCountWraps : Obligations.StartCountWraps := by
  intro c p
  rw [startCount, BitVec.toNat_ofInt]
  exact Int.toNat_of_nonneg (Int.emod_nonneg _ (by decide))

theorem lookupBaud_of_find {c : Config} {baud : BitVec 32} {r : Row}
    (h : c.table.find? (fun r => r.baud == baud) = some r) : lookupBaud c baud = r.profile := by
  rw [lookupBaud, h]

theorem lookupBaud_of_absent {c : Config} {baud : BitVec 32}
    (h : c.table.find? (fun r => r.baud == baud) = none) : lookupBaud c baud = Profile.zero := by
  rw [lookupBaud, h]

/-- Settles O30: `find?` stops at the first row with this baud. -/
theorem lookupIsExactFirstRow : Obligations.LookupIsExactFirstRow := by
  intro c baud
  refine ⟨fun before r after htable hr hbefore => ?_, fun habsent => ?_⟩
  · exact lookupBaud_of_find (List.find?_eq_some_iff_append.2
      ⟨beq_iff_eq.2 hr, before, after, htable, fun q hq => bne_iff_ne.2 (hbefore q hq)⟩)
  · exact lookupBaud_of_absent (List.find?_eq_none.2 fun q hq => mt beq_iff_eq.1 (habsent q hq))

/-! ### Time on quiet lines -/

/-- A part of an interval without edges has none. -/
theorem Wave.edgeWithin_mono {w : Wave} {a b c : Nat} (hab : a ≤ b) (hbc : b ≤ c) (h : w.edgeWithin a c = false) :
    w.edgeWithin a b = false := by
  rw [Wave.edgeWithin_append w hab hbc, Bool.or_eq_false_iff] at h
  exact h.1

theorem latch_of_no_edge {s : State} {a b : Nat} {x : SourceId}
    (h : (waveOf s (s.cfg.srcPin x)).edgeWithin a b = false) (i : IntSource) : latch s a b x i = i := by
  rw [latch, h, Bool.or_false]

/-- Without an edge on a receive line only `now` moves (rule R187). -/
theorem advance_of_no_edge {s : State} {n : Nat}
    (h : ∀ x, (waveOf s (s.cfg.srcPin x)).edgeWithin s.now (s.now + n) = false) :
    advance n s = { s with now := s.now + n } := by
  rw [advance, latch_of_no_edge (h .s0), latch_of_no_edge (h .s1)]

theorem source_advance_pending (n : Nat) (s : State) (x : SourceId) :
    (source (advance n s) x).pending =
      ((source s x).pending || (waveOf s (s.cfg.srcPin x)).edgeWithin s.now (s.now + n)) := by
  cases x <;> rfl

theorem source_advance_enable (n : Nat) (s : State) (x : SourceId) :
    (source (advance n s) x).enable = (source s x).enable := by
  cases x <;> rfl

/-- The enabled sources have no latch set and no edge for the `n` cycles to come, or `gie` is 0. -/
def Undisturbed (n : Nat) (s : State) : Prop :=
  s.gie = true → ∀ x, (source s x).enable = true →
    (source s x).pending = false ∧ (waveOf s (s.cfg.srcPin x)).edgeWithin s.now (s.now + n) = false

/-- Then no interrupt is ready in that time. -/
theorem ready_none_of_undisturbed {n d : Nat} {s : State} (h : Undisturbed n s) (hd : d ≤ n) :
    ready (advance d s) = none := by
  have hquiet (x : SourceId) : fires (advance d s) x = false := by
    rw [Bool.eq_false_iff, Ne, fires_iff, source_advance_enable, source_advance_pending]
    rintro ⟨hgie, hen, hpend, _⟩
    obtain ⟨hlatch, hedge⟩ := h hgie x hen
    rw [hlatch, Wave.edgeWithin_mono (Nat.le_add_right _ _) (Nat.add_le_add_left hd _) hedge] at hpend
    cases hpend
  exact (ready_none_iff _).2 ⟨hquiet .s0, hquiet .s1⟩

theorem passTime_add (m n : Nat) (s : State) : passTime n (passTime m s) = passTime (m + n) s := by
  rw [passTime, passTime, passTime, ← advance_add, ← Nat.sub_sub]
  rfl

/-- Some of the cycles of the foreground delay of `s` have passed in `u`, and nothing else. -/
def PassedWithin (s u : State) : Prop := ∃ d, d ≤ s.fgWait ∧ u = passTime d s

theorem PassedWithin.refl (s : State) : PassedWithin s s :=
  ⟨0, Nat.zero_le _, by rw [passTime, advance_zero]; rfl⟩

/-- A foreground delay that nothing disturbs lets exactly its counter's cycles pass, and ends (rule R91). -/
theorem fgDelay_undisturbed {s : State} (h : Undisturbed s.fgWait s) :
    fgDelay s = .next { advance s.fgWait s with fgWait := 0 } ∧
      delayOver { advance s.fgWait s with fgWait := 0 } = true := by
  have htime (u : State) (m : Nat) (hu : PassedWithin s u) (_ : 1 ≤ m) (hm : m ≤ u.fgWait) :
      PassedWithin s (passTime m u) := by
    obtain ⟨d, hd, rfl⟩ := hu
    exact ⟨d + m, Nat.add_le_of_le_sub' hd hm, passTime_add d m s⟩
  have hnone (u : State) (hu : PassedWithin s u) : ready u = none := by
    obtain ⟨d, hd, rfl⟩ := hu
    exact ready_none_of_undisturbed h hd
  obtain ⟨t, ht, ⟨d, hd, rfl⟩, hover⟩ := fgDelay_quiet htime hnone (.refl s)
  have hend : s.fgWait - d = 0 := ((delayOver_iff _).1 hover).1
  obtain rfl : d = s.fgWait := by omega
  rw [passTime, Nat.sub_self] at ht hover
  exact ⟨ht, hover⟩

end Sys2Proof.Machine
end

section
/-! PROOFS. `CONFIGURE` (42_listen_and_lifecycle.md rules R124 to R127): its last part, a row that is not viable, and a
settle delay that nothing disturbs. -/

namespace Sys2Proof.Machine

open Sys2Proof

/-! ### The last part (rule R127) -/

theorem finishConfigure_eq {n : Nat} {s : State} (hn : n < ninst s) :
    finishConfigure n s = .next { takeOver n { s with cfgPhase := .idle } with rsp := some .done } :=
  withInst_of (List.getElem?_eq_getElem hn) _

theorem finishConfigure_of_owner {n : Nat} {s : State} (hn : n < ninst s) (ha : s.active = some n) :
    finishConfigure n s = .next { s with cfgPhase := .idle, rsp := some .done } := by
  obtain ⟨_, heq⟩ | ⟨hother, _⟩ := takeOver_cases n { s with cfgPhase := .idle }
  · rw [finishConfigure_eq hn, heq]
  · exact absurd ha hother

theorem finishConfigure_of_other {n : Nat} {s : State} (hn : n < ninst s) (ha : s.active ≠ some n) :
    finishConfigure n s = .next { s with
      insts := s.insts.modify n Inst.clearOverflow
      head := 0, tail := 0, stored := 0, active := some n, cfgPhase := .idle, rsp := some .done } := by
  obtain ⟨howner, _⟩ | ⟨_, heq⟩ := takeOver_cases n { s with cfgPhase := .idle }
  · exact absurd howner ha
  · rw [finishConfigure_eq hn, heq]
    rfl

theorem ninst_setProfile (n : Nat) (p : Profile) (s : State) : ninst (setProfile n p s) = ninst s :=
  List.length_modify ..

/-! ### The two kinds of row (rules R86, R125) -/

/-- The state in which a viable `CONFIGURE` begins its settle delay. -/
def atSettle (n : Nat) (r : Inst) (p : Profile) (s : State) : State :=
  beginSettle n r.strap.rxSrc p (setProfile n p s)

/-- What the first part of a viable `CONFIGURE` has written (rules R86, R126). -/
theorem atSettle_eq (n : Nat) (r : Inst) (p : Profile) (s : State) :
    atSettle n r p s = { s with
      insts := s.insts.modify n fun q => { q with profile := p }
      src0 := if r.strap.rxSrc = .s0 then ⟨true, .anyEdge, s.src0.pending⟩ else s.src0
      src1 := if r.strap.rxSrc = .s1 then ⟨true, .anyEdge, s.src1.pending⟩ else s.src1
      gie := true, cfgInst := n, cfgPhase := .settle, fgWait := delayCycles s.cfg p.txDelay } := by
  rw [atSettle, beginSettle]
  cases r.strap.rxSrc <;> rfl

theorem execConfigure_eq {n : Nat} {s : State} {r : Inst} (baud : BitVec 32) (hr : s.insts[n]? = some r) :
    execConfigure n baud s =
      if rxViable (lookupBaud s.cfg baud) then
        afterDelay (fun u => finishConfigure u.cfgInst u) (atSettle n r (lookupBaud s.cfg baud) s)
      else finishConfigure n (setProfile n (lookupBaud s.cfg baud) s) :=
  withPort_of hr _

theorem rxViable_iff (p : Profile) : rxViable p = true ↔ p.rxStopbit ≠ 0 := bne_iff_ne

theorem execConfigure_of_viable {n : Nat} {s : State} {r : Inst} {baud : BitVec 32} (hr : s.insts[n]? = some r)
    (hp : (lookupBaud s.cfg baud).rxStopbit ≠ 0) :
    execConfigure n baud s =
      afterDelay (fun u => finishConfigure u.cfgInst u) (atSettle n r (lookupBaud s.cfg baud) s) := by
  rw [execConfigure_eq baud hr, if_pos ((rxViable_iff _).2 hp)]

theorem execConfigure_of_not_viable {n : Nat} {s : State} {baud : BitVec 32} (hn : n < ninst s)
    (hp : (lookupBaud s.cfg baud).rxStopbit = 0) :
    execConfigure n baud s = finishConfigure n (setProfile n (lookupBaud s.cfg baud) s) :=
  (execConfigure_eq baud (List.getElem?_eq_getElem hn)).trans
    (if_neg (mt (rxViable_iff _).1 (not_not_intro hp)))

/-- Settles O35: the last part follows the writing of the counts. -/
theorem configureNotViable : Obligations.ConfigureNotViable := by
  intro s n baud hn hp
  have hn' : n < ninst (setProfile n (lookupBaud s.cfg baud) s) := by rwa [ninst_setProfile]
  have hexec := execConfigure_of_not_viable hn hp
  refine ⟨fun ha => hexec.trans (finishConfigure_of_owner hn' ha), fun ha => ?_⟩
  refine (hexec.trans (finishConfigure_of_other hn' ha)).trans ?_
  rw [setProfile_insts, List.modify_modify_eq]
  rfl

/-! ### A settle delay that nothing disturbs -/

theorem atSettle_pending (n : Nat) (r : Inst) (p : Profile) (s : State) (x : SourceId) :
    (source (atSettle n r p s) x).pending = (source s x).pending := by
  rw [atSettle_eq]
  cases x <;> cases r.strap.rxSrc <;> rfl

/-- The state at the end of a settle delay that nothing disturbs. -/
def settled (n : Nat) (r : Inst) (p : Profile) (s : State) : State :=
  { atSettle n r p s with now := s.now + delayCycles s.cfg p.txDelay, fgWait := 0 }

theorem ninst_settled (n : Nat) (r : Inst) (p : Profile) (s : State) : ninst (settled n r p s) = ninst s := by
  rw [settled, atSettle_eq]
  exact List.length_modify ..

theorem settled_active (n : Nat) (r : Inst) (p : Profile) (s : State) : (settled n r p s).active = s.active := by
  rw [settled, atSettle_eq]

theorem settled_cfgInst (n : Nat) (r : Inst) (p : Profile) (s : State) : (settled n r p s).cfgInst = n := by
  rw [settled, atSettle_eq]

/-- With no latch set and no edge for `D(tx_delay)` cycles the settle delay takes exactly those cycles. -/
theorem fgDelay_atSettle_quiet (n : Nat) (r : Inst) {p : Profile} {s : State}
    (hpend : ∀ x, (source s x).pending = false)
    (hedge : ∀ x, (waveOf s (s.cfg.srcPin x)).edgeWithin s.now (s.now + delayCycles s.cfg p.txDelay) = false) :
    fgDelay (atSettle n r p s) = .next (settled n r p s) ∧ delayOver (settled n r p s) = true := by
  have hquiet (x : SourceId) : (waveOf (atSettle n r p s) ((atSettle n r p s).cfg.srcPin x)).edgeWithin
      (atSettle n r p s).now ((atSettle n r p s).now + (atSettle n r p s).fgWait) = false := by
    rw [atSettle_eq]
    exact hedge x
  have hdelay := fgDelay_undisturbed (s := atSettle n r p s)
    fun _ x _ => ⟨(atSettle_pending n r p s x).trans (hpend x), hquiet x⟩
  have hend : { advance (atSettle n r p s).fgWait (atSettle n r p s) with fgWait := 0 } = settled n r p s := by
    rw [advance_of_no_edge hquiet, settled, atSettle_eq]
  rwa [hend] at hdelay

/-- Settles O37: the settle delay takes its `D(tx_delay)` cycles, and the last part follows. -/
theorem configureUndisturbed : Obligations.ConfigureUndisturbed := by
  intro s n r baud p d hr hp hpend0 hpend1 hedge
  have hpend (x : SourceId) : (source s x).pending = false := by
    cases x with
    | s0 => exact hpend0
    | s1 => exact hpend1
  have hn : n < ninst (settled n r p s) := by
    rw [ninst_settled]
    exact (List.getElem?_eq_some_iff.1 hr).1
  obtain ⟨hdelay, hover⟩ := fgDelay_atSettle_quiet n r hpend hedge
  have hexec : exec (.configure n baud) s = finishConfigure n (settled n r p s) := by
    refine (execConfigure_of_viable hr hp).trans ((afterDelay_over hdelay hover).trans ?_)
    rw [settled_cfgInst]
  by_cases ha : s.active = some n
  · rw [hexec, finishConfigure_of_owner hn ((settled_active n r p s).trans ha), settled, atSettle_eq, hpend0, hpend1]
    simp only [ha, if_true]
    rfl
  · rw [hexec, finishConfigure_of_other hn (by rwa [settled_active]), settled, atSettle_eq, hpend0, hpend1]
    simp only [ha, if_false, List.modify_modify_eq]
    rfl

end Sys2Proof.Machine
end

section
/-! PROOFS. A viable `CONFIGURE` whose settle delay may be interrupted (42_listen_and_lifecycle.md rules R124 to R127,
R131): what it writes and leaves alone, and the unread bytes. -/

namespace Sys2Proof.Machine

open Sys2Proof

/-! ### The unread bytes during a foreground delay -/

/-- A handler run only adds to the unread bytes (rules R42, R108). -/
theorem Inv.unread_runHandler {s t : State} (h : Inv s) {c : Level} {cells : Byte}
    (hr : Machine.runHandler c cells s = .next t) : unread s <+: unread t := by
  obtain ⟨r, _, ⟨_, rfl⟩ | ⟨_, _, rfl⟩ | ⟨_, hf, _, rfl⟩⟩ := runHandler_spec hr
  · exact List.prefix_rfl
  · exact List.prefix_rfl
  · exact ⟨[polarity r.strap cells], (unread_push h hf _).symm⟩

theorem Inv.unread_serveInterrupt {s t : State} (h : Inv s) {x : SourceId} (hx : ready s = some x)
    (hs : Machine.serveInterrupt x s = .next t) : unread s <+: unread t := by
  have hentry : unread (Machine.enterHandler x s) = unread s := by simp [unread, bufCount]
  obtain ⟨_, rfl⟩ | ⟨n, r, _, _, hr⟩ := serveInterrupt_spec hx hs
  · rw [hentry]
  · rw [← hentry]
    exact (h.enterHandler hx).unread_runHandler hr

/-- A foreground delay only adds to the unread bytes. -/
theorem Inv.unread_fgDelay {s t : State} (h : Inv s) (hs : Machine.fgDelay s = .next t) : unread s <+: unread t :=
  (fgDelay_induct (P := fun u => Inv u ∧ unread s <+: unread u)
    (fun _ d hu _ _ _ => ⟨hu.1.passTime d, hu.2⟩)
    (fun _ _ _ hu hx ht => ⟨hu.1.serveInterrupt hx ht, hu.2.trans (hu.1.unread_serveInterrupt hx ht)⟩)
    ⟨h, List.prefix_rfl⟩ hs).2

/-! ### What a viable `CONFIGURE` writes and leaves alone -/

theorem profiles_setProfile (n : Nat) (p : Profile) (s : State) :
    profiles (setProfile n p s) = (profiles s).set n p := by
  apply List.ext_getElem?
  intro m
  rw [List.set_eq_modify]
  simp only [profiles_getElem?, setProfile_insts, List.getElem?_modify]
  by_cases hm : n = m <;> cases s.insts[m]? <;> simp [hm]

/-- The write errors of the instances (rule R15). -/
def writeErrors (s : State) : List Bool := s.insts.map Inst.writeError

/-- The overflow flag of an instance (rule R15). -/
def overflowOf (s : State) (m : Nat) : Option Bool := (s.insts[m]?).map Inst.overflow

/-- From `s`, a viable `CONFIGURE` of instance `n` on source `x` with counts `p` has done its first part, and nothing
else has changed but what the rest of it and handler runs may change. -/
structure Configured (s : State) (n : Nat) (x : SourceId) (p : Profile) (t : State) : Prop where
  rxPhase     : t.rxPhase = .idle
  txPhase     : t.txPhase = .idle
  profiles    : profiles t = (profiles s).set n p
  straps      : straps t = straps s
  writeErrors : writeErrors t = writeErrors s
  overflow    : ∀ m, some m ≠ s.active → m ≠ n → overflowOf t m = overflowOf s m
  enabled     : (source t x).enable = true
  sensed      : (source t x).sense = .anyEdge
  otherSource : ∀ y, y ≠ x → (source t y).enable = (source s y).enable ∧ (source t y).sense = (source s y).sense
  gie         : t.gie = true
  cfg         : t.cfg = s.cfg
  pinOut      : t.pinOut = s.pinOut
  wire        : t.wire = s.wire
  txInst      : t.txInst = s.txInst
  txB         : t.txB = s.txB
  txK         : t.txK = s.txK
  txSavedGie  : t.txSavedGie = s.txSavedGie
  script      : t.script = s.script
  lineIn      : t.lineIn = s.lineIn

theorem KeptByHandler.source_eq {s t : State} (h : KeptByHandler s t) (x : SourceId) :
    (source t x).enable = (source s x).enable ∧ (source t x).sense = (source s x).sense := by
  cases x with
  | s0 => exact ⟨h.enable0, h.sense0⟩
  | s1 => exact ⟨h.enable1, h.sense1⟩

theorem KeptByHandler.writeErrors_eq {s t : State} (h : KeptByHandler s t) : writeErrors t = writeErrors s := by
  simpa [Machine.writeErrors, Function.comp_def] using congrArg (List.map fun x => x.2.2) h.insts

theorem writeErrors_modifyInst (n : Nat) (f : Inst → Inst) (s : State) (hf : ∀ r, (f r).writeError = r.writeError) :
    writeErrors (modifyInst n f s) = writeErrors s := by
  apply List.ext_getElem?
  intro m
  simp only [writeErrors, modifyInst_insts, List.getElem?_map, List.getElem?_modify]
  by_cases hm : n = m <;> cases s.insts[m]? <;> simp [hm, hf]

theorem overflowOf_modifyInst_other {n m : Nat} (h : m ≠ n) (f : Inst → Inst) (s : State) :
    overflowOf (modifyInst n f s) m = overflowOf s m := by
  rw [overflowOf, modifyInst_insts, List.getElem?_modify_ne _ _ (Ne.symm h), overflowOf]

/-- The first part of a viable `CONFIGURE` (rules R86, R125). -/
theorem configured_atSettle {s : State} (hc : takesCommand s) (n : Nat) (r : Inst) (p : Profile) :
    Configured s n r.strap.rxSrc p (atSettle n r p s) := by
  obtain ⟨hrx, htx, _⟩ := hc
  rw [atSettle_eq]
  generalize r.strap.rxSrc = x
  exact
    { rxPhase := hrx
      txPhase := htx
      profiles := profiles_setProfile n p s
      straps := straps_modifyInst n (fun q => { q with profile := p }) s fun _ => rfl
      writeErrors := writeErrors_modifyInst n (fun q => { q with profile := p }) s fun _ => rfl
      overflow := fun m _ hm => overflowOf_modifyInst_other hm (fun q => { q with profile := p }) s
      enabled := by cases x <;> rfl
      sensed := by cases x <;> rfl
      otherSource := fun y hy => by
        cases y with
        | s0 => rw [source_s0, if_neg (Ne.symm hy)]; exact ⟨rfl, rfl⟩
        | s1 => rw [source_s1, if_neg (Ne.symm hy)]; exact ⟨rfl, rfl⟩
      gie := rfl, cfg := rfl, pinOut := rfl, wire := rfl, txInst := rfl, txB := rfl, txK := rfl, txSavedGie := rfl
      script := rfl, lineIn := rfl }

/-- A foreground delay keeps it. -/
theorem Configured.fgDelay {s u v : State} {n : Nat} {x : SourceId} {p : Profile} (h : Configured s n x p u)
    (ha : u.active = s.active) (hv : fgDelay u = .next v) : Configured s n x p v := by
  obtain ⟨hkept, _, hidle, hgie, _⟩ := fgDelay_spec h.rxPhase hv
  have hsame := fgDelay_sameOwner hv
  exact
    { rxPhase := hidle
      txPhase := hkept.txPhase.trans h.txPhase
      profiles := hsame.profiles.trans h.profiles
      straps := hsame.straps.trans h.straps
      writeErrors := hkept.writeErrors_eq.trans h.writeErrors
      overflow := fun m hm hne => by
        rw [← h.overflow m hm hne, overflowOf, fgDelay_insts hv (ha ▸ hm), overflowOf]
      enabled := (hkept.source_eq x).1.trans h.enabled
      sensed := (hkept.source_eq x).2.trans h.sensed
      otherSource := fun y hy =>
        ⟨(hkept.source_eq y).1.trans (h.otherSource y hy).1, (hkept.source_eq y).2.trans (h.otherSource y hy).2⟩
      gie := hgie.trans h.gie
      cfg := hkept.cfg.trans h.cfg
      pinOut := hkept.pinOut.trans h.pinOut
      wire := hkept.wire.trans h.wire
      txInst := hkept.txInst.trans h.txInst
      txB := hkept.txB.trans h.txB
      txK := hkept.txK.trans h.txK
      txSavedGie := hkept.txSavedGie.trans h.txSavedGie
      script := hkept.script.trans h.script
      lineIn := hkept.lineIn.trans h.lineIn }

/-- So does the last part by the owner of the buffer (rule R122). -/
theorem Configured.finish_owner {s u : State} {n : Nat} {x : SourceId} {p : Profile} (h : Configured s n x p u) :
    Configured s n x p { u with cfgPhase := .idle, rsp := some .done } :=
  { h with }

/-- And by another instance, which takes the buffer over (rule R121). -/
theorem Configured.finish_other {s u : State} {n : Nat} {x : SourceId} {p : Profile} (h : Configured s n x p u) :
    Configured s n x p { u with
      insts := u.insts.modify n Inst.clearOverflow
      head := 0, tail := 0, stored := 0, active := some n, cfgPhase := .idle, rsp := some .done } :=
  { h with
    profiles := (profiles_modifyInst n Inst.clearOverflow u fun _ => rfl).trans h.profiles
    straps := (straps_modifyInst n Inst.clearOverflow u fun _ => rfl).trans h.straps
    writeErrors := (writeErrors_modifyInst n Inst.clearOverflow u fun _ => rfl).trans h.writeErrors
    overflow := fun m hm hne => (overflowOf_modifyInst_other hne Inst.clearOverflow u).trans (h.overflow m hm hne) }

/-- A `CONFIGURE` of instance `n` begun in `s` with a settle delay of `d` cycles is done in `t`, or on a line that never
comes to rest it is within that delay. -/
def SettleOutcome (s : State) (n d : Nat) (t : State) : Prop :=
  (t.cfgPhase = .idle ∧ t.rsp = some .done ∧ t.active = some n ∧ s.now + d ≤ t.now ∧
    (s.active = some n → t.head = s.head ∧ unread s <+: unread t) ∧
    (s.active ≠ some n → t.head = 0 ∧ t.tail = 0 ∧ overflowOf t n = some false)) ∨
  (linesSteady s = false ∧ t.cfgPhase = .settle ∧ t.cfgInst = n ∧ t.rsp = s.rsp ∧ t.active = s.active ∧
    s.now + d ≤ t.now + t.fgWait ∧ t.head = s.head ∧ unread s <+: unread t)

theorem Inv.atSettle {s : State} (h : Inv s) (hc : takesCommand s) {n : Nat} (hn : n < ninst s) (r : Inst)
    (p : Profile) : Inv (atSettle n r p s) :=
  (h.setProfile n p).beginSettle _ p (by rwa [ninst_setProfile]) hc

/-- Every way the settle delay can go, with its last part (rules R126, R127). -/
theorem settle_outcome {s : State} (h : Inv s) (hc : takesCommand s) {n : Nat} (hn : n < ninst s) (r : Inst)
    (p : Profile) :
    ∃ t, afterDelay (fun u => finishConfigure u.cfgInst u) (atSettle n r p s) = .next t ∧
      Configured s n r.strap.rxSrc p t ∧ SettleOutcome s n (delayCycles s.cfg p.txDelay) t := by
  have hInv : Inv (atSettle n r p s) := h.atSettle hc hn r p
  have hconf := configured_atSettle hc n r p
  rw [atSettle_eq] at hInv hconf ⊢
  obtain ⟨u, hu⟩ := hInv.fgDelay_total
  obtain ⟨hkept, _, _, _, htime⟩ := fgDelay_spec hconf.rxPhase hu
  have hconf := hconf.fgDelay rfl hu
  have hunread : unread s <+: unread u := hInv.unread_fgDelay hu
  cases hover : delayOver u with
  | false =>
    have hmoves : linesSteady s = false :=
      Bool.eq_false_iff.2 fun hs => Bool.eq_false_iff.1 hover (fgDelay_ends hu (.inl hs))
    exact ⟨u, afterDelay_open hu hover, hconf,
      .inr ⟨hmoves, hkept.cfgPhase, hkept.cfgInst, hkept.rsp, hkept.active, htime, hkept.head, hunread⟩⟩
  | true =>
    have hcfgInst : u.cfgInst = n := hkept.cfgInst
    have hnu : n < ninst u := hcfgInst ▸ (hInv.fgDelay hu).cfgInst_lt (by rw [hkept.cfgPhase]; exact nofun)
    have hnow : s.now + delayCycles s.cfg p.txDelay ≤ u.now := by
      have hwait : u.fgWait = 0 := ((delayOver_iff u).1 hover).1
      rwa [hwait] at htime
    rw [afterDelay_over hu hover, hcfgInst]
    by_cases ha : s.active = some n
    · have hau : u.active = some n := hkept.active.trans ha
      exact ⟨_, finishConfigure_of_owner hnu hau, hconf.finish_owner,
        .inl ⟨rfl, rfl, hau, hnow, fun _ => ⟨hkept.head, hunread⟩, fun hne => absurd ha hne⟩⟩
    · have hau : u.active ≠ some n := hkept.active.trans_ne ha
      refine ⟨_, finishConfigure_of_other hnu hau, hconf.finish_other,
        .inl ⟨rfl, rfl, rfl, hnow, fun howner => absurd howner ha, fun _ => ⟨rfl, rfl, ?_⟩⟩⟩
      rw [overflowOf, List.getElem?_modify_eq, List.getElem?_eq_getElem hnu]
      rfl

/-- Settles O36: a viable `CONFIGURE` is its settle delay and its last part. -/
theorem configureViable : Obligations.ConfigureViable := by
  intro s n r baud h hc hr hp d
  obtain ⟨t, ht, hconf, hend⟩ :=
    settle_outcome h hc (List.getElem?_eq_some_iff.1 hr).1 r (lookupBaud s.cfg baud)
  exact ⟨t, (execConfigure_of_viable hr hp).trans ht, hconf.rxPhase, hconf.txPhase, hconf.profiles, hconf.straps,
    hconf.writeErrors, hconf.overflow, hconf.enabled, hconf.sensed, hconf.otherSource, hconf.gie, hconf.cfg,
    hconf.pinOut, hconf.wire, hconf.txInst, hconf.txB, hconf.txK, hconf.txSavedGie, hconf.script, hconf.lineIn, hend⟩

end Sys2Proof.Machine
end

section
/-! PROOFS. The receive sampler (41_receive_sampler.md): a step of the waiting handler, a spurious run, what a run
leaves alone, and the twelve phases that a run is. -/

namespace Sys2Proof.Machine

open Sys2Proof

/-! ### The step of a waiting handler (rules R100, R104, R116) -/

/-- The level a run waiting in `R_CHECK` reads first. -/
def checkLevel (s : State) (r : Inst) : Level := (waveOf s (rxPin s r)).levelAt (checkInstant s)

theorem nextMove_of_check {s : State} {r : Inst} {i : Instr} (hcfg : configOk s.cfg (straps s) = true)
    (hp : s.rxPhase = .check) (hr : s.insts[s.rxInst]? = some r) (hi : decodeFrame (fetchFrame s r) = .ok i) :
    nextMove s = .run i s := by
  simp only [nextMove, hcfg, hp, if_true, handlerMove, hr, hi, runDecoded]

/-- Settles O21: a fetched frame decodes, and the next move of a waiting handler is to run it. -/
theorem stepRunsSampledFrame : Obligations.StepRunsSampledFrame := by
  intro s r hcfg hp hr
  have hdec := decodeFrame_fetchFrame s r
  exact ⟨_, hdec, by rw [step, nextMove_of_check hcfg hp hr hdec]⟩

/-- The step of a waiting handler is the handler on the levels its line carries. -/
theorem step_of_check {s : State} {r : Inst} (hcfg : configOk s.cfg (straps s) = true) (hp : s.rxPhase = .check)
    (hr : s.insts[s.rxInst]? = some r) : step s = runHandler (checkLevel s r) (sampledCells s r) s := by
  obtain ⟨i, hdec, hstep⟩ := stepRunsSampledFrame s r hcfg hp hr
  exact hstep.trans (exec_fetchFrame hdec s)

/-! ### A spurious run (rules R102, R191) -/

/-- Settles O49: the level of the row is not the start level of the instance. -/
theorem spuriousRunReturns : Obligations.SpuriousRunReturns := by
  intro s r cells hr
  refine ⟨fun hp => ?_, fun hp => ?_⟩
  · exact runHandler_spurious hr (c := .L) (by rw [startLevel_of_inverse hp]; exact nofun) cells
  · exact runHandler_spurious hr (c := .H) (by rw [startLevel_of_normal hp]; exact nofun) cells

/-! ### What a run leaves alone (rules R100, R110, R172) -/

/-- A run writes no slot but the one `tail` names. -/
theorem runHandler_read_other {s t : State} {c : Level} {cells : Byte} (h : runHandler c cells s = .next t) {a : Nat}
    (ha : a ≠ s.tail) : Memory.read t.buf a = Memory.read s.buf a := by
  obtain ⟨r, _, ⟨_, rfl⟩ | ⟨_, _, rfl⟩ | ⟨_, _, _, rfl⟩⟩ := runHandler_spec h
  · rfl
  · rfl
  · exact Memory.read_write_other s.buf _ ha

/-- A run touches no instance but the one it runs as. -/
theorem runHandler_insts_other {s t : State} {c : Level} {cells : Byte} (h : runHandler c cells s = .next t) {n : Nat}
    (hn : n ≠ s.rxInst) : t.insts[n]? = s.insts[n]? := by
  obtain ⟨r, _, ⟨_, rfl⟩ | ⟨_, _, rfl⟩ | ⟨_, _, _, rfl⟩⟩ := runHandler_spec h
  · rfl
  · exact List.getElem?_modify_ne _ _ hn.symm
  · rfl

/-- Either row is a run of the handler. -/
theorem exec_handlerRow {cells : Byte} {i : Instr} (h : i ∈ [Instr.rxisr cells, .rxisrInv cells]) :
    ∃ c, ∀ s, exec i s = runHandler c cells s := by
  simp only [List.mem_cons, List.not_mem_nil, or_false] at h
  rcases h with rfl | rfl
  · exact ⟨.L, fun _ => rfl⟩
  · exact ⟨.H, fun _ => rfl⟩

/-- Settles O52: the frame of the handler run that either row is. -/
theorem frameOfHandler : Obligations.FrameOfHandler := by
  intro s t cells i hi ht
  obtain ⟨c, hrow⟩ := exec_handlerRow hi
  rw [hrow] at ht
  obtain ⟨hkept, hidle, hgie, _, hinst, _⟩ := runHandler_kept ht
  refine ⟨hkept, hinst, hgie, hidle, fun a => runHandler_read_other ht, fun n => runHandler_insts_other ht, ?_⟩
  intro n r r' hr hr' ho
  obtain ⟨r'', hr'', ho'⟩ := runHandler_overflowLasts ht n r hr ho
  rw [hr', Option.some.injEq] at hr''
  rwa [hr'']

/-! ### The run and its phases (rules R101 to R108, R116) -/

/-- The sampled cells are the levels the samples read. -/
theorem cellLevel_sampledCells (s : State) (r : Inst) {k : Nat} (hk : k < 8) :
    cellLevel (sampledCells s r) k = sampleLevel s r k := by
  rw [cellLevel, ← Level.ofBool_toBool (sampleLevel s r k)]
  congr 1
  interval_cases k <;> (simp only [sampledCells, BitVec.getLsbD_append, BitVec.getLsbD_ofBool]; simp)

/-- A phase within a run reads the line when its own delay ends. -/
theorem rxPhaseStep_rxAt {s : State} {r : Inst} (h : s.insts[s.rxInst]? = some r) (n : Nat) (d : Byte) (k : Fin 8)
    (ph : RxPhase) (w : Nat) :
    rxPhaseStep (rxAt s n d k ph w) =
      rxPhaseWith ((waveOf s (rxPin s r)).levelAt (s.now + (n + w))) (rxAt s n d k ph w) := by
  rw [rxPhaseStep, withInst_rxAt h, isrDelay_rxAt]
  rfl

/-- The phases that read no pin do the same whatever level they are given. -/
theorem rxPhaseWith_unread {s : State} (h : s.rxPhase = .center ∨ s.rxPhase = .stop ∨ s.rxPhase = .store)
    (u v : Level) : rxPhaseWith u s = rxPhaseWith v s := by
  rcases h with h | h | h <;> simp only [rxPhaseWith, h]

/-- Phases that have returned do nothing. -/
theorem repeatStep_rxPhaseStep_idle {s : State} {r : Inst} (h : s.insts[s.rxInst]? = some r) (hp : s.rxPhase = .idle)
    (m : Nat) : repeatStep rxPhaseStep m s = .next s := by
  induction m with
  | zero => rfl
  | succ m ih =>
    have hstep : rxPhaseStep s = .next s := by rw [rxPhaseStep, withInst_of h, rxPhaseWith, hp]
    rw [repeatStep_succ, hstep, andThen_next, ih]

/-- The stop delay and the store read no pin, so they are the same phases on any level. -/
theorem repeatStep_rxPhaseStep_stop {s : State} {r : Inst} (h : s.insts[s.rxInst]? = some r) (n : Nat) (d : Byte)
    (k : Fin 8) (w : Nat) :
    repeatStep rxPhaseStep 2 (rxAt s n d k .stop w) = rxPhases [.L, .L] (rxAt s n d k .stop w) := by
  rw [repeatStep_succ, rxPhaseStep_rxAt h, rxPhaseWith_unread (.inr (.inl rfl)) _ .L, rxPhases, rxPhase_stop h,
    andThen_next, andThen_next, repeatStep_succ, rxPhaseStep_rxAt h, rxPhaseWith_unread (.inr (.inr rfl)) _ .L]
  rfl

/-- The cycles into a run at which phase `R_BIT(k)` begins. -/
def bitStart (s : State) (r : Inst) (k : Nat) : Nat :=
  s.rxWait + delayCycles s.cfg r.profile.rxCentering + k * delayCycles s.cfg r.profile.rxIntrabit

theorem bitStart_succ (s : State) (r : Inst) (k : Nat) :
    bitStart s r k + delayCycles s.cfg r.profile.rxIntrabit = bitStart s r (k + 1) := by
  rw [bitStart, bitStart, Nat.succ_mul]; omega

theorem sampleInstant_eq_bitStart (s : State) (r : Inst) (k : Nat) :
    sampleInstant s r k = s.now + bitStart s r (k + 1) := by
  rw [sampleInstant, bitStart, checkInstant]; omega

/-- Phase `R_BIT(k)` reads the cell the run was given for it. -/
theorem rxPhaseStep_bit {s : State} {r : Inst} (h : s.insts[s.rxInst]? = some r) (d : Byte) (k : Fin 8) :
    rxPhaseStep (rxAt s (bitStart s r k) d k (.bit k) (delayCycles s.cfg r.profile.rxIntrabit)) =
      rxPhaseWith (cellLevel (sampledCells s r) k)
        (rxAt s (bitStart s r k) d k (.bit k) (delayCycles s.cfg r.profile.rxIntrabit)) := by
  rw [rxPhaseStep_rxAt h, bitStart_succ, ← sampleInstant_eq_bitStart, cellLevel_sampledCells s r k.isLt, sampleLevel]

/-- The phases from `R_BIT(k)` on, `m` bits before the last one. -/
theorem repeatStep_rxPhaseStep_bits {s : State} {r : Inst} (h : s.insts[s.rxInst]? = some r) (m : Nat) :
    ∀ (k : Fin 8) (d : Byte), k.val + m = 7 →
      repeatStep rxPhaseStep (m + 3)
          (rxAt s (bitStart s r k) d k (.bit k) (delayCycles s.cfg r.profile.rxIntrabit)) =
        rxPhases ((List.range' k (m + 1)).map (cellLevel (sampledCells s r)) ++ [.L, .L])
          (rxAt s (bitStart s r k) d k (.bit k) (delayCycles s.cfg r.profile.rxIntrabit)) := by
  induction m with
  | zero =>
    intro k d hk
    obtain rfl : k = 7 := Fin.ext hk
    rw [repeatStep_succ, rxPhaseStep_bit h]
    show _ = andThen (rxPhaseWith (cellLevel (sampledCells s r) (7 : Fin 8)) _) (rxPhases [.L, .L])
    rw [rxPhase_lastBit h, andThen_next, andThen_next, repeatStep_rxPhaseStep_stop h]
  | succ m ih =>
    intro k d hk
    have hlast : k ≠ 7 := by rintro rfl; simp at hk
    have hval : (k + 1).val = k.val + 1 := Fin.val_add_one_of_lt (lt_of_le_of_ne (Fin.le_last k) hlast)
    rw [repeatStep_succ, rxPhaseStep_bit h, List.range'_succ, List.map_cons, List.cons_append, rxPhases,
      rxPhase_bit h _ _ _ _ _ _ hlast, andThen_next, andThen_next, bitStart_succ, ← hval]
    exact ih (k + 1) _ (by omega)

/-- The centering delay reads no pin either, and after it come the eight bits. -/
theorem repeatStep_rxPhaseStep_center {s : State} {r : Inst} (h : s.insts[s.rxInst]? = some r) (d : Byte) (k : Fin 8) :
    let cells := sampledCells s r
    repeatStep rxPhaseStep 11 (rxAt s s.rxWait d k .center (delayCycles s.cfg r.profile.rxCentering)) =
      rxPhases
        [.L, cellLevel cells 0, cellLevel cells 1, cellLevel cells 2, cellLevel cells 3, cellLevel cells 4,
          cellLevel cells 5, cellLevel cells 6, cellLevel cells 7, .L, .L]
        (rxAt s s.rxWait d k .center (delayCycles s.cfg r.profile.rxCentering)) := by
  have hstart : s.rxWait + delayCycles s.cfg r.profile.rxCentering = bitStart s r 0 := by simp [bitStart]
  intro cells
  rw [repeatStep_succ, rxPhaseStep_rxAt h, rxPhaseWith_unread (.inl rfl) _ .L, rxPhases, rxPhase_center h, hstart,
    andThen_next, andThen_next]
  exact repeatStep_rxPhaseStep_bits h 7 0 d rfl

/-- From `R_CHECK` the twelve phases are the handler on what the line carries: the start check reads the level at `E`; a
spurious run ends there, a decoding run goes on with the centering delay. -/
theorem repeatStep_rxPhaseStep_check {s : State} {r : Inst} (h : s.insts[s.rxInst]? = some r) :
    repeatStep rxPhaseStep 12 { s with rxPhase := .check } = runHandler (checkLevel s r) (sampledCells s r) s := by
  have hread : rxPhaseStep { s with rxPhase := .check } =
      rxPhaseWith (checkLevel s r) { s with rxPhase := .check } := withInst_of h _
  rw [repeatStep_succ, hread, runHandler, rxPhases, rxAt_zero]
  by_cases hc : checkLevel s r = startLevel r.strap
  · rw [rxPhase_check h _ _ _ _ _ hc, andThen_next, andThen_next, Nat.zero_add]
    exact repeatStep_rxPhaseStep_center h 0 s.rxK
  · rw [rxPhase_spurious h _ _ _ _ _ hc, andThen_next, andThen_next, rxPhases_idle _ _ rfl]
    refine repeatStep_rxPhaseStep_idle (r := r) ?_ rfl 11
    exact h

/-- Settles O53: the phases and the run of the fetched frame are both the handler on what the line carries. -/
theorem handlerIsItsPhases : Obligations.HandlerIsItsPhases := by
  intro s r i hp hr hi
  have hstate : { s with rxPhase := .check } = s := by rw [← hp]
  calc repeatStep rxPhaseStep 12 s
      = repeatStep rxPhaseStep 12 { s with rxPhase := .check } := by rw [hstate]
    _ = runHandler (checkLevel s r) (sampledCells s r) s := repeatStep_rxPhaseStep_check hr
    _ = exec i s := (exec_fetchFrame hi s).symm

end Sys2Proof.Machine
end

section
/-! PROOFS. Correct reception (41_receive_sampler.md rules R112, R113): what a well-tuned run reads and stores, its
follow-up run, and a peer that listens to a `WRITE` (43_transmit_sequencer.md rule R147, property S6). -/

namespace Sys2Proof.Machine

open Sys2Proof

/-! ### What a run with its samples in their cells reads -/

section
variable {s : State} {r : Inst} {b : Byte} {B : Nat → Nat}

/-- The start check reads the start cell (W1). -/
theorem checkLevel_of_w1 (hcells : CarriesFrame (waveOf s (rxPin s r)) r.strap b B)
    (hin : SamplesInCells B (checkInstant s) (sampleInstant s r)) : checkLevel s r = startLevel r.strap :=
  hcells 0 (by decide) _ hin.w1.1 hin.w1.2

/-- Sample `k` reads data cell `k` (W2). -/
theorem sampleLevel_of_w2 (hcells : CarriesFrame (waveOf s (rxPin s r)) r.strap b B)
    (hin : SamplesInCells B (checkInstant s) (sampleInstant s r)) {k : Nat} (hk : k < 8) :
    sampleLevel s r k = bitLevel r.strap (b.getLsbD k) := by
  obtain ⟨hlow, hhigh⟩ := hin.w2 k hk
  rw [sampleLevel, hcells (k + 1) (by omega) _ hlow hhigh, frameCell_data r.strap b hk]

/-- The eight samples are the byte in the instance's polarity (rule R105). -/
theorem sampledCells_of_samplesInCells (hcells : CarriesFrame (waveOf s (rxPin s r)) r.strap b B)
    (hin : SamplesInCells B (checkInstant s) (sampleInstant s r)) : sampledCells s r = polarity r.strap b := by
  apply BitVec.eq_of_getLsbD_eq
  intro k hk
  calc (sampledCells s r).getLsbD k
      = (cellLevel (sampledCells s r) k).toBool := (Level.toBool_ofBool _).symm
    _ = (bitLevel r.strap (b.getLsbD k)).toBool := by
        rw [cellLevel_sampledCells s r hk, sampleLevel_of_w2 hcells hin hk]
    _ = (polarity r.strap b).getLsbD k := bitLevel_toBool r.strap b hk

end

/-- Polarity is applied once on the line and once by the handler (rules R62, R107). -/
theorem polarity_polarity (t : Strap) (b : Byte) : polarity t (polarity t b) = b := by
  cases h : t.inverse <;> simp [polarity, h]

/-! ### The run of a received frame -/

/-- A decoding run of a waiting handler has returned at `Rt` (rules R104, R109). -/
theorem atStore_now (s : State) (r : Inst) (cells : Byte) : (atStore s r cells).now = returnInstant s r := by
  show s.now + (s.rxWait + runCycles s.cfg r.profile) = _
  rw [returnInstant, sampleInstant, checkInstant, runCycles]
  omega

/-- What the run of a frame of `b` leaves (rule R112): it has returned at `Rt`, and the byte is stored, or the overflow
flag set at a full buffer. -/
structure Received (s : State) (r : Inst) (b : Byte) (t : State) : Prop where
  now      : t.now = returnInstant s r
  idle     : t.rxPhase = .idle
  gie      : t.gie = true
  stored   : bufFull s = false →
    Memory.read t.buf s.tail = b ∧ t.tail = (s.tail + 1) % s.cfg.cap ∧ t.insts = s.insts
  overflow : bufFull s = true →
    t.buf = s.buf ∧ t.tail = s.tail ∧ t.insts = s.insts.modify s.rxInst (fun r => { r with overflow := true })

/-- A decoding run on the cells of `b` receives it. -/
theorem received_of_run {s t : State} {r : Inst} (hr : s.insts[s.rxInst]? = some r) (htail : s.tail < s.cfg.cap)
    {b : Byte} (hrun : runHandler (startLevel r.strap) (polarity r.strap b) s = .next t) : Received s r b t := by
  cases hf : bufFull s with
  | false =>
    rw [runHandler_stored hr rfl _ hf htail, polarity_polarity] at hrun
    cases hrun
    exact ⟨atStore_now s r (polarity r.strap b), rfl, rfl, fun _ => ⟨Memory.read_write_same s.buf s.tail b, rfl, rfl⟩,
      by simp [hf]⟩
  | true =>
    rw [runHandler_full hr rfl _ hf] at hrun
    cases hrun
    exact ⟨atStore_now s r (polarity r.strap b), rfl, rfl, by simp [hf], fun _ => ⟨rfl, rfl, rfl⟩⟩

/-- The step of a waiting handler whose samples fall in the cells of `b` receives it (rule R112). -/
theorem step_receives {s : State} {r : Inst} {b : Byte} {B : Nat → Nat} (hcfg : configOk s.cfg (straps s) = true)
    (hp : s.rxPhase = .check) (hr : s.insts[s.rxInst]? = some r) (htail : s.tail < s.cfg.cap)
    (hcells : CarriesFrame (waveOf s (rxPin s r)) r.strap b B)
    (hin : SamplesInCells B (checkInstant s) (sampleInstant s r)) :
    ∃ t, step s = .next t ∧ SameOwner s t ∧ Received s r b t := by
  have hstep := step_of_check hcfg hp hr
  rw [checkLevel_of_w1 hcells hin, sampledCells_of_samplesInCells hcells hin] at hstep
  obtain ⟨t, hrun⟩ := runHandler_total hr htail (startLevel r.strap) (polarity r.strap b)
  exact ⟨t, hstep.trans hrun, runHandler_sameOwner hrun, received_of_run hr htail hrun⟩

/-! ### The follow-up run (rule R113) -/

theorem step_of_ready {s : State} {x : SourceId} (hcfg : configOk s.cfg (straps s) = true) (hx : ready s = some x) :
    step s = .next (enterHandler x s) := by
  obtain ⟨_, _, _, hidle⟩ := (fires_iff s x).1 (ready_fires hx)
  simp [step, nextMove, hcfg, hidle, hx]

/-- The step of a waiting handler that reads the idle level is a spurious run (rule R102). -/
theorem step_of_idleLevel {s : State} {r : Inst} (hcfg : configOk s.cfg (straps s) = true) (hp : s.rxPhase = .check)
    (hr : s.insts[s.rxInst]? = some r) (hc : checkLevel s r = idleLevel r.strap) :
    step s = .next { isrDelay s with rxPhase := .idle, gie := true } := by
  rw [step_of_check hcfg hp hr, hc]
  exact runHandler_spurious hr (startLevel_ne_idleLevel _).symm _

/-- An instance listens to the same line in the same polarity as before. -/
theorem SameOwner.listens {s t : State} (h : SameOwner s t) {n : Nat} {r : Inst} (hr : s.insts[n]? = some r) :
    ∃ r', t.insts[n]? = some r' ∧ r'.strap = r.strap ∧ waveOf t (rxPin t r') = waveOf s (rxPin s r) := by
  have hmap : (t.insts[n]?).map Inst.strap = some r.strap := by
    rw [← List.getElem?_map, ← Machine.straps, h.straps, Machine.straps, List.getElem?_map, hr, Option.map_some]
  obtain ⟨r', hr', hstrap⟩ := Option.map_eq_some_iff.1 hmap
  exact ⟨r', hr', hstrap, by simp only [waveOf, rxPin, h.lineIn, h.cfg, hstrap]⟩

/-- A ready interrupt whose listener finds its line at rest at the first read of its run gives a spurious run. -/
theorem followUp_spurious {t : State} {n : Nat} {r : Inst} {x : SourceId} (hcfg : configOk t.cfg (straps t) = true)
    (ha : t.active = some n) (hr : t.insts[n]? = some r) (hx : ready t = some x)
    (hrest : (waveOf t (rxPin t r)).levelAt (t.now + t.cfg.latEntry) = idleLevel r.strap) :
    ∃ u v, step t = .next u ∧ u.rxPhase = .check ∧ step u = .next v ∧ v.now = t.now + t.cfg.latEntry ∧
      v.rxPhase = .idle ∧ v.gie = true ∧ v.buf = t.buf ∧ v.tail = t.tail ∧ v.insts = t.insts := by
  have hu := enterHandler_some ha x
  have hinst : (enterHandler x t).insts[(enterHandler x t).rxInst]? = some r := by rw [hu]; simpa using hr
  have hcfg' : configOk (enterHandler x t).cfg (straps (enterHandler x t)) = true := by simpa [straps] using hcfg
  have hcheck : checkLevel (enterHandler x t) r = idleLevel r.strap := by
    rw [← hrest, checkLevel, checkInstant, hu]
    simp [waveOf, rxPin]
  refine ⟨_, _, step_of_ready hcfg hx, by rw [hu], step_of_idleLevel hcfg' (by rw [hu]) hinst hcheck, ?_, rfl, rfl,
    ?_, ?_, ?_⟩
  · show (enterHandler x t).now + (enterHandler x t).rxWait = _
    rw [hu]
    simp
  · exact enterHandler_buf x t
  · exact enterHandler_tail x t
  · exact enterHandler_insts x t

/-- Settles O54: the step receives the byte, and the follow-up run finds the line at rest between the stop cell and the
next frame. -/
theorem wellTunedFrameIsReceived : Obligations.WellTunedFrameIsReceived := by
  intro s r b B hcfg hp hr htail hcells hin
  obtain ⟨t, hstep, hsame, hrec⟩ := step_receives hcfg hp hr htail hcells hin
  refine ⟨t, hstep, hrec.now, hrec.idle, hrec.gie, hrec.stored, hrec.overflow, ?_⟩
  intro next x hline htuned hnext hactive hx
  obtain ⟨r', hr', hstrap, hwave⟩ := hsame.listens hr
  have hcfg' : configOk t.cfg (straps t) = true := by rw [hsame.cfg, hsame.straps]; exact hcfg
  have hrest : (waveOf t (rxPin t r')).levelAt (t.now + t.cfg.latEntry) = idleLevel r'.strap := by
    rw [hwave, hstrap, hsame.cfg, hrec.now]
    exact hline.after _ (Nat.le_add_right_of_le htuned.w3) hnext
  rw [← hsame.cfg]
  exact followUp_spurious hcfg' (hsame.active.trans hactive) hr' hx hrest

/-! ### The line a `WRITE` makes (rule R147) -/

/-- The pin updates that make cell `j` the level `v j` from instant `B j` on, newest first, after those of `m`. -/
def cellEvents (p : Pin) (B : Nat → Nat) (v : Nat → Level) : Nat → List PinEvent → List PinEvent
  | 0, m => m
  | n + 1, m => ⟨B n, p, v n⟩ :: cellEvents p B v n m

/-- The line shows cell `j` from its update to the next one. -/
theorem wireLevel_cellEvents {p : Pin} {B : Nat → Nat} {v : Nat → Level} {m : List PinEvent} {rest : Level} {j u : Nat}
    (hj : B j ≤ u) {n : Nat} (hn : j < n) (hlater : ∀ i, j < i → i < n → u < B i) :
    wireLevel rest p u (cellEvents p B v n m) = v j := by
  induction n with
  | zero => omega
  | succ n ih =>
    rw [cellEvents, wireLevel_cons_same]
    rcases Nat.lt_or_eq_of_le (Nat.le_of_lt_succ hn) with h | rfl
    · rw [if_neg (Nat.not_le.2 (hlater n h (Nat.lt_succ_self n)))]
      exact ih h fun i h1 h2 => hlater i h1 (Nat.lt_succ_of_lt h2)
    · rw [if_pos hj]

/-- The trace of a `WRITE` is the ten cells of its frame. -/
theorem writeTrace_eq_cellEvents (T0 A T : Nat) (t : Strap) (b : Byte) (m : List PinEvent) :
    writeTrace T0 A T t b ++ m = cellEvents t.txPin (cellStart T0 A T) (frameCell t b) 10 m := rfl

theorem cellStart_mono (B0 A T : Nat) : Monotone (cellStart B0 A T) := by
  refine monotone_nat_of_le_succ fun j => ?_
  cases j with
  | zero => simp
  | succ j => rw [cellStart_succ, cellStart_succ, Nat.succ_mul]; omega

/-- The line of a `WRITE` carries its frame. -/
theorem wireLevel_writeTrace {rest : Level} {T0 A T : Nat} {t : Strap} {b : Byte} {m : List PinEvent} {j u : Nat}
    (hj : j < 10) (hlow : cellStart T0 A T j ≤ u) (hhigh : u < cellStart T0 A T (j + 1)) :
    wireLevel rest t.txPin u (writeTrace T0 A T t b ++ m) = frameCell t b j := by
  rw [writeTrace_eq_cellEvents]
  exact wireLevel_cellEvents hlow hj fun i hi _ => lt_of_lt_of_le hhigh (cellStart_mono T0 A T hi)

/-- The pin updates of a successful `WRITE`, however its stop delay is interrupted. -/
theorem execWrite_wire {s t : State} {n : Nat} {r : Inst} {b : Byte} (hidle : s.rxPhase = .idle)
    (hr : s.insts[n]? = some r) (htx : r.profile.txDelay ≠ 0) (h : exec (.write n b) s = .next t) :
    t.wire = writeTrace s.now (delayCycles s.cfg (startCount s.cfg r.profile)) (delayCycles s.cfg r.profile.txDelay)
      r.strap b ++ s.wire := by
  obtain ⟨r', hr', ⟨hzero, _⟩ | ⟨_, u, hu, hend⟩⟩ := execWrite_spec h
  all_goals obtain rfl : r' = r := Option.some.inj (hr'.symm.trans hr)
  · exact absurd hzero htx
  · have hwire : t.wire = u.wire := by rcases hend with ⟨_, rfl⟩ | ⟨_, rfl⟩ <;> rfl
    obtain ⟨hkept, _⟩ := fgDelay_spec (s := atStop n r' b s) hidle hu
    exact hwire.trans hkept.wire

/-! ### A peer that listens (property S6) -/

theorem frameCell_congr {t t' : Strap} (h : t'.inverse = t.inverse) (b : Byte) (j : Nat) :
    frameCell t' b j = frameCell t b j := by
  simp only [frameCell, startLevel, bitLevel, idleLevel, h]

theorem delayCycles_congr {c c' : Config} (h : c'.delayScale = c.delayScale) {n : Count} (hn : n ≠ 0) :
    delayCycles c' n = delayCycles c n := by
  rw [delayCycles_of_ne_zero hn, delayCycles_of_ne_zero hn, h]

/-- Settles O60: the peer's line carries the frame the sender's pin shows, so its step receives the byte. -/
theorem writtenByteIsReceivedByPeer : Obligations.WrittenByteIsReceivedByPeer := by
  intro s t q n r r' b _ hc hr htx hwrite hcfg hp hr' htail hroom hpol A T receives hline
  have hcells : CarriesFrame (waveOf q (rxPin q r')) r'.strap b (cellStart s.now A T) := by
    intro j hj u hlow hhigh
    rw [hline, execWrite_wire hc.1 hr htx hwrite, wireLevel_writeTrace hj hlow hhigh, frameCell_congr hpol]
  have hreceives (hin : SamplesInCells (cellStart s.now A T) (checkInstant q) (sampleInstant q r')) :
      ∃ q', receives q' := by
    obtain ⟨q', hstep, _, hrec⟩ := step_receives hcfg hp hr' htail hcells hin
    obtain ⟨hbyte, htail', _⟩ := hrec.stored hroom
    exact ⟨q', hstep, hrec.now, hbyte, htail'⟩
  refine ⟨fun hfirst hlast hsamples => hreceives ⟨⟨hfirst, ?_⟩, fun k hk => ?_⟩, ?_⟩
  · simpa using hlast
  · simpa using hsamples k hk
  · intro hscale hstart hcent hintra hstop hE hcounts
    have htuned := (wellTuned_iff_counts hcent hintra hstop hstart htx hE).2 hcounts
    rw [delayCycles_congr hscale hstart, delayCycles_congr hscale htx] at htuned
    obtain ⟨q', hq'⟩ := hreceives htuned.toSamplesInCells
    exact ⟨q', hq', hq'.2.1 ▸ htuned.w3⟩

end Sys2Proof.Machine
end

section
/-! PROOFS. The registry, the lifecycle and the operations that only look (42_listen_and_lifecycle.md;
44_consumer_ops.md): what `LISTEN`, `ISLISTEN` and `SHUTDOWN` do, what the operations without a delay leave alone, and
who writes the write errors and the interrupt bits. -/

namespace Sys2Proof.Machine

open Sys2Proof

/-! ### `LISTEN`, `ISLISTEN` and `SHUTDOWN` (rules R121 to R123, R128) -/

theorem takeOver_of_owner {n : Nat} {s : State} (ha : s.active = some n) : takeOver n s = s := if_pos ha

theorem takeOver_of_other {n : Nat} {s : State} (ha : s.active ≠ some n) :
    takeOver n s = { modifyInst n Inst.clearOverflow s with head := 0, tail := 0, stored := 0, active := some n } := by
  obtain ⟨howner, _⟩ | ⟨_, heq⟩ := takeOver_cases n s
  · exact absurd howner ha
  · exact heq

theorem execListen_eq {n : Nat} {s : State} (hn : n < ninst s) :
    execListen n s = .next { takeOver n s with rsp := some (.flag (s.active != some n)) } :=
  withPort_const hn _

theorem execIslisten_eq {n : Nat} {s : State} (hn : n < ninst s) :
    execIslisten n s = .next { s with rsp := some (.flag (s.active == some n)) } :=
  withPort_const hn _

theorem execShutdown_eq {n : Nat} {s : State} {r : Inst} (hr : s.insts[n]? = some r) :
    execShutdown n s = .next { setSource r.strap.rxSrc (fun i => { i with enable := false }) s with
      gie := false, rsp := some .done } :=
  withPort_of hr _

/-- Settles O31: the takeover by an instance that has not the buffer. -/
theorem listenTakesOver : Obligations.ListenTakesOver := by
  intro s n hn ha
  show execListen n s = _
  rw [execListen_eq hn, takeOver_of_other ha, bne_iff_ne.2 ha]
  rfl

/-- Settles O32: the owner takes nothing over. -/
theorem listenUnchanged : Obligations.ListenUnchanged := by
  intro s n hn ha
  show execListen n s = _
  rw [execListen_eq hn, takeOver_of_owner ha, bne_eq_false_iff_eq.2 ha]

/-- Settles O33: the response is the comparison with `active`. -/
theorem isListenAnswers : Obligations.IsListenAnswers := by
  intro s n hn
  show execIslisten n s = _
  rw [execIslisten_eq hn, beq_eq_decide]

/-- Settles O34: either source is written by `setSource`. -/
theorem shutdownDisables : Obligations.ShutdownDisables := by
  intro s n r hr
  refine ⟨fun hx => ?_, fun hx => ?_⟩
  all_goals
    show execShutdown n s = _
    rw [execShutdown_eq hr, hx]
    rfl

/-! ### Frames -/

/-- Settles O47: each next state is the old one with the written fields replaced. -/
theorem frameOfConsumers : Obligations.FrameOfConsumers := by
  intro s t n
  refine ⟨fun i hi he => ?_, fun he => ?_⟩
  · have hrsp : ∃ v, t = { s with rsp := some v } := by
      simp only [List.mem_cons, List.not_mem_nil, or_false] at hi
      rcases hi with rfl | rfl | rfl | rfl
      · exact ⟨_, (execIslisten_spec he).2⟩
      · exact (execPeek_spec he).2
      · exact (execAvail_spec he).2
      · exact (execStatus_spec he).2
    obtain ⟨v, rfl⟩ := hrsp
    exact ⟨rfl, fun _ => rfl⟩
  · obtain ⟨_, rfl | ⟨_, _, _, rfl⟩⟩ := execRead_spec he
    · exact ⟨rfl, fun _ => rfl⟩
    · exact ⟨rfl, fun _ => rfl⟩

/-- What an update of one instance leaves of every instance, it leaves of the list. -/
theorem map_modify_of_kept {α : Type} {g : Inst → α} {f : Inst → Inst} (h : ∀ r, g (f r) = g r) (l : List Inst)
    (n : Nat) : (l.modify n f).map g = l.map g := by
  apply List.ext_getElem?
  intro m
  simp only [List.getElem?_map, List.getElem?_modify]
  by_cases hm : n = m <;> cases l[m]? <;> simp [hm, h]

/-- Settles O48: of the three, `LISTEN` alone writes an instance, by clearing an overflow flag. -/
theorem frameOfLifecycle : Obligations.FrameOfLifecycle := by
  intro s t n i hi he
  simp only [List.mem_cons, List.not_mem_nil, or_false] at hi
  rcases hi with rfl | rfl | rfl
  · obtain ⟨_, rfl⟩ := execListen_spec he
    obtain ⟨_, heq⟩ | ⟨_, heq⟩ := takeOver_cases n s <;> rw [heq]
    · exact ⟨fun _ => rfl, rfl, rfl, fun _ => ⟨rfl, rfl, rfl⟩, fun h => absurd rfl h, nofun⟩
    · exact ⟨fun _ => rfl, rfl, map_modify_of_kept (f := Inst.clearOverflow) (fun _ => rfl) _ _,
        fun _ => ⟨rfl, rfl, rfl⟩, fun h => absurd rfl h, nofun⟩
  · obtain ⟨_, rfl | ⟨_, rfl⟩⟩ := execFlush_spec he
    all_goals exact ⟨fun _ => rfl, rfl, rfl, fun _ => ⟨rfl, rfl, rfl⟩, fun _ => ⟨rfl, rfl⟩, nofun⟩
  · obtain ⟨r, _, rfl⟩ := execShutdown_spec he
    cases r.strap.rxSrc <;>
      exact ⟨fun _ => rfl, rfl, rfl, fun h => absurd rfl h, fun _ => ⟨rfl, rfl⟩, fun _ => ⟨rfl, rfl, rfl⟩⟩

/-- `ISLISTEN` and the five consumer operations. -/
def looksOrConsumes (n : Nat) : List Instr := [.islisten n, .read n, .peek n, .avail n, .flush n, .status n]

/-- They touch no instance and no interrupt bit. -/
theorem exec_looksOrConsumes {n : Nat} {i : Instr} {s t : State} (hi : i ∈ looksOrConsumes n)
    (h : exec i s = .next t) : t.insts = s.insts ∧ t.src0 = s.src0 ∧ t.src1 = s.src1 := by
  simp only [looksOrConsumes, List.mem_cons, List.not_mem_nil, or_false] at hi
  rcases hi with rfl | rfl | rfl | rfl | rfl | rfl
  · obtain ⟨_, rfl⟩ := execIslisten_spec h
    exact ⟨rfl, rfl, rfl⟩
  · obtain ⟨_, rfl | ⟨_, _, _, rfl⟩⟩ := execRead_spec h <;> exact ⟨rfl, rfl, rfl⟩
  · obtain ⟨_, v, rfl⟩ := execPeek_spec h
    exact ⟨rfl, rfl, rfl⟩
  · obtain ⟨_, v, rfl⟩ := execAvail_spec h
    exact ⟨rfl, rfl, rfl⟩
  · obtain ⟨_, rfl | ⟨_, rfl⟩⟩ := execFlush_spec h <;> exact ⟨rfl, rfl, rfl⟩
  · obtain ⟨_, v, rfl⟩ := execStatus_spec h
    exact ⟨rfl, rfl, rfl⟩

/-! ### A foreground delay that starts anywhere -/

/-- Whatever the receive sequencer's phase, a foreground delay leaves what a handler run leaves. -/
theorem fgDelay_kept {s t : State} (h : fgDelay s = .next t) : KeptByHandler { s with fgWait := t.fgWait } t :=
  fgDelay_induct (P := fun u => KeptByHandler { s with fgWait := u.fgWait } u)
    (fun _ _ hu _ _ _ => { hu with fgWait := rfl })
    (fun _ _ _ hu hx hv => by
      obtain ⟨hk, _⟩ := serveInterrupt_kept hx hv
      rw [hk.fgWait]
      exact hu.trans hk)
    (.refl s) h

/-! ### Write errors (rules R15, R131, R141) -/

theorem writeErrors_getElem? (s : State) (n : Nat) : (writeErrors s)[n]? = (s.insts[n]?).map Inst.writeError :=
  List.getElem?_map

theorem writeErrors_of_insts {s t : State} (h : t.insts = s.insts) : writeErrors t = writeErrors s := by
  rw [writeErrors, h, writeErrors]

@[simp] theorem writeErrors_takeOver (n : Nat) (s : State) : writeErrors (takeOver n s) = writeErrors s := by
  obtain ⟨_, heq⟩ | ⟨_, heq⟩ := takeOver_cases n s <;> rw [heq]
  exact writeErrors_modifyInst n Inst.clearOverflow s fun _ => rfl

theorem fgDelay_writeErrors {s t : State} (h : fgDelay s = .next t) : writeErrors t = writeErrors s :=
  (fgDelay_kept h).writeErrors_eq

theorem txPhaseStep_writeErrors {s t : State} (h : txPhaseStep s = .next t) : writeErrors t = writeErrors s := by
  obtain ⟨_, rfl⟩ | ⟨_, u, hu, hend⟩ := txPhaseStep_spec h
  · rfl
  rw [← fgDelay_writeErrors hu]
  obtain ⟨_, rfl⟩ | ⟨_, ⟨_, rfl⟩ | ⟨_, r, _, ⟨k, _, rfl⟩ | ⟨_, _, rfl⟩⟩⟩ := hend <;> rfl

theorem finishConfigure_writeErrors {n : Nat} {s t : State} (h : finishConfigure n s = .next t) :
    writeErrors t = writeErrors s := by
  obtain ⟨_, rfl⟩ := finishConfigure_spec h
  exact writeErrors_takeOver n { s with cfgPhase := .idle }

theorem cfgPhaseStep_writeErrors {s t : State} (h : cfgPhaseStep s = .next t) : writeErrors t = writeErrors s := by
  obtain ⟨_, rfl⟩ | ⟨_, u, hu, ⟨_, rfl⟩ | ⟨_, _, rfl⟩⟩ := cfgPhaseStep_spec h
  · rfl
  · exact fgDelay_writeErrors hu
  · rw [← fgDelay_writeErrors hu]
    exact writeErrors_takeOver u.cfgInst { u with cfgPhase := .idle }

theorem writeErrors_setProfile (n : Nat) (p : Profile) (s : State) : writeErrors (setProfile n p s) = writeErrors s :=
  writeErrors_modifyInst n (fun r => { r with profile := p }) s fun _ => rfl

/-- A refused `WRITE` sets its own instance's write error. -/
def SetsWriteError (s t : State) : Prop := ∃ n, t.insts = s.insts.modify n Inst.setWriteError

/-- Of all operations only a refused `WRITE` writes a write error. -/
theorem exec_writeErrors {i : Instr} {s t : State} (h : exec i s = .next t) :
    writeErrors t = writeErrors s ∨ SetsWriteError s t := by
  cases i with
  | configure n baud =>
    obtain ⟨p, _, hfin | ⟨x, hset⟩⟩ := execConfigure_phases h
    · exact .inl ((finishConfigure_writeErrors hfin).trans (writeErrors_setProfile n p s))
    · exact .inl ((cfgPhaseStep_writeErrors hset).trans
        ((writeErrors_of_insts (beginSettle_insts n x p _)).trans (writeErrors_setProfile n p s)))
  | write n b =>
    obtain ⟨r, _, rfl | hstop⟩ := execWrite_phases h
    · exact .inr ⟨n, rfl⟩
    · exact .inl ((txPhaseStep_writeErrors hstop).trans (writeErrors_of_insts rfl))
  | listen n =>
    obtain ⟨_, rfl⟩ := execListen_spec h
    exact .inl (writeErrors_takeOver n s)
  | shutdown n =>
    obtain ⟨r, _, rfl⟩ := execShutdown_spec h
    exact .inl (writeErrors_of_insts (setSource_insts _ _ s))
  | islisten n | read n | peek n | avail n | flush n | status n =>
    obtain ⟨hinsts, _⟩ := exec_looksOrConsumes (n := n) (by simp [looksOrConsumes]) h
    exact .inl (writeErrors_of_insts hinsts)
  | rxisr cells | rxisrInv cells => exact .inl (runHandler_kept h).1.writeErrors_eq

theorem step_writeErrors {s t : State} (h : step s = .next t) :
    writeErrors t = writeErrors s ∨ SetsWriteError s t := by
  obtain ⟨_, ⟨_, r, _, hrun⟩ | ⟨_, _, r, _, hph⟩ | ⟨_, x, _, rfl⟩ | ⟨_, _, _, htx⟩ | ⟨_, _, _, _, hcf⟩ |
    ⟨_, _, c, rest, i, _, _, _, he⟩ | ⟨_, _, rfl⟩⟩ := step_spec h
  · exact .inl (runHandler_kept hrun).1.writeErrors_eq
  · exact .inl (rxPhaseWith_kept hph).1.writeErrors_eq
  · exact .inl (enterHandler_kept x s).writeErrors_eq
  · exact .inl (txPhaseStep_writeErrors htx)
  · exact .inl (cfgPhaseStep_writeErrors hcf)
  · exact exec_writeErrors (s := { s with script := rest, rsp := none }) he
  · exact .inl rfl

theorem SetsWriteError.lasts {s t : State} (h : SetsWriteError s t) {n : Nat}
    (hn : (writeErrors s)[n]? = some true) : (writeErrors t)[n]? = some true := by
  obtain ⟨m, hm⟩ := h
  rw [writeErrors_getElem?] at hn ⊢
  rw [hm, List.getElem?_modify]
  obtain ⟨r, hr, hw⟩ := Option.map_eq_some_iff.1 hn
  by_cases hmn : m = n <;> simp [hr, hw, hmn]

/-- Settles O16: the only write to a write error sets it. -/
theorem writeErrorIsSticky : Obligations.WriteErrorIsSticky := by
  intro s t n r hs hr hw
  have hbefore : (writeErrors s)[n]? = some true := by rw [writeErrors_getElem?, hr, Option.map_some, hw]
  have hafter : (writeErrors t)[n]? = some true := by
    obtain hsame | hset := step_writeErrors hs
    · rw [hsame, hbefore]
    · exact hset.lasts hbefore
  rw [writeErrors_getElem?] at hafter
  exact Option.map_eq_some_iff.1 hafter

/-! ### The interrupt bits (rules R129 d, R131, R184) -/

theorem source_of_eq {s t : State} (h0 : t.src0 = s.src0) (h1 : t.src1 = s.src1) (x : SourceId) :
    source t x = source s x := by
  cases x with
  | s0 => exact h0
  | s1 => exact h1

/-- Enable and sense of a source are as before. -/
def SameSetup (s t : State) (x : SourceId) : Prop :=
  (source t x).enable = (source s x).enable ∧ (source t x).sense = (source s x).sense

theorem SameSetup.of_source {s t : State} {x : SourceId} (h : source t x = source s x) : SameSetup s t x :=
  ⟨congrArg IntSource.enable h, congrArg IntSource.sense h⟩

theorem SameSetup.trans {s t u : State} {x : SourceId} (h : SameSetup s t x) (g : SameSetup t u x) :
    SameSetup s u x :=
  ⟨g.1.trans h.1, g.2.trans h.2⟩

theorem txPhaseStep_sameSetup {s t : State} (h : txPhaseStep s = .next t) (x : SourceId) : SameSetup s t x := by
  obtain ⟨_, rfl⟩ | ⟨_, u, hu, hend⟩ := txPhaseStep_spec h
  · exact .of_source rfl
  refine SameSetup.trans (t := u) ((fgDelay_kept hu).source_eq x) (.of_source ?_)
  obtain ⟨_, rfl⟩ | ⟨_, ⟨_, rfl⟩ | ⟨_, r, _, ⟨k, _, rfl⟩ | ⟨_, _, rfl⟩⟩⟩ := hend <;> exact source_of_eq rfl rfl x

theorem finishConfigure_sameSetup {n : Nat} {s t : State} (h : finishConfigure n s = .next t) (x : SourceId) :
    SameSetup s t x := by
  obtain ⟨_, rfl⟩ := finishConfigure_spec h
  exact .of_source (source_of_eq (takeOver_src0 n { s with cfgPhase := .idle })
    (takeOver_src1 n { s with cfgPhase := .idle }) x)

theorem cfgPhaseStep_sameSetup {s t : State} (h : cfgPhaseStep s = .next t) (x : SourceId) : SameSetup s t x := by
  obtain ⟨_, rfl⟩ | ⟨_, u, hu, hend⟩ := cfgPhaseStep_spec h
  · exact .of_source rfl
  refine SameSetup.trans (t := u) ((fgDelay_kept hu).source_eq x) (.of_source ?_)
  obtain ⟨_, rfl⟩ | ⟨_, _, rfl⟩ := hend
  · rfl
  · exact source_of_eq (takeOver_src0 u.cfgInst { u with cfgPhase := .idle })
      (takeOver_src1 u.cfgInst { u with cfgPhase := .idle }) x

theorem source_beginSettle (n : Nat) (y : SourceId) (p : Profile) (s : State) (x : SourceId) :
    source (beginSettle n y p s) x = if x = y then ⟨true, .anyEdge, (source s x).pending⟩ else source s x := by
  cases y <;> cases x <;> rfl

theorem configure_enable {n : Nat} {baud : BitVec 32} {s t : State} (h : execConfigure n baud s = .next t)
    {x : SourceId} (hx : (source s x).enable = true) : (source t x).enable = true := by
  obtain ⟨p, _, hfin | ⟨y, hset⟩⟩ := execConfigure_phases h
  · rw [(finishConfigure_sameSetup hfin x).1]
    exact hx
  · rw [(cfgPhaseStep_sameSetup hset x).1, source_beginSettle]
    split
    · rfl
    · exact hx

/-- `SHUTDOWN` writes the enable of one source. -/
theorem shutdown_source {n : Nat} {s t : State} (h : execShutdown n s = .next t) :
    ∃ y, ∀ x, source t x = if x = y then { source s x with enable := false } else source s x := by
  obtain ⟨r, _, rfl⟩ := execShutdown_spec h
  refine ⟨r.strap.rxSrc, fun x => ?_⟩
  cases r.strap.rxSrc <;> cases x <;> rfl

/-- So no source becomes enabled, and every sense and latch stays. -/
theorem shutdown_enables_none {n : Nat} {s t : State} (h : execShutdown n s = .next t) (x : SourceId) :
    ((source t x).enable = true → (source s x).enable = true) ∧ (source t x).sense = (source s x).sense ∧
      (source t x).pending = (source s x).pending := by
  obtain ⟨y, hy⟩ := shutdown_source h
  rw [hy]
  split
  · exact ⟨nofun, rfl, rfl⟩
  · exact ⟨id, rfl, rfl⟩

theorem write_sameSetup {n : Nat} {b : Byte} {s t : State} (h : execWrite n b s = .next t) (x : SourceId) :
    SameSetup s t x := by
  obtain ⟨r, _, rfl | hstop⟩ := execWrite_phases h
  · exact .of_source (source_of_eq rfl rfl x)
  · have hat : SameSetup s (atStop n r b s) x := by cases x <;> exact ⟨rfl, rfl⟩
    exact hat.trans (txPhaseStep_sameSetup hstop x)

/-- Enable and sense of a source are as before, and its latch is not cleared. -/
def SourceLasts (s t : State) (x : SourceId) : Prop :=
  SameSetup s t x ∧ ((source s x).pending = true → (source t x).pending = true)

theorem SourceLasts.of_eq {s t : State} (h0 : t.src0 = s.src0) (h1 : t.src1 = s.src1) (x : SourceId) :
    SourceLasts s t x := by
  have hx := source_of_eq h0 h1 x
  exact ⟨.of_source hx, fun hp => by rwa [hx]⟩

/-- Edges during a handler run set latches. -/
theorem runHandler_sourceLasts {s t : State} {c : Level} {cells : Byte} (h : runHandler c cells s = .next t)
    (x : SourceId) : SourceLasts s t x :=
  ⟨(runHandler_kept h).1.source_eq x, fun hp => by rw [runHandler_pending h, hp, Bool.true_or]⟩

/-- All but three operations leave enable and sense of every source, and clear no latch. -/
theorem exec_sourceLasts {i : Instr} {s t : State} (h : exec i s = .next t) (hconf : ∀ n baud, i ≠ .configure n baud)
    (hshut : ∀ n, i ≠ .shutdown n) (hwrite : ∀ n b, i ≠ .write n b) (x : SourceId) : SourceLasts s t x := by
  cases i with
  | configure n baud => exact absurd rfl (hconf n baud)
  | shutdown n => exact absurd rfl (hshut n)
  | write n b => exact absurd rfl (hwrite n b)
  | listen n =>
    obtain ⟨_, rfl⟩ := execListen_spec h
    exact .of_eq (takeOver_src0 n s) (takeOver_src1 n s) x
  | islisten n | read n | peek n | avail n | flush n | status n =>
    obtain ⟨_, h0, h1⟩ := exec_looksOrConsumes (n := n) (by simp [looksOrConsumes]) h
    exact .of_eq h0 h1 x
  | rxisr cells | rxisrInv cells => exact runHandler_sourceLasts h x

/-- Settles O19: what `CONFIGURE`, `SHUTDOWN` and `WRITE` do to a source, and that all others leave it but for edges. -/
theorem interruptBitsWrittenByFewOnly : Obligations.InterruptBitsWrittenByFewOnly := by
  intro i s t x he
  cases i with
  | configure n baud =>
    exact ⟨fun hi => absurd rfl (hi n baud), fun _ => configure_enable he, fun hi => absurd rfl (hi n baud)⟩
  | shutdown n =>
    obtain ⟨hen, hse, hpend⟩ := shutdown_enables_none he x
    exact ⟨fun _ => ⟨hen, hse⟩, fun hi => absurd rfl (hi n), fun _ _ => hpend.trans⟩
  | write n b =>
    obtain ⟨hen, hse⟩ := write_sameSetup he x
    exact ⟨fun _ => ⟨hen.symm.trans, hse⟩, fun _ => hen.trans, fun _ hi => absurd rfl (hi n b)⟩
  | _ =>
    obtain ⟨⟨hen, hse⟩, hpend⟩ := exec_sourceLasts he nofun nofun nofun x
    exact ⟨fun _ => ⟨hen.symm.trans, hse⟩, fun _ => hen.trans, fun _ _ => hpend⟩

end Sys2Proof.Machine
end

section
/-! PROOFS. The transmit sequencer (43_transmit_sequencer.md): a `WRITE` that is refused, its phases from the start
level to the stop level, its waveform, and its end with and without interrupts in the stop delay. -/

namespace Sys2Proof.Machine

open Sys2Proof

/-! ### A refused `WRITE` (rule R141) -/

/-- Settles O55: the instance's write error is all a refused `WRITE` writes but for the response. -/
theorem writeRefusedWhenUnconfigured : Obligations.WriteRefusedWhenUnconfigured := by
  intro s n r b hr htx
  have hexec : exec (.write n b) s = reply (.count 0) (modifyInst n Inst.setWriteError s) :=
    (withPort_of hr _).trans (if_pos htx)
  rw [hexec, reply, modifyInst]
  rfl

/-! ### The phases between start level and stop level (rules R142 to R144, R150) -/

/-- `t` is `s` some cycles into a `WRITE` of `b` on instance `n` that drives pin `p`, before its stop level. -/
def Transmitting (s : State) (n : Nat) (b : Byte) (p : Pin) (t : State) : Prop :=
  ∃ N k ph w v evs, ph.masking = true ∧ t = txAt s n b p N k ph w v evs

theorem transmitting_beginWrite (s : State) (n : Nat) (r : Inst) (b : Byte) :
    Transmitting s n b r.strap.txPin (beginWrite n r b s) :=
  ⟨_, _, _, _, _, _, rfl, beginWrite_eq n r b s⟩

/-- From `T_BIT(k)` the next `m` phases, with `m` bits left at least, go from bit to bit (rule R144). -/
theorem transmitting_bits {s : State} {n : Nat} {r : Inst} (hr : s.insts[n]? = some r) (b : Byte) {m : Nat} {k : Fin 8}
    (hk : k.val + m ≤ 7) (N w : Nat) (v : Level) (evs : List PinEvent) :
    ∃ t, repeatStep txPhaseStep m (txAt s n b r.strap.txPin N k (.bit k) w v evs) = .next t ∧
      Transmitting s n b r.strap.txPin t := by
  induction m generalizing k N w v evs with
  | zero => exact ⟨_, rfl, _, _, _, _, _, _, rfl, rfl⟩
  | succ m ih =>
    have hlast : k ≠ 7 := fun e => by rw [e] at hk; omega
    have hnext : (k + 1).val = k.val + 1 := Fin.val_add_one_of_lt (Fin.lt_last_iff_ne_last.2 hlast)
    rw [repeatStep_succ, txPhase_bit hr b N k k w v evs hlast, andThen_next]
    exact ih (by omega) _ _ _ _

/-- Every phase from `T_START` (`k` is 0) to `T_BIT(7)` (`k` is 8). -/
theorem transmitting_phases {s : State} {n : Nat} {r : Inst} (hr : s.insts[n]? = some r) (b : Byte) {k : Nat}
    (hk : k ≤ 8) :
    ∃ t, repeatStep txPhaseStep k (beginWrite n r b s) = .next t ∧ Transmitting s n b r.strap.txPin t := by
  cases k with
  | zero => exact ⟨_, rfl, transmitting_beginWrite s n r b⟩
  | succ m =>
    rw [repeatStep_succ, beginWrite_eq, txPhase_start hr, andThen_next]
    exact transmitting_bits hr b (by rw [Fin.val_zero]; omega) _ _ _ _

/-- Settles O59: a state that is `Transmitting` has `gie` 0, and of the rest only the time, the latches, the transmit
registers, the delay and the pin can differ from those of `s`. -/
theorem noReceptionWhileTransmitting : Obligations.NoReceptionWhileTransmitting := by
  intro s n k r b hr hk
  obtain ⟨t, ht, _, _, _, _, _, _, hmask, rfl⟩ := transmitting_phases hr b hk
  exact ⟨_, ht, rfl, rfl, hmask, rfl, rfl, rfl, rfl, rfl, rfl⟩

/-! ### The waveform (rule R147) -/

/-- Before the first cell the line shows what it did. -/
theorem wireLevel_cellEvents_before {p : Pin} {B : Nat → Nat} {v : Nat → Level} {m : List PinEvent} {rest : Level}
    {u n : Nat} (h : ∀ i, i < n → u < B i) :
    wireLevel rest p u (cellEvents p B v n m) = wireLevel rest p u m := by
  induction n with
  | zero => rfl
  | succ n ih =>
    rw [cellEvents, wireLevel_cons_same, if_neg (Nat.not_le.2 (h n (Nat.lt_succ_self n)))]
    exact ih fun i hi => h i (Nat.lt_succ_of_lt hi)

theorem wireLevel_writeTrace_before {rest : Level} {T0 A T : Nat} {t : Strap} {b : Byte} {m : List PinEvent} {u : Nat}
    (hu : u < T0) : wireLevel rest t.txPin u (writeTrace T0 A T t b ++ m) = wireLevel rest t.txPin u m := by
  rw [writeTrace_eq_cellEvents]
  exact wireLevel_cellEvents_before fun i _ => lt_of_lt_of_le hu (cellStart_mono T0 A T (Nat.zero_le i))

/-- From the stop cell on the line shows the idle level: no update follows it. -/
theorem wireLevel_writeTrace_after {rest : Level} {T0 A T : Nat} {t : Strap} {b : Byte} {m : List PinEvent} {u : Nat}
    (hu : cellStart T0 A T 9 ≤ u) : wireLevel rest t.txPin u (writeTrace T0 A T t b ++ m) = idleLevel t := by
  rw [writeTrace_eq_cellEvents]
  exact wireLevel_cellEvents hu (by decide) fun i h9 h10 => by omega

/-- Settles O57: the cells of the frame, one by one. -/
theorem writeWaveform : Obligations.WriteWaveform := by
  intro s t n r b _ hc hr htx hwrite A T line
  have hline (u : Nat) : line u = wireLevel (idleLevel r.strap) r.strap.txPin u
      (writeTrace s.now A T r.strap b ++ s.wire) :=
    congrArg (wireLevel _ _ u) (execWrite_wire hc.1 hr htx hwrite)
  refine ⟨fun u hu => ?_, fun u hlow hhigh => ?_, fun k u hk hlow hhigh => ?_, fun u hu => ?_⟩ <;> rw [hline]
  · exact wireLevel_writeTrace_before hu
  · exact wireLevel_writeTrace (j := 0) (by decide) hlow (by simpa using hhigh)
  · rw [wireLevel_writeTrace (j := k + 1) (by omega) (by rwa [cellStart_succ]) (by rwa [cellStart_succ]),
      frameCell_data r.strap b hk]
  · exact wireLevel_writeTrace_after (by rwa [cellStart_succ])

/-! ### A stop delay that nothing disturbs (rules R146, R152 c) -/

/-- The later part of an interval without edges has none. -/
theorem Wave.edgeWithin_drop {w : Wave} {a b c : Nat} (hab : a ≤ b) (hbc : b ≤ c) (h : w.edgeWithin a c = false) :
    w.edgeWithin b c = false := by
  rw [Wave.edgeWithin_append w hab hbc, Bool.or_eq_false_iff] at h
  exact h.2

/-- When the first `m` of `m + n` cycles that nothing disturbs have passed, nothing disturbs the other `n`. -/
theorem Undisturbed.advance {m n : Nat} {s : State} (h : Undisturbed (m + n) s) : Undisturbed n (advance m s) := by
  intro hgie x hen
  rw [source_advance_enable] at hen
  obtain ⟨hpend, hedge⟩ := h hgie x hen
  rw [← Nat.add_assoc] at hedge
  rw [source_advance_pending, hpend]
  exact ⟨Wave.edgeWithin_mono (Nat.le_add_right _ _) (Nat.le_add_right _ _) hedge,
    Wave.edgeWithin_drop (Nat.le_add_right _ _) (Nat.le_add_right _ _) hedge⟩

/-- Whether anything disturbs is a matter of `gie`, the sources, their lines and the time. -/
theorem Undisturbed.congr {n : Nat} {s t : State} (h : Undisturbed n s) (hgie : t.gie = s.gie) (h0 : t.src0 = s.src0)
    (h1 : t.src1 = s.src1) (hcfg : t.cfg = s.cfg) (hline : t.lineIn = s.lineIn) (hnow : t.now = s.now) :
    Undisturbed n t := by
  intro hg x
  rw [source_of_eq h0 h1 x, waveOf_congr hline, hcfg, hnow]
  exact h (hgie ▸ hg) x

/-- Settles O58: nothing disturbs the stop delay, so it takes `T` cycles after the `A + 8 T` up to the stop level. -/
theorem writeUndisturbed : Obligations.WriteUndisturbed := by
  intro s n r b hr htx A T hquiet
  have htime : A + 9 * T = A + 8 * T + T := by omega
  have hstop : Undisturbed T (atStop n r b s) := by
    rw [htime] at hquiet
    exact (Undisturbed.advance (m := A + 8 * T) hquiet).congr rfl rfl rfl rfl rfl rfl
  obtain ⟨hdelay, hover⟩ := fgDelay_undisturbed (s := atStop n r b s) hstop
  have hexec := (execWrite_eq hr b htx).trans (afterDelay_over hdelay hover)
  rw [htime, ← advance_add]
  exact hexec

/-! ### A stop delay that may be interrupted (rules R145, R146, R148, R149) -/

/-- From `s`, a `WRITE` of `b` on an instance `r` has driven its ten levels and restored `gie`, and nothing else has
changed but what its end and handler runs may change. -/
structure Transmitted (s : State) (r : Inst) (b : Byte) (t : State) : Prop where
  rxPhase   : t.rxPhase = .idle
  cfgPhase  : t.cfgPhase = .idle
  gie       : t.gie = s.gie
  pin       : t.pinOut.lookup r.strap.txPin = some (idleLevel r.strap)
  otherPins : ∀ p, p ≠ r.strap.txPin → t.pinOut.lookup p = s.pinOut.lookup p
  wire      : t.wire = writeTrace s.now (delayCycles s.cfg (startCount s.cfg r.profile))
                (delayCycles s.cfg r.profile.txDelay) r.strap b ++ s.wire
  head      : t.head = s.head
  active    : t.active = s.active
  unread    : unread s <+: unread t
  insts     : t.insts.map (fun r => (r.strap, r.profile, r.writeError)) =
                s.insts.map (fun r => (r.strap, r.profile, r.writeError))
  overflow  : ∀ m, some m ≠ s.active → overflowOf t m = overflowOf s m
  setup     : ∀ x, SameSetup s t x
  cfg       : t.cfg = s.cfg
  cfgInst   : t.cfgInst = s.cfgInst
  script    : t.script = s.script
  lineIn    : t.lineIn = s.lineIn

theorem atStop_now (n : Nat) (r : Inst) (b : Byte) (s : State) :
    (atStop n r b s).now =
      s.now + (delayCycles s.cfg (startCount s.cfg r.profile) + 8 * delayCycles s.cfg r.profile.txDelay) := rfl

theorem atStop_fgWait (n : Nat) (r : Inst) (b : Byte) (s : State) :
    (atStop n r b s).fgWait = delayCycles s.cfg r.profile.txDelay := rfl

theorem atStop_sameSetup (n : Nat) (r : Inst) (b : Byte) (s : State) (x : SourceId) :
    SameSetup s (atStop n r b s) x := by
  cases x <;> exact ⟨rfl, rfl⟩

/-- So it is in the stop delay, however that is interrupted. -/
theorem transmitted_fgDelay {s u : State} (h : Inv s) (hc : takesCommand s) {n : Nat} {r : Inst}
    (hr : s.insts[n]? = some r) {b : Byte} (hu : fgDelay (atStop n r b s) = .next u) : Transmitted s r b u := by
  obtain ⟨hkept, _, hidle, hgie, _⟩ := fgDelay_spec (s := atStop n r b s) hc.1 hu
  have hpins : u.pinOut = setPin r.strap.txPin (idleLevel r.strap) s.pinOut := hkept.pinOut
  exact
    { rxPhase := hidle
      cfgPhase := hkept.cfgPhase.trans hc.2.2
      gie := hgie
      pin := hpins ▸ lookup_setPin_same _ _ _
      otherPins := fun p hp => hpins ▸ lookup_setPin_other hp _ _
      wire := hkept.wire
      head := hkept.head
      active := hkept.active
      unread := (h.atStop hc hr b).unread_fgDelay hu
      insts := hkept.insts
      overflow := fun m hm => congrArg (Option.map Inst.overflow) (fgDelay_insts hu hm)
      setup := fun x => (atStop_sameSetup n r b s x).trans (hkept.source_eq x)
      cfg := hkept.cfg
      cfgInst := hkept.cfgInst
      script := hkept.script
      lineIn := hkept.lineIn }

/-- The end of a `WRITE` keeps it (rule R146). -/
theorem Transmitted.finish {s u : State} {r : Inst} {b : Byte} (h : Transmitted s r b u) :
    Transmitted s r b { u with txPhase := .idle, rsp := some (.count 1) } :=
  { h with }

/-- A `WRITE` begun in `s` that lasts `d` cycles is done in `t`, or on a line that never comes to rest it is within its
stop delay. -/
def StopOutcome (s : State) (d : Nat) (t : State) : Prop :=
  (t.txPhase = .idle ∧ t.rsp = some (.count 1) ∧ s.now + d ≤ t.now) ∨
    (linesSteady s = false ∧ t.txPhase = .stop ∧ t.rsp = s.rsp ∧ s.now + d ≤ t.now + t.fgWait)

/-- Every way the stop delay can go, with the end of the `WRITE`. -/
theorem stop_outcome {s : State} (h : Inv s) (hc : takesCommand s) {n : Nat} {r : Inst} (hr : s.insts[n]? = some r)
    (b : Byte) :
    ∃ t, afterDelay (fun u => reply (.count 1) { u with txPhase := .idle }) (atStop n r b s) = .next t ∧
      Transmitted s r b t ∧
      StopOutcome s (delayCycles s.cfg (startCount s.cfg r.profile) + 9 * delayCycles s.cfg r.profile.txDelay) t := by
  obtain ⟨u, hu⟩ := (h.atStop hc hr b).fgDelay_total
  have hsent := transmitted_fgDelay h hc hr hu
  obtain ⟨hkept, _, _, _, hwait⟩ := fgDelay_spec (s := atStop n r b s) hc.1 hu
  have htime : s.now + (delayCycles s.cfg (startCount s.cfg r.profile) + 9 * delayCycles s.cfg r.profile.txDelay) ≤
      u.now + u.fgWait := by
    refine Nat.le_trans (Nat.le_of_eq ?_) hwait
    rw [atStop_now, atStop_fgWait]
    omega
  cases hover : delayOver u with
  | false =>
    have hmoves : linesSteady s = false :=
      Bool.eq_false_iff.2 fun hs => Bool.eq_false_iff.1 hover (fgDelay_ends hu (.inl hs))
    exact ⟨u, afterDelay_open hu hover, hsent, .inr ⟨hmoves, hkept.txPhase, hkept.rsp, htime⟩⟩
  | true =>
    rw [((delayOver_iff u).1 hover).1] at htime
    exact ⟨_, afterDelay_over hu hover, hsent.finish, .inl ⟨rfl, rfl, htime⟩⟩

/-- Settles O56: a successful `WRITE` is its stop delay from the stop level on, and its end. -/
theorem writeCompletes : Obligations.WriteCompletes := by
  intro s n r b h hc hr htx A T
  obtain ⟨t, ht, hsent, hend⟩ := stop_outcome h hc hr b
  exact ⟨t, (execWrite_eq hr b htx).trans ht, hsent.rxPhase, hsent.cfgPhase, hsent.gie, hsent.pin, hsent.otherPins,
    hsent.wire, hsent.head, hsent.active, hsent.unread, hsent.insts, hsent.overflow, hsent.setup, hsent.cfg,
    hsent.cfgInst, hsent.script, hsent.lineIn, hend⟩

end Sys2Proof.Machine
end

section
/-! PROOFS. The consumer operations (44_consumer_ops.md): what they answer where the instance is not the active
listener, and `FLUSH` where it is. -/

namespace Sys2Proof.Machine

open Sys2Proof

/-! ### An instance that is not the active listener (rule R160) -/

section
variable {n : Nat} {s : State} (hn : n < ninst s) (ha : s.active ≠ some n)
include hn ha

theorem execRead_of_other : execRead n s = .next { s with rsp := some .noData } := by
  rw [execRead, withPort_const hn, if_pos ha, reply]

theorem execPeek_of_other : execPeek n s = .next { s with rsp := some .noData } := by
  rw [execPeek, withPort_const hn, if_pos ha, reply]

theorem execAvail_of_other : execAvail n s = .next { s with rsp := some (.count 0) } := by
  rw [execAvail, withPort_const hn, if_pos ha, reply]

theorem execFlush_of_other : execFlush n s = .next { s with rsp := some .done } := by
  rw [execFlush, withPort_const hn, if_pos ha, reply]

end

/-- Settles O38: the guard of each of the four operations. -/
theorem notListeningGuard : Obligations.NotListeningGuard :=
  fun _ _ hn ha =>
    ⟨execRead_of_other hn ha, execPeek_of_other hn ha, execAvail_of_other hn ha, execFlush_of_other hn ha⟩

/-! ### `FLUSH` of the active listener (rules R164, R163) -/

/-- The critical section gives `gie` back as it found it. -/
theorem critical_resetIndices (s : State) :
    critical resetIndices s = { s with head := 0, tail := 0, stored := 0 } := rfl

theorem execFlush_of_active {n : Nat} {s : State} (hn : n < ninst s) (ha : s.active = some n) :
    execFlush n s = .next { s with head := 0, tail := 0, stored := 0, rsp := some .done } := by
  rw [execFlush, withPort_const hn, if_neg (not_not_intro ha), critical_resetIndices, reply]

/-- Settles O42: the guard of `FLUSH` passes and the indices are reset. -/
theorem flushResetsIndices : Obligations.FlushResetsIndices := fun _ _ => execFlush_of_active

/-- Where the indices meet nothing is unread, whatever the capacity (rule R41). -/
theorem bufCount_of_empty {s : State} (h : s.head = s.tail) : bufCount s = 0 := by
  rw [bufCount, h, Nat.add_sub_cancel_left, Nat.mod_self]

/-- With the indices together `AVAIL` answers 0 to every instance, the active listener or not. -/
theorem execAvail_of_empty {n : Nat} {s : State} (hn : n < ninst s) (h : s.head = s.tail) :
    execAvail n s = .next { s with rsp := some (.count 0) } := by
  by_cases ha : s.active = some n
  · rw [execAvail_of_active hn ha, bufCount_of_empty h]
  · exact execAvail_of_other hn ha

/-- Settles O43: a `FLUSH` of the active listener leaves the indices together; any other leaves `active` alone, so
`AVAIL` meets the same guard. -/
theorem flushThenAvailIsZero : Obligations.FlushThenAvailIsZero := by
  intro s t n h
  obtain ⟨hn, _⟩ := execFlush_spec h
  by_cases ha : s.active = some n
  · cases (execFlush_of_active hn ha).symm.trans h
    exact execAvail_of_empty hn rfl
  · cases (execFlush_of_other hn ha).symm.trans h
    exact execAvail_of_other hn ha

end Sys2Proof.Machine
end

section
/-! PROOFS. The receive interrupt (60_exceptions.md): the pending latches, which entry a step takes, what entry writes,
and that the foreground stands still while the handler runs (rules R187 to R193, R197). -/

namespace Sys2Proof.Machine

open Sys2Proof

/-! ### The pending latches (rule R187) -/

/-- After instant 0 an edge is a level that differs from that of the cycle before. -/
theorem Wave.edgeAt_iff (w : Wave) {t : Nat} (ht : 1 ≤ t) : w.edgeAt t = true ↔ w.levelAt t ≠ w.levelAt (t - 1) := by
  simp [Wave.edgeAt, ht]

/-- Settles O26: `advance` adds the edges of its interval to a latch. -/
theorem edgesAreLatched : Obligations.EdgesAreLatched := by
  intro s d x
  rw [source_advance_pending, Bool.or_eq_true, Wave.edgeWithin_iff]
  exact or_congr_right (exists_congr fun t => and_congr_right fun hlow => and_congr_right fun _ =>
    Wave.edgeAt_iff _ (Nat.one_le_of_lt hlow))

/-! ### Which entry a step takes (rules R188, R193) -/

theorem ready_of_fires_s0 {s : State} (h : fires s .s0 = true) : ready s = some .s0 := if_pos h

theorem ready_of_fires_s1 {s : State} (h0 : fires s .s0 ≠ true) (h1 : fires s .s1 = true) : ready s = some .s1 :=
  (if_neg h0).trans (if_pos h1)

/-- Settles O22: with `gie` 1 and the handler not running a source fires when its enable and its latch are 1. -/
theorem readyInterruptGoesFirst : Obligations.ReadyInterruptGoesFirst := by
  intro s hcfg hidle hgie
  have hfires (x : SourceId) : fires s x = true ↔ (source s x).enable = true ∧ (source s x).pending = true := by
    rw [fires_iff]
    exact ⟨fun ⟨_, hen, hpend, _⟩ => ⟨hen, hpend⟩, fun ⟨hen, hpend⟩ => ⟨hgie, hen, hpend, hidle⟩⟩
  refine ⟨fun h0 => ?_, fun h0 h1 => ?_⟩
  · exact step_of_ready hcfg (ready_of_fires_s0 ((hfires .s0).2 h0))
  · exact step_of_ready hcfg (ready_of_fires_s1 (mt (hfires .s0).1 h0) ((hfires .s1).2 h1))

/-! ### Handler entry (rules R189, R192) -/

/-- Settles O23: the two closed forms of an entry, for either source. -/
theorem handlerEntry : Obligations.HandlerEntry := by
  intro s
  refine ⟨fun n ha => ⟨?_, ?_⟩, fun ha => ⟨?_, ?_⟩⟩
  · exact enterHandler_some ha .s0
  · exact enterHandler_some ha .s1
  · exact enterHandler_none ha .s0
  · exact enterHandler_none ha .s1

/-! ### The foreground while the handler runs (rules R190, R197) -/

/-- Settles O24: with the handler running a step is a run or a phase of the handler. -/
theorem handlerSuspendsForeground : Obligations.HandlerSuspendsForeground := by
  intro s t hrx hs
  obtain ⟨_, ⟨_, r, _, hrun⟩ | ⟨_, _, r, _, hph⟩ | ⟨hi, _⟩ | ⟨hi, _⟩ | ⟨hi, _⟩ | ⟨⟨hi, _⟩, _⟩ | ⟨⟨hi, _⟩, _⟩⟩ :=
    step_spec hs
  · exact (runHandler_kept hrun).1
  · exact (rxPhaseWith_kept hph).1
  all_goals exact absurd hi hrx

end Sys2Proof.Machine
end

section
/-! PROOFS. The block has no fault and every operation completes (60_exceptions.md rule R182): what a phase, an
operation and a step answer under the invariants. -/

namespace Sys2Proof.Machine

open Sys2Proof

/-! ### The phases answer a next state -/

theorem bufPush_total {s : State} (ht : s.tail < s.cfg.cap) (n : Nat) (v : Byte) : ∃ t, bufPush n v s = .next t := by
  cases hf : bufFull s with
  | true => exact ⟨_, bufPush_of_full hf n v⟩
  | false => exact ⟨_, bufPush_of_room hf ht n v⟩

/-- A phase of the handler answers a next state when its instance exists and `tail` is an index. -/
theorem rxPhaseWith_total {s : State} {r : Inst} (hr : s.insts[s.rxInst]? = some r) (ht : s.tail < s.cfg.cap)
    (v : Level) : ∃ t, rxPhaseWith v s = .next t := by
  unfold rxPhaseWith
  cases s.rxPhase with
  | idle => exact ⟨s, rfl⟩
  | check =>
    by_cases hv : v = startLevel r.strap
    · exact ⟨_, (withInst_of (s := isrDelay s) hr _).trans (if_pos hv)⟩
    · exact ⟨_, (withInst_of (s := isrDelay s) hr _).trans (if_neg hv)⟩
  | center => exact ⟨_, withInst_of (s := isrDelay s) hr _⟩
  | bit k =>
    simp only [rxSample]
    split <;> exact ⟨_, withInst_of hr _⟩
  | stop => exact ⟨_, withInst_of (s := isrDelay s) hr _⟩
  | store =>
    obtain ⟨t, hpush⟩ := bufPush_total ht s.rxInst s.rxD
    simp only [rxStore, withInst_of hr, hpush]
    exact ⟨_, rfl⟩

theorem Inv.rxPhaseStep_total {s : State} (h : Inv s) (hrx : s.rxPhase ≠ .idle) :
    ∃ t, Machine.rxPhaseStep s = .next t := by
  have hr := List.getElem?_eq_getElem (h.rxInst_lt hrx)
  rw [Machine.rxPhaseStep, withInst_of hr]
  exact rxPhaseWith_total hr h.tail_lt _

/-- A delay answers a next state when what follows it does, wherever the delay ends. -/
theorem Inv.afterDelay_total {s : State} (h : Inv s) {k : State → Result}
    (hk : ∀ u, Machine.fgDelay s = .next u → ∃ t, k u = .next t) : ∃ t, afterDelay k s = .next t := by
  obtain ⟨u, hu⟩ := h.fgDelay_total
  cases hover : delayOver u with
  | true => rw [afterDelay_over hu hover]; exact hk u hu
  | false => exact ⟨u, afterDelay_open hu hover⟩

theorem txEnterBit_total {s : State} (h : s.txInst < ninst s) (k : Fin 8) : ∃ t, txEnterBit k s = .next t :=
  ⟨_, withInst_of (List.getElem?_eq_getElem h) _⟩

theorem txEnterStop_total {s : State} (h : s.txInst < ninst s) : ∃ t, txEnterStop s = .next t :=
  ⟨_, withInst_of (List.getElem?_eq_getElem h) _⟩

/-- The instance of a `WRITE` in progress exists when its delay ends. -/
theorem Inv.txInst_lt_fgDelay {s u : State} (h : Inv s) (htx : s.txPhase ≠ .idle)
    (hu : Machine.fgDelay s = .next u) : u.txInst < ninst u :=
  (h.fgDelay hu).txInst_lt ((fgDelay_kept hu).txPhase.trans_ne htx)

theorem Inv.txPhaseStep_total {s : State} (h : Inv s) : ∃ t, Machine.txPhaseStep s = .next t := by
  unfold Machine.txPhaseStep
  cases hp : s.txPhase with
  | idle => exact ⟨s, rfl⟩
  | start =>
    exact h.afterDelay_total fun u hu => txEnterBit_total (h.txInst_lt_fgDelay (by rw [hp]; exact nofun) hu) 0
  | bit k =>
    refine h.afterDelay_total fun u hu => ?_
    have hinst : u.txInst < ninst u := h.txInst_lt_fgDelay (by rw [hp]; exact nofun) hu
    split
    · exact txEnterStop_total hinst
    · exact txEnterBit_total hinst _
  | stop => exact h.afterDelay_total fun u _ => ⟨_, rfl⟩

/-- The settle phase (rules R126, R127). -/
theorem cfgPhase_settle {s : State} (h : s.cfgPhase = .settle) :
    cfgPhaseStep s = afterDelay (fun u => finishConfigure u.cfgInst u) s := by
  rw [cfgPhaseStep, h]

/-- The instance of a `CONFIGURE` in progress exists when its delay ends. -/
theorem Inv.cfgInst_lt_fgDelay {s u : State} (h : Inv s) (hcf : s.cfgPhase ≠ .idle)
    (hu : Machine.fgDelay s = .next u) : u.cfgInst < ninst u :=
  (h.fgDelay hu).cfgInst_lt ((fgDelay_kept hu).cfgPhase.trans_ne hcf)

theorem Inv.cfgPhaseStep_total {s : State} (h : Inv s) : ∃ t, Machine.cfgPhaseStep s = .next t := by
  cases hp : s.cfgPhase with
  | idle => exact ⟨s, by rw [Machine.cfgPhaseStep, hp]⟩
  | settle =>
    rw [cfgPhase_settle hp]
    exact h.afterDelay_total fun u hu =>
      ⟨_, finishConfigure_eq (h.cfgInst_lt_fgDelay (by rw [hp]; exact nofun) hu)⟩

/-! ### A command completes -/

/-- The operation answers a next state in which the block takes a command again. -/
def Completes (r : Result) : Prop := ∃ t, r = .next t ∧ takesCommand t

/-- The two operations that an endless train of edges can keep within a delay (rule R13). -/
def WithinDelay (i : Instr) (s t : State) : Prop :=
  linesSteady s = false ∧ t.rxPhase = .idle ∧
    ((∃ n b, i = .write n b ∧ t.txPhase = .stop) ∨ ∃ n baud, i = .configure n baud ∧ t.cfgPhase = .settle)

@[simp] theorem takesCommand_takeOver (n : Nat) (s : State) : takesCommand (takeOver n s) ↔ takesCommand s := by
  simp [takesCommand]

@[simp] theorem takesCommand_setSource (x : SourceId) (f : IntSource → IntSource) (s : State) :
    takesCommand (setSource x f s) ↔ takesCommand s := by
  simp [takesCommand]

/-- The last part of `CONFIGURE` makes the foreground idle (rule R127). -/
theorem finishConfigure_completes {n : Nat} {s : State} (hn : n < ninst s) (hrx : s.rxPhase = .idle)
    (htx : s.txPhase = .idle) : Completes (finishConfigure n s) :=
  ⟨_, finishConfigure_eq hn, (takesCommand_takeOver n { s with cfgPhase := .idle }).2 ⟨hrx, htx, rfl⟩⟩

section
variable {n : Nat} {s : State} (hc : takesCommand s) (hn : n < ninst s)
include hc hn

theorem execAvail_completes : Completes (execAvail n s) := by
  by_cases ha : s.active = some n
  · exact ⟨_, execAvail_of_active hn ha, hc⟩
  · exact ⟨_, execAvail_of_other hn ha, hc⟩

theorem execFlush_completes : Completes (execFlush n s) := by
  by_cases ha : s.active = some n
  · exact ⟨_, execFlush_of_active hn ha, hc⟩
  · exact ⟨_, execFlush_of_other hn ha, hc⟩

variable (h : Inv s)
include h

theorem execRead_completes : Completes (execRead n s) := by
  by_cases ha : s.active = some n
  · by_cases he : s.head = s.tail
    · exact ⟨_, execRead_of_empty hn ha he, hc⟩
    · exact ⟨_, execRead_of_nonempty hn ha he h.head_lt, hc⟩
  · exact ⟨_, execRead_of_other hn ha, hc⟩

theorem execPeek_completes : Completes (execPeek n s) := by
  by_cases ha : s.active = some n
  · by_cases he : s.head = s.tail
    · exact ⟨_, execPeek_of_empty hn ha he, hc⟩
    · exact ⟨_, execPeek_of_nonempty hn ha he h.head_lt, hc⟩
  · exact ⟨_, execPeek_of_other hn ha, hc⟩

/-- `CONFIGURE` is its settle delay and its last part, or its last part at once. -/
theorem execConfigure_completes (baud : BitVec 32) :
    ∃ t, execConfigure n baud s = .next t ∧ (takesCommand t ∨ WithinDelay (.configure n baud) s t) := by
  have hr := List.getElem?_eq_getElem hn
  by_cases hp : (lookupBaud s.cfg baud).rxStopbit = 0
  · obtain ⟨t, ht, hct⟩ := finishConfigure_completes (s := setProfile n (lookupBaud s.cfg baud) s)
      (by rwa [ninst_setProfile]) hc.1 hc.2.1
    exact ⟨t, (execConfigure_of_not_viable hn hp).trans ht, .inl hct⟩
  · obtain ⟨t, ht, hconf, ⟨hidle, _⟩ | ⟨hmoves, hsettle, _⟩⟩ := settle_outcome h hc hn _ (lookupBaud s.cfg baud)
    · exact ⟨t, (execConfigure_of_viable hr hp).trans ht, .inl ⟨hconf.rxPhase, hconf.txPhase, hidle⟩⟩
    · exact ⟨t, (execConfigure_of_viable hr hp).trans ht,
        .inr ⟨hmoves, hconf.rxPhase, .inr ⟨n, baud, rfl, hsettle⟩⟩⟩

/-- `WRITE` is refused, or its stop delay and its end. -/
theorem execWrite_completes (b : Byte) :
    ∃ t, execWrite n b s = .next t ∧ (takesCommand t ∨ WithinDelay (.write n b) s t) := by
  have hr := List.getElem?_eq_getElem hn
  by_cases htx : (s.insts[n]).profile.txDelay = 0
  · exact ⟨_, writeRefusedWhenUnconfigured s n _ b hr htx, .inl hc⟩
  · obtain ⟨t, ht, hsent, ⟨hidle, _⟩ | ⟨hmoves, hstop, _⟩⟩ := stop_outcome h hc hr b
    · exact ⟨t, (execWrite_eq hr b htx).trans ht, .inl ⟨hsent.rxPhase, hidle, hsent.cfgPhase⟩⟩
    · exact ⟨t, (execWrite_eq hr b htx).trans ht, .inr ⟨hmoves, hsent.rxPhase, .inl ⟨n, b, rfl, hstop⟩⟩⟩

/-- Every command to an instance that exists (rule R182). -/
theorem Inv.exec_completes {i : Instr} (hi : i.target = some n) :
    ∃ t, Machine.exec i s = .next t ∧ (takesCommand t ∨ WithinDelay i s t) := by
  have hidle {r : Result} : Completes r → ∃ t, r = .next t ∧ (takesCommand t ∨ WithinDelay i s t) :=
    fun ⟨t, ht, hct⟩ => ⟨t, ht, .inl hct⟩
  cases i <;> cases hi
  case configure baud => exact execConfigure_completes hc hn h baud
  case write b => exact execWrite_completes hc hn h b
  case read => exact hidle (execRead_completes hc hn h)
  case peek => exact hidle (execPeek_completes hc hn h)
  case avail => exact hidle (execAvail_completes hc hn)
  case flush => exact hidle (execFlush_completes hc hn)
  case status => exact hidle ⟨_, withPort_of (List.getElem?_eq_getElem hn) _, hc⟩
  case islisten => exact hidle ⟨_, execIslisten_eq hn, hc⟩
  case listen => exact hidle ⟨_, execListen_eq hn, (takesCommand_takeOver n s).2 hc⟩
  case shutdown =>
    exact hidle ⟨_, execShutdown_eq (List.getElem?_eq_getElem hn), (takesCommand_setSource _ _ s).2 hc⟩

end

/-! ### The rest of a delay and the handler complete -/

/-- On steady lines the stop phase ends within the step (rule R146). -/
theorem Inv.stopPhase_completes {s : State} (h : Inv s) (hs : linesSteady s = true) (hrx : s.rxPhase = .idle)
    (hp : s.txPhase = .stop) : Completes (Machine.txPhaseStep s) := by
  have hcf : s.cfgPhase = .idle := h.oneOp.resolve_left (by rw [hp]; exact nofun)
  obtain ⟨u, hu⟩ := h.fgDelay_total
  obtain ⟨hkept, _, hidle, _⟩ := fgDelay_spec hrx hu
  exact ⟨_, (txPhase_stop hp).trans (afterDelay_over hu (fgDelay_over hs hu)), hidle, rfl, hkept.cfgPhase.trans hcf⟩

/-- And so does the settle phase (rules R126, R127). -/
theorem Inv.settlePhase_completes {s : State} (h : Inv s) (hs : linesSteady s = true) (hrx : s.rxPhase = .idle)
    (hp : s.cfgPhase = .settle) : Completes (Machine.cfgPhaseStep s) := by
  have hne : s.cfgPhase ≠ .idle := by rw [hp]; exact nofun
  obtain ⟨u, hu⟩ := h.fgDelay_total
  obtain ⟨hkept, _, hidle, _⟩ := fgDelay_spec hrx hu
  rw [cfgPhase_settle hp, afterDelay_over hu (fgDelay_over hs hu)]
  exact finishConfigure_completes (h.cfgInst_lt_fgDelay hne hu) hidle
    (hkept.txPhase.trans (h.oneOp.resolve_right hne))

/-- A run of an instance that exists returns (rule R191). -/
theorem Inv.runHandler_returns {s : State} (h : Inv s) (hn : s.rxInst < ninst s) (c : Level) (cells : Byte) :
    ∃ t, Machine.runHandler c cells s = .next t ∧ t.rxPhase = .idle ∧ t.gie = true := by
  obtain ⟨t, ht⟩ := runHandler_total (List.getElem?_eq_getElem hn) h.tail_lt c cells
  obtain ⟨_, hidle, hgie, _⟩ := runHandler_kept ht
  exact ⟨t, ht, hidle, hgie⟩

/-! ### The step -/

section
variable {s : State} (hcfg : configOk s.cfg (straps s) = true)
include hcfg

theorem step_of_running (hck : s.rxPhase ≠ .check) (hrx : s.rxPhase ≠ .idle) : step s = rxPhaseStep s := by
  simp [step, nextMove, hcfg, hck, hrx]

theorem step_of_txPhase (hrx : s.rxPhase = .idle) (hr : ready s = none) (htx : s.txPhase ≠ .idle) :
    step s = txPhaseStep s := by
  simp [step, nextMove, hcfg, hrx, hr, htx]

theorem step_of_cfgPhase (hrx : s.rxPhase = .idle) (hr : ready s = none) (htx : s.txPhase = .idle)
    (hcf : s.cfgPhase ≠ .idle) : step s = cfgPhaseStep s := by
  simp [step, nextMove, hcfg, hrx, hr, htx, hcf]

end

/-- The instance of a well-formed command exists (rule R71). -/
theorem target_lt_of_wellFormed {i : Instr} {k n : Nat} (h : i.wellFormed k = true) (hn : i.target = some n) :
    n < k := by
  simp only [Instr.wellFormed, Instr.addressed, hn, Bool.and_eq_true, decide_eq_true_eq] at h
  exact h.2

/-- Settles O12: every command, either handler row, and the step from within either delay. -/
theorem everyOperationCompletes : Obligations.EveryOperationCompletes := by
  intro s h
  refine ⟨fun i hwf hi hc => ?_, fun i _ hi hn => ?_, fun hs hrx hr hp => ?_⟩
  · obtain ⟨n, hn⟩ := Option.ne_none_iff_exists'.1 hi
    exact h.exec_completes hc (target_lt_of_wellFormed hwf hn) hn
  · cases i with
    | rxisr cells | rxisrInv cells => exact h.runHandler_returns hn _ cells
    | _ => exact absurd hi nofun
  · rcases hp with hp | hp
    · rw [step_of_txPhase h.config hrx hr (by rw [hp]; exact nofun)]
      exact h.stopPhase_completes hs hrx hp
    · have hcf : s.cfgPhase ≠ .idle := by rw [hp]; exact nofun
      rw [step_of_cfgPhase h.config hrx hr (h.oneOp.resolve_right hcf) hcf]
      exact h.settlePhase_completes hs hrx hp

/-- What is no fault: a next state, or a refusal. -/
def Answers (r : Result) : Prop := (∃ t, r = .next t) ∨ ∃ e, r = .refused e

/-- With the block idle and no interrupt ready a step takes the due command, refuses it, or lets time pass. -/
theorem Inv.hostStep_answers {s : State} (h : Inv s) (hc : takesCommand s) (hr : ready s = none) :
    Answers (step s) := by
  by_cases hdue : ∃ c rest, s.script = c :: rest ∧ c.notBefore ≤ s.now
  · obtain ⟨c, rest, hs, hle⟩ := hdue
    cases hd : decodeCommand c.word with
    | error e =>
      refine .inr ⟨.undecodable e, ?_⟩
      rw [step, nextMove_of_takesCommand h.config hc hr, hostMove_of_due hs hle, hd, runDecoded]
    | ok i =>
      have hi := decodeCommand_target_eq hd
      rw [stepRunsHostCommand s c rest i h.config hc hr hs hle hd]
      by_cases hn : instField c.word < ninst s
      · obtain ⟨t, ht, _⟩ :=
          Inv.exec_completes (s := { s with script := rest, rsp := none }) hc hn (h.port none rest) hi
        exact .inl ⟨t, ht⟩
      · exact .inr ⟨_, exec_of_absent hi (Nat.le_of_not_lt hn)⟩
  · obtain ⟨d, _, hstep, _⟩ := idleStepLetsTimePass s h.config hc hr fun c rest hs =>
      Nat.lt_of_not_le fun hle => hdue ⟨c, rest, hs, hle⟩
    exact .inl ⟨_, hstep⟩

/-- Under the invariants a step answers, whichever of its moves it makes (rules R8, R188). -/
theorem Inv.step_answers {s : State} (h : Inv s) : Answers (step s) := by
  by_cases hck : s.rxPhase = .check
  · have hr := List.getElem?_eq_getElem (h.rxInst_lt (by rw [hck]; exact nofun))
    rw [step_of_check h.config hck hr]
    exact .inl (runHandler_total hr h.tail_lt _ _)
  by_cases hrx : s.rxPhase = .idle
  case neg =>
    rw [step_of_running h.config hck hrx]
    exact .inl (h.rxPhaseStep_total hrx)
  cases hr : ready s with
  | some x => exact .inl ⟨_, step_of_ready h.config hr⟩
  | none =>
    by_cases htx : s.txPhase = .idle
    case neg =>
      rw [step_of_txPhase h.config hrx hr htx]
      exact .inl h.txPhaseStep_total
    by_cases hcf : s.cfgPhase = .idle
    case neg =>
      rw [step_of_cfgPhase h.config hrx hr htx hcf]
      exact .inl h.cfgPhaseStep_total
    exact h.hostStep_answers ⟨hrx, htx, hcf⟩ hr

/-- Settles O11: a fault is neither a next state nor a refusal. -/
theorem noStepFaults : Obligations.NoStepFaults := by
  intro s f h hf
  obtain ⟨t, ht⟩ | ⟨e, he⟩ := h.step_answers
  · cases hf.symm.trans ht
  · cases hf.symm.trans he

end Sys2Proof.Machine
end

section
/-! PROOFS. No interrupt is ready in the reset state (60_exceptions.md rule R210): both enables are 0 there, and a source
whose enable is 0 does not fire. -/

namespace Sys2Proof.Machine

open Sys2Proof

/-- A source that is not enabled does not fire, whatever `gie` and its latch are (rule R188). -/
theorem fires_eq_false_of_disabled {s : State} {x : SourceId} (h : (source s x).enable = false) :
    fires s x = false := by
  refine Bool.eq_false_iff.2 fun hf => ?_
  obtain ⟨_, henable, _, _⟩ := (fires_iff s x).1 hf
  rw [h] at henable
  cases henable

/-- Reset clears the enable of either source, in every build (rule R34). -/
@[simp] theorem source_powerOn_enable (b : Build) (u : PowerOn) (x : SourceId) :
    (source (State.powerOn b u) x).enable = false := by
  cases x <;> rfl

/-- Settles O9: neither source is enabled after reset, so neither fires. -/
theorem noInterruptAfterReset : Obligations.NoInterruptAfterReset := fun b u =>
  (ready_none_iff _).2
    ⟨fires_eq_false_of_disabled (source_powerOn_enable b u .s0),
      fires_eq_false_of_disabled (source_powerOn_enable b u .s1)⟩

end Sys2Proof.Machine
end
